-- ==== Sys2Proof/Word.lean ====
section
/-! DEFINITION. The widths the spec fixes and the closed sets its operands and parameters range over
(00_scope.md R8, R9; 10_state.md R22; 30_encoding.md R55 to R58). -/

namespace Sys2Proof

/-- A byte of a frame, `u8` (00_scope.md R9). -/
abbrev Byte := BitVec 8

/-- A device register, `u16` (00_scope.md R8). -/
abbrev Word := BitVec 16

/-- A bus address is 7 bits (00_scope.md R8, 20_memory.md R28). -/
abbrev BusAddr := BitVec 7

/-- The bit pattern of an IEEE-754 binary32 value (00_scope.md R8, R10). -/
abbrev F32 := BitVec 32

/-- The bit pattern of an IEEE-754 binary64 value (43_scaling_engine.md R121). -/
abbrev F64 := BitVec 64

/-- The four device registers, a closed set (10_state.md R22). -/
inductive RegisterId where
  | conversion | config | lowThreshold | highThreshold
  deriving DecidableEq, Repr, Inhabited

/-- The eight input-mux selections (30_encoding.md R55). -/
inductive MuxSelector where
  | diff01 | diff03 | diff13 | diff23 | se0 | se1 | se2 | se3
  deriving DecidableEq, Repr, Inhabited

/-- A Channel has the eight MuxSelector variants (41_config_builder.md R95). -/
abbrev Channel := MuxSelector

/-- The six full-scale ranges (30_encoding.md R56). -/
inductive GainRange where
  | pga6144 | pga4096 | pga2048 | pga1024 | pga0512 | pga0256
  deriving DecidableEq, Repr, Inhabited

/-- The two operating modes (30_encoding.md R57). -/
inductive Mode where
  | continuous | singleShot
  deriving DecidableEq, Repr, Inhabited

/-- The eight data rates (30_encoding.md R58). -/
inductive DataRate where
  | dr8 | dr16 | dr32 | dr64 | dr128 | dr250 | dr475 | dr860
  deriving DecidableEq, Repr, Inhabited

/-- The binding to the Transport Port (10_state.md R16), a name no operation reads as data.
DESIGN CHOICE, safe: a number names the port (log 9). -/
structure PortBinding where
  id : Nat
  deriving DecidableEq, Repr, Inhabited

end Sys2Proof
end

