-- ==== Sys2Proof/Syntax.lean ====
section
/-! DEFINITION. The operations, one constructor for each of the 22 rows of spec/opcode_table.json
(30_encoding.md R62 to R66), and a request as the requester presents it (R63, R64). -/

namespace Sys2Proof

/-- The operation set (30_encoding.md R62) and the reserved op codes (R66).
`sel` is the header's low field of an operation that ignores it (R63): it is kept so that one header is one
term, and no meaning reads it (log 22). An `i16` operand is the integer it stands for (00_scope.md R9). -/
inductive Instr where
  /-- `WREG.CONV`, 40_register_codec.md R75. -/
  | wregConv (value : Word)
  /-- `WREG.CFG`, 40_register_codec.md R76. -/
  | wregCfg (value : Word)
  /-- `WREG.LO`, 40_register_codec.md R77. -/
  | wregLo (value : Word)
  /-- `WREG.HI`, 40_register_codec.md R78. -/
  | wregHi (value : Word)
  /-- `RREG.CONV`, 40_register_codec.md R80. -/
  | rregConv
  /-- `RREG.CFG`, 40_register_codec.md R81. -/
  | rregCfg
  /-- `RREG.LO`, 40_register_codec.md R82. -/
  | rregLo
  /-- `RREG.HI`, 40_register_codec.md R83. -/
  | rregHi
  /-- `BUILD_CONFIG`, 41_config_builder.md R88. -/
  | buildConfig (sel : BitVec 2) (mux : MuxSelector) (gain : GainRange) (rate : DataRate) (mode : Mode) (start : Bool)
  /-- `DECODE_CONFIG`, 41_config_builder.md R92. -/
  | decodeConfig (sel : BitVec 2) (word : Word)
  /-- `READ_CHANNEL`, 42_conversion_sequencer.md R97. -/
  | readChannel (sel : BitVec 2) (channel : Channel) (gain : GainRange) (rate : DataRate)
  /-- `SCALE`, 43_scaling_engine.md R117. -/
  | scale (sel : BitVec 2) (raw : Int) (gain : GainRange)
  /-- `SCALE_FIXED`, 43_scaling_engine.md R122. -/
  | scaleFixed (sel : BitVec 2) (raw : Int) (gain : GainRange)
  /-- `ENC16`, 40_register_codec.md R70. -/
  | enc16 (sel : BitVec 2) (value : Word)
  /-- `DEC16`, 40_register_codec.md R71. -/
  | dec16 (sel : BitVec 2) (hi lo : Byte)
  /-- `SEXT16`, 40_register_codec.md R72. -/
  | sext16 (sel : BitVec 2) (w : Word)
  /-- Reserved op code 0x0, 30_encoding.md R66. -/
  | reservedOp0 (sel : BitVec 2)
  /-- Reserved op code 0xB, 30_encoding.md R66. -/
  | reservedOpB (sel : BitVec 2)
  /-- Reserved op code 0xC, 30_encoding.md R66. -/
  | reservedOpC (sel : BitVec 2)
  /-- Reserved op code 0xD, 30_encoding.md R66. -/
  | reservedOpD (sel : BitVec 2)
  /-- Reserved op code 0xE, 30_encoding.md R66. -/
  | reservedOpE (sel : BitVec 2)
  /-- Reserved op code 0xF, 30_encoding.md R66. -/
  | reservedOpF (sel : BitVec 2)
  deriving DecidableEq, Repr

/-- The typed operands of a request, one slot for each operand name of 30_encoding.md R64.
DESIGN CHOICE, safe: the rule gives types and no bits, so an operation reads the slots of its own operands and
no other (log 1). `raw` is an `i16` (00_scope.md R9). -/
structure Operands where
  value   : Word
  hi      : Byte
  lo      : Byte
  w       : Word
  word    : Word
  mux     : MuxSelector
  channel : Channel
  gain    : GainRange
  rate    : DataRate
  mode    : Mode
  start   : Bool
  raw     : BitVec 16
  deriving DecidableEq, Repr, Inhabited

/-- A request in format `CMD`: a 6-bit header and the typed operands (30_encoding.md R63). -/
structure Request where
  hdr : BitVec 6
  ops : Operands
  deriving DecidableEq, Repr, Inhabited

/-- The requester's pseudo-operations (30_encoding.md R69). The block never sees one. -/
inductive Pseudo where
  | wcfg (mux : MuxSelector) (gain : GainRange) (rate : DataRate) (mode : Mode) (start : Bool)
  | rconv
  | rstatus
  deriving DecidableEq, Repr

end Sys2Proof
end

