-- ==== Sys2Proof/WellFormed.lean ====
section
/-! DEFINITION. Well-formed instructions. Every operand but an `i16` is of a closed type, so "an operand out of
range cannot be written down" (30_encoding.md R64); an `i16` is an integer with a range (00_scope.md R9). -/

namespace Sys2Proof

/-- The range of an `i16` (00_scope.md R9). -/
abbrev InI16 (raw : Int) : Prop := -32768 ≤ raw ∧ raw ≤ 32767

/-- The one check on an instruction: an `i16` operand is in its range (00_scope.md R9, 30_encoding.md R64). -/
def Instr.wf : Instr → Bool
  | .wregConv _ => true
  | .wregCfg _ => true
  | .wregLo _ => true
  | .wregHi _ => true
  | .rregConv => true
  | .rregCfg => true
  | .rregLo => true
  | .rregHi => true
  | .buildConfig _ _ _ _ _ _ => true
  | .decodeConfig _ _ => true
  | .readChannel _ _ _ _ => true
  | .scale _ raw _ => decide (InI16 raw)
  | .scaleFixed _ raw _ => decide (InI16 raw)
  | .enc16 _ _ => true
  | .dec16 _ _ _ => true
  | .sext16 _ _ => true
  | .reservedOp0 _ => true
  | .reservedOpB _ => true
  | .reservedOpC _ => true
  | .reservedOpD _ => true
  | .reservedOpE _ => true
  | .reservedOpF _ => true

end Sys2Proof
end

