-- ==== Sys2Proof/Decode.lean ====
section
/-! DEFINITION. Requests (30_encoding.md R63 to R66) and wire frames (R49, R50, R60, R61): the decoders, total on
any input and rejecting by name, and after each the encoder. -/

namespace Sys2Proof

/-- `op = hdr[5:2]` (30_encoding.md R66). -/
def Request.op (r : Request) : BitVec 4 := r.hdr.extractLsb' 2 4

/-- `sel = hdr[1:0]` (30_encoding.md R66). -/
def Request.sel (r : Request) : BitVec 2 := r.hdr.extractLsb' 0 2

/-- The operation a request names (30_encoding.md R63, R66): total on the 64 headers.
An op of R66's reserved list is an instruction of its own, the one that refuses.
The last arm is op 0xF: it is the only 4-bit number the others leave. -/
def decode (r : Request) : Instr :=
  match r.op.toNat with
  | 0x0 => .reservedOp0 r.sel
  | 0x1 =>
    match r.sel.toFin with
    | 0 => .wregConv r.ops.value
    | 1 => .wregCfg r.ops.value
    | 2 => .wregLo r.ops.value
    | 3 => .wregHi r.ops.value
  | 0x2 =>
    match r.sel.toFin with
    | 0 => .rregConv
    | 1 => .rregCfg
    | 2 => .rregLo
    | 3 => .rregHi
  | 0x3 => .buildConfig r.sel r.ops.mux r.ops.gain r.ops.rate r.ops.mode r.ops.start
  | 0x4 => .decodeConfig r.sel r.ops.word
  | 0x5 => .readChannel r.sel r.ops.channel r.ops.gain r.ops.rate
  | 0x6 => .scale r.sel r.ops.raw.toInt r.ops.gain
  | 0x7 => .scaleFixed r.sel r.ops.raw.toInt r.ops.gain
  | 0x8 => .enc16 r.sel r.ops.value
  | 0x9 => .dec16 r.sel r.ops.hi r.ops.lo
  | 0xA => .sext16 r.sel r.ops.w
  | 0xB => .reservedOpB r.sel
  | 0xC => .reservedOpC r.sel
  | 0xD => .reservedOpD r.sel
  | 0xE => .reservedOpE r.sel
  | _ => .reservedOpF r.sel

/-- A header word with a bit above bit 5 is no header of format `CMD` (30_encoding.md R63). -/
inductive HeaderError where
  | notSixBits (w : Nat)
  deriving DecidableEq, Repr

/-- A header given as a number, with its operands: total, and a number over six bits is rejected by name. -/
def decodeHeader (w : Nat) (ops : Operands) : Except HeaderError Instr :=
  if w < 64 then .ok (decode { hdr := BitVec.ofNat 6 w, ops := ops }) else .error (.notSixBits w)

/-- Every operand slot at its zero: numbers 0, `start` false, and of each enumeration the variant the default
table codes 0 (30_encoding.md R55 to R58). DESIGN CHOICE, safe: for the host's "operand words of zeros" only (log 2). -/
def Operands.zero : Operands :=
  { value := 0, hi := 0, lo := 0, w := 0, word := 0, mux := .diff01, channel := .diff01, gain := .pga6144,
    rate := .dr8, mode := .continuous, start := false, raw := 0 }

/-- The instruction of a table word: the header `w`, the operands zero (log 2). -/
def decodeTableWord (_nbits w : Nat) : Option Instr :=
  match decodeHeader w Operands.zero with
  | .ok i => some i
  | .error _ => none

/-- The header `{op, sel}` (30_encoding.md R63). -/
def header (op : BitVec 4) (sel : BitVec 2) : BitVec 6 := op ++ sel

/-- The request of an instruction (30_encoding.md R63, R64): its header, its operands in their slots, the other
slots zero. -/
def encode : Instr → Request
  | .wregConv value => ⟨header 0x1 0, { Operands.zero with value := value }⟩
  | .wregCfg value => ⟨header 0x1 1, { Operands.zero with value := value }⟩
  | .wregLo value => ⟨header 0x1 2, { Operands.zero with value := value }⟩
  | .wregHi value => ⟨header 0x1 3, { Operands.zero with value := value }⟩
  | .rregConv => ⟨header 0x2 0, Operands.zero⟩
  | .rregCfg => ⟨header 0x2 1, Operands.zero⟩
  | .rregLo => ⟨header 0x2 2, Operands.zero⟩
  | .rregHi => ⟨header 0x2 3, Operands.zero⟩
  | .buildConfig sel mux gain rate mode start =>
    ⟨header 0x3 sel, { Operands.zero with mux := mux, gain := gain, rate := rate, mode := mode, start := start }⟩
  | .decodeConfig sel word => ⟨header 0x4 sel, { Operands.zero with word := word }⟩
  | .readChannel sel channel gain rate =>
    ⟨header 0x5 sel, { Operands.zero with channel := channel, gain := gain, rate := rate }⟩
  | .scale sel raw gain => ⟨header 0x6 sel, { Operands.zero with raw := BitVec.ofInt 16 raw, gain := gain }⟩
  | .scaleFixed sel raw gain => ⟨header 0x7 sel, { Operands.zero with raw := BitVec.ofInt 16 raw, gain := gain }⟩
  | .enc16 sel value => ⟨header 0x8 sel, { Operands.zero with value := value }⟩
  | .dec16 sel hi lo => ⟨header 0x9 sel, { Operands.zero with hi := hi, lo := lo }⟩
  | .sext16 sel w => ⟨header 0xA sel, { Operands.zero with w := w }⟩
  | .reservedOp0 sel => ⟨header 0x0 sel, Operands.zero⟩
  | .reservedOpB sel => ⟨header 0xB sel, Operands.zero⟩
  | .reservedOpC sel => ⟨header 0xC sel, Operands.zero⟩
  | .reservedOpD sel => ⟨header 0xD sel, Operands.zero⟩
  | .reservedOpE sel => ⟨header 0xE sel, Operands.zero⟩
  | .reservedOpF sel => ⟨header 0xF sel, Operands.zero⟩

/-- An instruction's name in spec/opcode_table.json. -/
def Instr.mnemonic : Instr → String
  | .wregConv _ => "WREG.CONV"
  | .wregCfg _ => "WREG.CFG"
  | .wregLo _ => "WREG.LO"
  | .wregHi _ => "WREG.HI"
  | .rregConv => "RREG.CONV"
  | .rregCfg => "RREG.CFG"
  | .rregLo => "RREG.LO"
  | .rregHi => "RREG.HI"
  | .buildConfig _ _ _ _ _ _ => "BUILD_CONFIG"
  | .decodeConfig _ _ => "DECODE_CONFIG"
  | .readChannel _ _ _ _ => "READ_CHANNEL"
  | .scale _ _ _ => "SCALE"
  | .scaleFixed _ _ _ => "SCALE_FIXED"
  | .enc16 _ _ => "ENC16"
  | .dec16 _ _ _ => "DEC16"
  | .sext16 _ _ => "SEXT16"
  | .reservedOp0 _ => "RESERVED_OP_0"
  | .reservedOpB _ => "RESERVED_OP_B"
  | .reservedOpC _ => "RESERVED_OP_C"
  | .reservedOpD _ => "RESERVED_OP_D"
  | .reservedOpE _ => "RESERVED_OP_E"
  | .reservedOpF _ => "RESERVED_OP_F"

/-- A row of spec/opcode_table.json: a header is the row's when `hdr &&& mask = pattern`. -/
structure OpcodeRow where
  mnemonic : String
  pattern  : BitVec 6
  mask     : BitVec 6
  deriving DecidableEq, Repr

/-- The 22 rows of spec/opcode_table.json (30_encoding.md R63). -/
def opcodeTable : List OpcodeRow :=
  [⟨"WREG.CONV", 0x04, 0x3F⟩, ⟨"WREG.CFG", 0x05, 0x3F⟩, ⟨"WREG.LO", 0x06, 0x3F⟩, ⟨"WREG.HI", 0x07, 0x3F⟩] ++
  [⟨"RREG.CONV", 0x08, 0x3F⟩, ⟨"RREG.CFG", 0x09, 0x3F⟩, ⟨"RREG.LO", 0x0A, 0x3F⟩, ⟨"RREG.HI", 0x0B, 0x3F⟩] ++
  [⟨"BUILD_CONFIG", 0x0C, 0x3C⟩, ⟨"DECODE_CONFIG", 0x10, 0x3C⟩, ⟨"READ_CHANNEL", 0x14, 0x3C⟩, ⟨"SCALE", 0x18, 0x3C⟩] ++
  [⟨"SCALE_FIXED", 0x1C, 0x3C⟩, ⟨"ENC16", 0x20, 0x3C⟩, ⟨"DEC16", 0x24, 0x3C⟩, ⟨"SEXT16", 0x28, 0x3C⟩] ++
  [⟨"RESERVED_OP_0", 0x00, 0x3C⟩, ⟨"RESERVED_OP_B", 0x2C, 0x3C⟩, ⟨"RESERVED_OP_C", 0x30, 0x3C⟩,
   ⟨"RESERVED_OP_D", 0x34, 0x3C⟩, ⟨"RESERVED_OP_E", 0x38, 0x3C⟩, ⟨"RESERVED_OP_F", 0x3C, 0x3C⟩]

/-- A header belongs to a row (spec/opcode_table.json, `match` and `mask`). -/
def OpcodeRow.covers (row : OpcodeRow) (hdr : BitVec 6) : Bool := hdr &&& row.mask == row.pattern

/-! ## Wire frames -/

/-- The `sel` code of a RegisterId (30_encoding.md R60). -/
def RegisterId.code : RegisterId → BitVec 2
  | .conversion => 0b00
  | .config => 0b01
  | .lowThreshold => 0b10
  | .highThreshold => 0b11

/-- The selector byte, `zext_8(sel)` (30_encoding.md R60). -/
def RegisterId.selector (reg : RegisterId) : Byte := reg.code.setWidth 8

/-- The high and the low byte of a word, `v[15:8]` and `v[7:0]` (40_register_codec.md R70, 30_encoding.md R49). -/
def hiByte (v : Word) : Byte := v.extractLsb' 8 8
def loByte (v : Word) : Byte := v.extractLsb' 0 8

/-- `{hi, lo}`, the word of two bytes, most significant first (40_register_codec.md R71). -/
def joinBytes (hi lo : Byte) : Word := hi ++ lo

/-- An exchange as the requester of the port sees it: format `W3` or the written part of `W1R2`
(30_encoding.md R49, R50). -/
inductive Frame where
  | write (reg : RegisterId) (value : Word)
  | read (reg : RegisterId)
  deriving DecidableEq, Repr

/-- Which of the two calls of the Transport Port carries the bytes: the call tells the formats apart
(30_encoding.md R67). -/
inductive PortCall where
  | write
  | writeThenRead (n : Nat)
  deriving DecidableEq, Repr

/-- Why a call of the port is "not a frame of this block" (30_encoding.md R61, R67). -/
inductive FrameError where
  | selectorOutOfRange (sel : Byte)
  | wrongLength
  | wrongReadLength (n : Nat)
  deriving DecidableEq, Repr

/-- The register a selector byte names; 0x04..0xFF name none (30_encoding.md R60, R61). -/
def decodeSelector (sel : Byte) : Except FrameError RegisterId :=
  if sel = 0x00 then .ok .conversion
  else if sel = 0x01 then .ok .config
  else if sel = 0x02 then .ok .lowThreshold
  else if sel = 0x03 then .ok .highThreshold
  else .error (.selectorOutOfRange sel)

/-- What a bus monitor reads from a call of the port (30_encoding.md R61, R67): total on any bytes. -/
def decodeFrame (call : PortCall) (bytes : List Byte) : Except FrameError Frame :=
  match call with
  | .write =>
    match bytes with
    | [sel, hi, lo] =>
      match decodeSelector sel with
      | .ok reg => .ok (.write reg (joinBytes hi lo))
      | .error e => .error e
    | _ => .error .wrongLength
  | .writeThenRead n =>
    match bytes with
    | [sel] =>
      match decodeSelector sel with
      | .ok reg => if n = 2 then .ok (.read reg) else .error (.wrongReadLength n)
      | .error e => .error e
    | _ => .error .wrongLength

/-- The bytes of a frame: `[sel, v[15:8], v[7:0]]` or `[sel]` (30_encoding.md R49, R50). -/
def Frame.bytes : Frame → List Byte
  | .write reg value => [reg.selector, hiByte value, loByte value]
  | .read reg => [reg.selector]

/-- The call of the port that carries a frame (30_encoding.md R49, R50). -/
def Frame.call : Frame → PortCall
  | .write _ _ => .write
  | .read _ => .writeThenRead 2

end Sys2Proof
end

