-- ==== Sys2Proof/Config.lean ====
section
/-! DEFINITION. The parameters of a device handle (00_scope.md R7), the environment's moves, and the free
values: constants with no body, so that nothing in Lean can see what they are. -/

namespace Sys2Proof

/-- `MUX_CODE`: a 3-bit code for each MuxSelector (30_encoding.md R55). -/
structure MuxTable where
  diff01 : BitVec 3
  diff03 : BitVec 3
  diff13 : BitVec 3
  diff23 : BitVec 3
  se0 : BitVec 3
  se1 : BitVec 3
  se2 : BitVec 3
  se3 : BitVec 3
  deriving DecidableEq, Repr

/-- `PGA_CODE`: a 3-bit code for each GainRange (30_encoding.md R56). -/
structure PgaTable where
  pga6144 : BitVec 3
  pga4096 : BitVec 3
  pga2048 : BitVec 3
  pga1024 : BitVec 3
  pga0512 : BitVec 3
  pga0256 : BitVec 3
  deriving DecidableEq, Repr

/-- `MODE_CODE`: a 1-bit code for each Mode (30_encoding.md R57). -/
structure ModeTable where
  continuous : BitVec 1
  singleShot : BitVec 1
  deriving DecidableEq, Repr

/-- `DR_CODE`: a 3-bit code for each DataRate (30_encoding.md R58). -/
structure DrTable where
  dr8 : BitVec 3
  dr16 : BitVec 3
  dr32 : BitVec 3
  dr64 : BitVec 3
  dr128 : BitVec 3
  dr250 : BitVec 3
  dr475 : BitVec 3
  dr860 : BitVec 3
  deriving DecidableEq, Repr

/-- `WAIT_POLICY` (00_scope.md R7). -/
inductive WaitPolicy where
  | fixedDelay | pollStatus
  deriving DecidableEq, Repr

/-- `SCALE_NUMERICS` (00_scope.md R7). -/
inductive Numerics where
  | f32 | f64ThenF32
  deriving DecidableEq, Repr

/-- The parameters of 00_scope.md R7, fixed for the lifetime of one handle.
They stand in State as plain data, so that a statement about every state is one about every admitted value (log 11). -/
structure Params where
  /-- `ADDR_SEL`, the address-select strap. -/
  addrSel : BitVec 2
  /-- `CACHE_ENABLED`. -/
  cacheEnabled : Bool
  /-- `SEQ_MODE`, the mode READ_CHANNEL writes (42_conversion_sequencer.md R109). -/
  seqMode : Mode
  /-- `WAIT_POLICY`. -/
  waitPolicy : WaitPolicy
  /-- `WAIT_MARGIN_US`, microseconds. -/
  waitMarginUs : Nat
  /-- `COMP_BITS` (30_encoding.md R59). -/
  compBits : BitVec 5
  /-- `MUX_CODE`. -/
  muxCode : MuxTable
  /-- `PGA_CODE`. -/
  pgaCode : PgaTable
  /-- `MODE_CODE`. -/
  modeCode : ModeTable
  /-- `DR_CODE`. -/
  drCode : DrTable
  /-- `SCALE_NUMERICS`. -/
  scaleNumerics : Numerics
  deriving DecidableEq, Repr

/-- Which numbers name a value of the OPEN type `E` (00_scope.md R7; 92_eei_decisions.md D10), besides the number 0:
a free value, so that nothing is known of `E` but that it has a value (log 8). -/
opaque Config.errorPayload : Nat → Bool

/-- The Transport Port's error payload, the OPEN type `E` of 00_scope.md R7 (92_eei_decisions.md D10): a name of one of
its values. Which names there are, and so how many values, is free (log 8). -/
structure PortError where
  name    : Nat
  isValue : name = 0 ∨ Config.errorPayload name = true
  deriving DecidableEq, Repr

/-- The answer to a `BusWrite`: `Ok ()` or `Err e` (20_memory.md R30). -/
inductive WriteAnswer where
  | ok
  | err (e : PortError)
  deriving DecidableEq, Repr, Inhabited

/-- The answer to a `BusWriteRead`: `Ok bs` for any byte list, or `Err e` (20_memory.md R30). -/
inductive ReadAnswer where
  | ok (bs : List Byte)
  | err (e : PortError)
  deriving DecidableEq, Repr, Inhabited

/-- The environment's move before one step of the block (log 4): microseconds by which the time input advances,
never backwards (60_exceptions.md R135); whether the requester takes a waiting response; and the requests it
presents (42_conversion_sequencer.md R96). -/
structure Turn where
  elapsed : Nat
  take    : Bool
  present : List Request
  deriving DecidableEq, Repr, Inhabited

/-- `ADDR_SEL` of the handle after reset: OPEN (00_scope.md R7), a free value (log 11). -/
opaque Config.addrSel : BitVec 2

/-- `WAIT_MARGIN_US` of the handle after reset: OPEN (00_scope.md R7), a free value (log 11). -/
opaque Config.waitMarginUs : Nat

/-- The Transport Port the handle after reset is bound to (10_state.md R27), a free value (log 9). -/
opaque Config.transportPort : PortBinding

/-- The environment's move where State lists none, a free value for each draw (log 4). -/
opaque Config.turn : Nat → Turn

/-- For each reading of the time input, the draw by which a free move has led time past it: a free value. With it every
free run is one in which time reaches every bound, and every such run is free (60_exceptions.md R135; log 20). -/
opaque Config.timeLeaves : Nat → Nat

/-- The answer to a `BusWrite` where State lists none, a free value for each draw, address and frame
(20_memory.md R30; log 5). -/
opaque Config.writeAnswer : Nat → BusAddr → List Byte → WriteAnswer

/-- The answer to a `BusWriteRead` where State lists none, a free value for each draw, address, frame and read
length (20_memory.md R30; log 5). -/
opaque Config.readAnswer : Nat → BusAddr → List Byte → Nat → ReadAnswer

end Sys2Proof
end

