-- ==== Sys2Proof/Machine/Params.lean ====
section
/-! DEFINITION. What the parameters mean: the default tables, the code of a variant and the variant of a code
(30_encoding.md R55 to R59), and the tables that belong to a variant (43_scaling_engine.md R115,
42_conversion_sequencer.md R101). -/

namespace Sys2Proof

/-- The default `MUX_CODE` (30_encoding.md R55). PRESUMED by the spec itself, unsafe (log 12). -/
def MuxTable.default : MuxTable :=
  { diff01 := 0b000, diff03 := 0b001, diff13 := 0b010, diff23 := 0b011,
    se0 := 0b100, se1 := 0b101, se2 := 0b110, se3 := 0b111 }

/-- The default `PGA_CODE` (30_encoding.md R56). PRESUMED by the spec itself, unsafe (log 12). -/
def PgaTable.default : PgaTable :=
  { pga6144 := 0b000, pga4096 := 0b001, pga2048 := 0b010, pga1024 := 0b011, pga0512 := 0b100, pga0256 := 0b101 }

/-- The default `MODE_CODE` (30_encoding.md R57). PRESUMED by the spec itself, unsafe (log 12). -/
def ModeTable.default : ModeTable := { continuous := 0, singleShot := 1 }

/-- The default `DR_CODE` (30_encoding.md R58). PRESUMED by the spec itself, unsafe (log 12). -/
def DrTable.default : DrTable :=
  { dr8 := 0b000, dr16 := 0b001, dr32 := 0b010, dr64 := 0b011,
    dr128 := 0b100, dr250 := 0b101, dr475 := 0b110, dr860 := 0b111 }

/-- The parameters with the defaults of 00_scope.md R7 and the two OPEN numbers given. -/
def Params.defaults (addrSel : BitVec 2) (waitMarginUs : Nat) : Params :=
  { addrSel := addrSel, cacheEnabled := false, seqMode := .singleShot, waitPolicy := .fixedDelay,
    waitMarginUs := waitMarginUs, compBits := 0b00011, muxCode := MuxTable.default, pgaCode := PgaTable.default,
    modeCode := ModeTable.default, drCode := DrTable.default, scaleNumerics := .f32 }

/-- `DEV_ADDR = 0x48 + ADDR_SEL` (00_scope.md R7, 20_memory.md R39). -/
def Params.devAddr (p : Params) : BusAddr := 0x48#7 + p.addrSel.setWidth 7

/-- `MUX_CODE(m)`. -/
def MuxTable.code (t : MuxTable) : MuxSelector → BitVec 3
  | .diff01 => t.diff01
  | .diff03 => t.diff03
  | .diff13 => t.diff13
  | .diff23 => t.diff23
  | .se0 => t.se0
  | .se1 => t.se1
  | .se2 => t.se2
  | .se3 => t.se3

/-- `PGA_CODE(g)`. -/
def PgaTable.code (t : PgaTable) : GainRange → BitVec 3
  | .pga6144 => t.pga6144
  | .pga4096 => t.pga4096
  | .pga2048 => t.pga2048
  | .pga1024 => t.pga1024
  | .pga0512 => t.pga0512
  | .pga0256 => t.pga0256

/-- `MODE_CODE(m)`. -/
def ModeTable.code (t : ModeTable) : Mode → BitVec 1
  | .continuous => t.continuous
  | .singleShot => t.singleShot

/-- `DR_CODE(r)`. -/
def DrTable.code (t : DrTable) : DataRate → BitVec 3
  | .dr8 => t.dr8
  | .dr16 => t.dr16
  | .dr32 => t.dr32
  | .dr64 => t.dr64
  | .dr128 => t.dr128
  | .dr250 => t.dr250
  | .dr475 => t.dr475
  | .dr860 => t.dr860

/-- `MUX_CODE⁻¹(c)` (41_config_builder.md R92). All 8 codes are used by an injective table, so the last variant
is the one whose code is left. DEDUCED, safe for injective tables (log 13). -/
def MuxTable.variant (t : MuxTable) (c : BitVec 3) : MuxSelector :=
  if c = t.diff01 then .diff01
  else if c = t.diff03 then .diff03
  else if c = t.diff13 then .diff13
  else if c = t.diff23 then .diff23
  else if c = t.se0 then .se0
  else if c = t.se1 then .se1
  else if c = t.se2 then .se2
  else .se3

/-- `PGA_CODE⁻¹(c)`, or `none` where no variant has the code (41_config_builder.md R92): under the default table
the codes 0b110 and 0b111. DEDUCED for other tables (log 13). -/
def PgaTable.variant (t : PgaTable) (c : BitVec 3) : Option GainRange :=
  if c = t.pga6144 then some .pga6144
  else if c = t.pga4096 then some .pga4096
  else if c = t.pga2048 then some .pga2048
  else if c = t.pga1024 then some .pga1024
  else if c = t.pga0512 then some .pga0512
  else if c = t.pga0256 then some .pga0256
  else none

/-- `MODE_CODE⁻¹(c)` (41_config_builder.md R92; log 13). -/
def ModeTable.variant (t : ModeTable) (c : BitVec 1) : Mode :=
  if c = t.continuous then .continuous else .singleShot

/-- `DR_CODE⁻¹(c)` (41_config_builder.md R92; log 13). -/
def DrTable.variant (t : DrTable) (c : BitVec 3) : DataRate :=
  if c = t.dr8 then .dr8
  else if c = t.dr16 then .dr16
  else if c = t.dr32 then .dr32
  else if c = t.dr64 then .dr64
  else if c = t.dr128 then .dr128
  else if c = t.dr250 then .dr250
  else if c = t.dr475 then .dr475
  else .dr860

/-- The tables give each variant a code of its own: the admitted tables (41_config_builder.md R93). -/
def Params.Injective (p : Params) : Prop :=
  Function.Injective p.muxCode.code ∧ Function.Injective p.pgaCode.code ∧
    Function.Injective p.modeCode.code ∧ Function.Injective p.drCode.code

/-- The field code tables are the default ones (30_encoding.md R55 to R58). -/
abbrev Params.DefaultCodes (p : Params) : Prop :=
  p.muxCode = MuxTable.default ∧ p.pgaCode = PgaTable.default ∧
    p.modeCode = ModeTable.default ∧ p.drCode = DrTable.default

/-- `FS_MV(g)`, the full-scale voltage in millivolts (30_encoding.md R56). `FS(g)` is this over 1000. -/
def GainRange.fsMv : GainRange → Nat
  | .pga6144 => 6144
  | .pga4096 => 4096
  | .pga2048 => 2048
  | .pga1024 => 1024
  | .pga0512 => 512
  | .pga0256 => 256

/-- `SPS(r)`, samples per second (30_encoding.md R58). -/
def DataRate.sps : DataRate → Nat
  | .dr8 => 8
  | .dr16 => 16
  | .dr32 => 32
  | .dr64 => 64
  | .dr128 => 128
  | .dr250 => 250
  | .dr475 => 475
  | .dr860 => 860

/-- `MIN_CONV_US(r) = ceil(1_000_000 / SPS(r))`, the named table of minimum waits (42_conversion_sequencer.md R101). -/
def DataRate.minConvUs (rate : DataRate) : Nat := (1000000 + rate.sps - 1) / rate.sps

/-- `WAIT_US(r) = MIN_CONV_US(r) + WAIT_MARGIN_US` (42_conversion_sequencer.md R101). -/
def Params.waitUs (p : Params) (rate : DataRate) : Nat := rate.minConvUs + p.waitMarginUs

end Sys2Proof
end

