-- ==== Sys2Proof/Machine/Operands.lean ====
section
/-! DEFINITION. The operand forms: fields of a Config word (41_config_builder.md R87), two's complement
(40_register_codec.md R72), the channel map (41_config_builder.md R95), and the codes of the named values
(10_state.md R17, 60_exceptions.md R126). -/

namespace Sys2Proof.Machine

/-- The field extractors of a Config word (41_config_builder.md R87, 30_encoding.md R51). -/
def fOS (w : Word) : BitVec 1 := w.extractLsb' 15 1
def fMUX (w : Word) : BitVec 3 := w.extractLsb' 12 3
def fPGA (w : Word) : BitVec 3 := w.extractLsb' 9 3
def fMODE (w : Word) : BitVec 1 := w.extractLsb' 8 1
def fDR (w : Word) : BitVec 3 := w.extractLsb' 5 3
def fCOMP (w : Word) : BitVec 5 := w.extractLsb' 0 5

/-- `to_i16(w)`: `w` if `w < 0x8000`, else `w - 0x10000` (00_scope.md R9, 40_register_codec.md R72, 10_state.md R24). -/
def toI16 (w : Word) : Int := if w < 0x8000 then (w.toNat : Int) else (w.toNat : Int) - 0x10000

/-- `muxOf(channel)`, the identity (41_config_builder.md R95). -/
def muxOf (channel : Channel) : MuxSelector := channel

end Sys2Proof.Machine
end

