-- ==== Sys2Proof/Machine/State.lean ====
section
/-! DEFINITION. The state of one block instance (10_state.md R16 to R20), what a claim observes (20_memory.md R32),
the environment's inputs, the reasons a step can stop, and the state after reset (10_state.md R27). -/

namespace Sys2Proof.Machine

/-- The sequencer state register (10_state.md R17). -/
inductive Seq where
  | idle | configWritten | converting | resultAvailable
  deriving DecidableEq, Repr

/-- The sequencer latches (10_state.md R18). `none` is the spec's own "unwritten" (00_scope.md R12). -/
@[ext]
structure Latches where
  /-- `lat_mux` -/
  mux   : Option MuxSelector
  /-- `lat_gain` -/
  gain  : Option GainRange
  /-- `lat_rate` -/
  rate  : Option DataRate
  /-- `lat_word` -/
  word  : Option Word
  /-- `lat_t0`, microseconds -/
  t0    : Option Nat
  /-- `lat_ready` -/
  ready : Option Bool
  /-- `lat_raw`, an `i16` -/
  raw   : Option Int
  deriving DecidableEq, Repr

/-- Every latch unwritten (10_state.md R27). -/
def Latches.unwritten : Latches :=
  { mux := none, gain := none, rate := none, word := none, t0 := none, ready := none, raw := none }

/-- A latch by its name (10_state.md R18). -/
inductive LatchName where
  | latMux | latGain | latRate | latWord | latT0 | latReady | latRaw
  deriving DecidableEq, Repr

/-- The payload of a transport error, `E` plus `ShortTransfer` (60_exceptions.md R125). -/
inductive TErr where
  | port (e : PortError)
  | shortTransfer
  deriving DecidableEq, Repr

/-- The refusal reason (60_exceptions.md R125). -/
inductive Refused where
  | reservedOp (op : BitVec 4)
  deriving DecidableEq, Repr

/-- The result of DECODE_CONFIG (41_config_builder.md R92). -/
structure ConfigFields where
  os   : Bool
  mux  : MuxSelector
  gain : Option GainRange
  mode : Mode
  rate : DataRate
  comp : BitVec 5
  deriving DecidableEq, Repr

/-- The result data of an operation that completed (30_encoding.md R64). -/
inductive Data where
  /-- WREG -/
  | none
  /-- RREG, DEC16, BUILD_CONFIG -/
  | u16 (w : Word)
  /-- ENC16 -/
  | bytes (hi lo : Byte)
  /-- SEXT16 -/
  | i16 (raw : Int)
  /-- DECODE_CONFIG -/
  | fields (f : ConfigFields)
  /-- READ_CHANNEL, SCALE: a binary32 value, given by its bits -/
  | f32 (v : F32)
  /-- SCALE_FIXED: units of 2^-15 mV -/
  | fixed (p : Int)
  deriving DecidableEq, Repr

/-- A response, `(status, data)` with the data the status calls for (30_encoding.md R65, 60_exceptions.md R126). -/
inductive Response where
  | ok (d : Data)
  | errTransport (e : TErr)
  | refused (r : Refused)
  deriving DecidableEq, Repr

/-- A response status (60_exceptions.md R126). -/
inductive Status where
  | ok | errTransport | refused
  deriving DecidableEq, Repr

/-- An entry of the exchange trace, `(kind, addr, wbytes, n, answer)` (20_memory.md R32): kind `W` with n = 0, or
kind `WR`. -/
inductive TraceEntry where
  | w (addr : BusAddr) (wbytes : List Byte) (answer : WriteAnswer)
  | wr (addr : BusAddr) (wbytes : List Byte) (n : Nat) (answer : ReadAnswer)
  deriving DecidableEq, Repr

/-- The machine: the handle and its parameters, the block's state, the observation, the environment's inputs. -/
@[ext]
structure State where
  /-- The parameters of the handle (00_scope.md R7), never written (log 11). -/
  params : Params
  /-- `addr` (10_state.md R16), never written. -/
  addr : BusAddr
  /-- `port` (10_state.md R16), never written. -/
  port : PortBinding
  /-- `seq` (10_state.md R17). -/
  seq : Seq
  /-- The latches (10_state.md R18). -/
  lat : Latches
  /-- `cache_valid` (10_state.md R19). Without a cache (`CACHE_ENABLED = false`) no rule reads or writes it. -/
  cacheValid : Bool
  /-- `cache_word` (10_state.md R19), meaningful only while `cacheValid`. -/
  cacheWord : Word
  /-- `resp`, the response that waits to be taken (10_state.md R20). -/
  resp : Option Response
  /-- The exchange trace, in issue order (20_memory.md R32). -/
  trace : List TraceEntry
  /-- The responses placed, in order (20_memory.md R32; log 15). -/
  responses : List Response
  /-- The reading of the time input, microseconds (60_exceptions.md R135; log 7). -/
  now : Nat
  /-- The requests presented and held, first come first (42_conversion_sequencer.md R96; log 4). -/
  requests : List Request
  /-- The environment's moves before the coming steps; where none is listed a free value (log 4). -/
  turns : List Turn
  /-- The Transport Port's coming answers to `BusWrite`; where none is listed a free value (log 5). -/
  writeAnswers : List WriteAnswer
  /-- The Transport Port's coming answers to `BusWriteRead`; where none is listed a free value (log 5). -/
  readAnswers : List ReadAnswer
  /-- The model's own counter of environment draws, the index of the free values (log 6). -/
  drawn : Nat
  deriving DecidableEq, Repr

/-- Why the machine stops with a fault. -/
inductive Fault where
  /-- A sequencer step reads a latch that holds no value, the model fault of 00_scope.md R12.
  Raised by `readLatch` for the steps of `Machine/Sequencer.lean`. Safe: the machine stops, and no run from reset
  reaches it (60_exceptions.md R141 "toward unprovable"). -/
  | unwrittenRead (latch : LatchName)
  deriving DecidableEq, Repr

/-- Why an instruction has no meaning. -/
inductive Refusal where
  /-- An arm of `exec` that has no meaning yet. No arm answers with it. Safe: the machine stops. -/
  | notModelled (mnemonic : String)
  deriving DecidableEq, Repr

/-- The construction of a handle (70_reset_and_hazards.md R142 to R144; 10_state.md R27): no exchange is issued.
`cacheWord` is unspecified there: DESIGN CHOICE 0, unsafe (log 10). `now` and `drawn` are the model's own (log 6, log 7). -/
def State.construct (p : Params) (port : PortBinding) : State :=
  { params := p, addr := p.devAddr, port := port, seq := .idle, lat := Latches.unwritten,
    cacheValid := false, cacheWord := 0, resp := none, trace := [], responses := [],
    now := 0, requests := [], turns := [], writeAnswers := [], readAnswers := [], drawn := 0 }

/-- The machine right after reset: a handle with the default parameters of 00_scope.md R7; the OPEN ones are free
values (log 11). -/
def State.reset : State :=
  State.construct (Params.defaults Config.addrSel Config.waitMarginUs) Config.transportPort

end Sys2Proof.Machine
end

