-- ==== Sys2Proof/Machine/Flags.lean ====
section
/-! DEFINITION. The block has no condition codes (10_state.md R21). This file holds what plays their part: the two
status elements `lat_ready` and `cache_valid`, the codes of a state and of a status, and the device's OS bit. -/

namespace Sys2Proof.Machine

/-- The 2-bit code of a sequencer state (10_state.md R17). -/
def Seq.code : Seq → BitVec 2
  | .idle => 0b00
  | .configWritten => 0b01
  | .converting => 0b10
  | .resultAvailable => 0b11

/-- The status of a response (60_exceptions.md R126). -/
def Response.status : Response → Status
  | .ok _ => .ok
  | .errTransport _ => .errTransport
  | .refused _ => .refused

/-- The 2-bit code of a status (60_exceptions.md R126). -/
def Status.code : Status → BitVec 2
  | .ok => 0b00
  | .errTransport => 0b01
  | .refused => 0b10

/-- The OS bit of a Config word read: 1 is not busy (10_state.md R23, 42_conversion_sequencer.md R103).
PRESUMED by the spec itself, unsafe (log 12). -/
def osNotBusy (w : Word) : Bool := fOS w = 1

/-- `cacheSkip(w)` (42_conversion_sequencer.md R110). -/
def cacheSkip (w : Word) (s : State) : Bool :=
  s.params.cacheEnabled && s.params.seqMode == .continuous && s.cacheValid &&
    (s.cacheWord &&& 0x7FFF) == (w &&& 0x7FFF)

/-- `cacheUpdate(w)`, after a successful Config write by READ_CHANNEL (42_conversion_sequencer.md R112). -/
def cacheUpdate (w : Word) (s : State) : State :=
  if s.params.cacheEnabled then { s with cacheValid := true, cacheWord := w } else s

/-- `cacheInvalidate()` (42_conversion_sequencer.md R112), also what WREG.CFG does to the cache (R113). -/
def cacheInvalidate (s : State) : State :=
  if s.params.cacheEnabled then { s with cacheValid := false } else s

end Sys2Proof.Machine
end

