-- ==== Sys2Proof/Machine/Ops.lean ====
section
/-! DEFINITION. The named operations every meaning is made of (00_scope.md R11): the two calls of the Transport
Port, the response port, the latches, and the one error entry (60_exceptions.md R130). -/

namespace Sys2Proof.Machine

/-- The outcome of one step of this machine. -/
abbrev Result := Host.Outcome State Fault Refusal

/-- The answer the environment gives to `BusWrite(addr, bytes)` in this state: the listed one, else a free value
(20_memory.md R30; log 5). -/
def State.writeAnswer (s : State) (bytes : List Byte) : WriteAnswer :=
  match s.writeAnswers with
  | a :: _ => a
  | [] => Config.writeAnswer s.drawn s.addr bytes

/-- The answer the environment gives to `BusWriteRead(addr, wbytes, n)` in this state (20_memory.md R30; log 5). -/
def State.readAnswer (s : State) (wbytes : List Byte) (n : Nat) : ReadAnswer :=
  match s.readAnswers with
  | a :: _ => a
  | [] => Config.readAnswer s.drawn s.addr wbytes n

/-- The state after the exchange `BusWrite(addr, bytes)`: one entry more in the trace (20_memory.md R29, R32). -/
def State.busWrite (s : State) (bytes : List Byte) : State :=
  { s with trace := s.trace ++ [.w s.addr bytes (s.writeAnswer bytes)],
           writeAnswers := s.writeAnswers.tail, drawn := s.drawn + 1 }

/-- The state after the exchange `BusWriteRead(addr, wbytes, n)` (20_memory.md R29, R32). -/
def State.busWriteRead (s : State) (wbytes : List Byte) (n : Nat) : State :=
  { s with trace := s.trace ++ [.wr s.addr wbytes n (s.readAnswer wbytes n)],
           readAnswers := s.readAnswers.tail, drawn := s.drawn + 1 }

/-- `respond(r)`: the response is placed in `resp` (00_scope.md R11, 10_state.md R20). -/
def respond (r : Response) (s : State) : State :=
  { s with resp := some r, responses := s.responses ++ [r] }

/-- `clearLatches()` makes every latch unwritten (42_conversion_sequencer.md R99). -/
def clearLatches (s : State) : State := { s with lat := Latches.unwritten }

/-- What an error does, the part of trap entry (60_exceptions.md R130): the latches unwritten, `seq` IDLE, the error
response placed. The caller issues no further exchange, and the cache is the caller's (R130 item 4).
There is no return from it (60_exceptions.md R131): the requester takes the response. -/
def raise (r : Response) (s : State) : State :=
  respond r { clearLatches s with seq := .idle }

/-- `raise TransportError(e)` (00_scope.md R11, 60_exceptions.md R125). -/
def raiseTransport (e : TErr) (s : State) : State := raise (.errTransport e) s

/-- What the codec makes of the answer to a 2-byte read: the word, most significant byte first; another length is
`ShortTransfer`, never padded or cut (40_register_codec.md R79, 20_memory.md R31). -/
def readResult : ReadAnswer → Except TErr Word
  | .ok [hi, lo] => .ok (joinBytes hi lo)
  | .ok _ => .error .shortTransfer
  | .err e => .error (.port e)

/-- The register read of the codec: the word the exchange of `readRegister` gives, or its failure
(40_register_codec.md R79). -/
def State.readWord (s : State) (reg : RegisterId) : Except TErr Word :=
  readResult (s.readAnswer (Frame.read reg).bytes 2)

/-- The state after the one exchange of a register read, format `W1R2` (30_encoding.md R50). -/
def readRegister (reg : RegisterId) (s : State) : State :=
  s.busWriteRead (Frame.read reg).bytes 2

/-- The answer to the one exchange of a register write. -/
def State.writeRegisterAnswer (s : State) (reg : RegisterId) (value : Word) : WriteAnswer :=
  s.writeAnswer (Frame.write reg value).bytes

/-- The state after the one exchange of a register write, format `W3` (30_encoding.md R49). -/
def writeRegister (reg : RegisterId) (value : Word) (s : State) : State :=
  s.busWrite (Frame.write reg value).bytes

/-- A read of a latch: the model fault where it holds no value (00_scope.md R12). -/
def readLatch {α : Type} (name : LatchName) (latch : Option α) (use : α → Result) : Result :=
  match latch with
  | some v => use v
  | none => .fault (.unwrittenRead name)

end Sys2Proof.Machine
end

