-- ==== Sys2Proof/Machine/ConfigBuilder.lean ====
section
/-! DEFINITION. The Configuration Builder: BUILD_CONFIG and DECODE_CONFIG (41_config_builder.md). -/

namespace Sys2Proof.Machine

/-- The Config word of five operands: the field codes, each at its place, or-ed (41_config_builder.md R88). -/
def configWord (p : Params) (mux : MuxSelector) (gain : GainRange) (rate : DataRate) (mode : Mode) (start : Bool) : Word :=
  ((if start then 1 else 0 : BitVec 1).setWidth 16 <<< 15)
    ||| ((p.muxCode.code mux).setWidth 16 <<< 12)
    ||| ((p.pgaCode.code gain).setWidth 16 <<< 9)
    ||| ((p.modeCode.code mode).setWidth 16 <<< 8)
    ||| ((p.drCode.code rate).setWidth 16 <<< 5)
    ||| p.compBits.setWidth 16

/-- The fields of any Config word (41_config_builder.md R92). -/
def configFields (p : Params) (word : Word) : ConfigFields :=
  { os := fOS word = 1, mux := p.muxCode.variant (fMUX word), gain := p.pgaCode.variant (fPGA word),
    mode := p.modeCode.variant (fMODE word), rate := p.drCode.variant (fDR word), comp := fCOMP word }

/-- `BUILD_CONFIG` (41_config_builder.md R88). -/
def execBuildConfig (mux : MuxSelector) (gain : GainRange) (rate : DataRate) (mode : Mode) (start : Bool) (s : State) :
    Result :=
  .next (respond (.ok (.u16 (configWord s.params mux gain rate mode start))) s)

/-- `DECODE_CONFIG` (41_config_builder.md R92). -/
def execDecodeConfig (word : Word) (s : State) : Result :=
  .next (respond (.ok (.fields (configFields s.params word))) s)

end Sys2Proof.Machine
end

