-- ==== Sys2Proof/Machine/RegisterCodec.lean ====
section
/-! DEFINITION. The Register Codec: ENC16, DEC16, SEXT16, WREG and RREG (40_register_codec.md). -/

namespace Sys2Proof.Machine

/-- `ENC16` (40_register_codec.md R70). -/
def execEnc16 (value : Word) (s : State) : Result :=
  .next (respond (.ok (.bytes (hiByte value) (loByte value))) s)

/-- `DEC16` (40_register_codec.md R71). -/
def execDec16 (hi lo : Byte) (s : State) : Result :=
  .next (respond (.ok (.u16 (joinBytes hi lo))) s)

/-- `SEXT16` (40_register_codec.md R72). -/
def execSext16 (w : Word) (s : State) : Result :=
  .next (respond (.ok (.i16 (toI16 w))) s)

/-- `WREG.<reg>`: one exchange, then the response its answer calls for (40_register_codec.md R74, R84). -/
def wreg (reg : RegisterId) (value : Word) (s : State) : State :=
  match s.writeRegisterAnswer reg value with
  | .ok => respond (.ok .none) (writeRegister reg value s)
  | .err e => raiseTransport (.port e) (writeRegister reg value s)

/-- `WREG.CONV` (40_register_codec.md R75). -/
def execWregConv (value : Word) (s : State) : Result := .next (wreg .conversion value s)

/-- `WREG.CFG` (40_register_codec.md R76), which invalidates the cache whatever the answer
(42_conversion_sequencer.md R113). -/
def execWregCfg (value : Word) (s : State) : Result := .next (wreg .config value (cacheInvalidate s))

/-- `WREG.LO` (40_register_codec.md R77). -/
def execWregLo (value : Word) (s : State) : Result := .next (wreg .lowThreshold value s)

/-- `WREG.HI` (40_register_codec.md R78). -/
def execWregHi (value : Word) (s : State) : Result := .next (wreg .highThreshold value s)

/-- `RREG.<reg>`: one exchange, then the word it gives or its failure (40_register_codec.md R79, R84, R86). -/
def rreg (reg : RegisterId) (s : State) : State :=
  match s.readWord reg with
  | .ok w => respond (.ok (.u16 w)) (readRegister reg s)
  | .error e => raiseTransport e (readRegister reg s)

/-- `RREG.CONV` (40_register_codec.md R80). -/
def execRregConv (s : State) : Result := .next (rreg .conversion s)

/-- `RREG.CFG` (40_register_codec.md R81). -/
def execRregCfg (s : State) : Result := .next (rreg .config s)

/-- `RREG.LO` (40_register_codec.md R82). -/
def execRregLo (s : State) : Result := .next (rreg .lowThreshold s)

/-- `RREG.HI` (40_register_codec.md R83). -/
def execRregHi (s : State) : Result := .next (rreg .highThreshold s)

end Sys2Proof.Machine
end

