-- ==== Sys2Proof/Machine/Reserved.lean ====
section
/-! DEFINITION. The reserved op codes: a request with one of them is refused, with no exchange
(30_encoding.md R66, 60_exceptions.md R125, R130). The refusal is a response, a normal completion (R141). -/

namespace Sys2Proof.Machine

/-- `respond((REFUSED, ReservedOp(op)))` by the error entry of 60_exceptions.md R130 (log 18). -/
def refuseOp (op : BitVec 4) (s : State) : State := raise (.refused (.reservedOp op)) s

/-- `RESERVED_OP_0` (30_encoding.md R66). -/
def execReservedOp0 (s : State) : Result := .next (refuseOp 0x0 s)

/-- `RESERVED_OP_B` (30_encoding.md R66). -/
def execReservedOpB (s : State) : Result := .next (refuseOp 0xB s)

/-- `RESERVED_OP_C` (30_encoding.md R66). -/
def execReservedOpC (s : State) : Result := .next (refuseOp 0xC s)

/-- `RESERVED_OP_D` (30_encoding.md R66). -/
def execReservedOpD (s : State) : Result := .next (refuseOp 0xD s)

/-- `RESERVED_OP_E` (30_encoding.md R66). -/
def execReservedOpE (s : State) : Result := .next (refuseOp 0xE s)

/-- `RESERVED_OP_F` (30_encoding.md R66). -/
def execReservedOpF (s : State) : Result := .next (refuseOp 0xF s)

end Sys2Proof.Machine
end

