-- ==== Sys2Proof/Machine/Binary.lean ====
section
/-! DEFINITION. IEEE-754 binary32 and binary64 with roundTiesToEven, on bit patterns and exact integers
(00_scope.md R10, 43_scaling_engine.md R121). An exact rational is an integer over a positive natural number. -/

namespace Sys2Proof.Machine

/-- A binary interchange format: significand bits `p` (the hidden one counted), the exponent of the smallest normal
number, and the bits of infinity without the sign. -/
structure BinaryFormat where
  p    : Nat
  emin : Int
  inf  : Nat
  deriving DecidableEq, Repr

/-- binary32. -/
def binary32 : BinaryFormat := { p := 24, emin := -126, inf := 0x7F800000 }

/-- binary64. -/
def binary64 : BinaryFormat := { p := 53, emin := -1022, inf := 0x7FF0000000000000 }

/-- The integer nearest `n / d`, ties to the even one. -/
def roundHalfEven (n d : Nat) : Nat :=
  let q := n / d
  let r := n % d
  if 2 * r < d then q else if d < 2 * r then q + 1 else q + q % 2

/-- `n / d` scaled by a power of two, as a numerator and a denominator. -/
def scaleNum (n : Nat) (k : Int) : Nat := if 0 ≤ k then n * 2 ^ k.toNat else n
def scaleDen (d : Nat) (k : Int) : Nat := if 0 ≤ k then d else d * 2 ^ (-k).toNat

/-- The exponent `e` with `2^e ≤ n / d < 2^(e+1)`, for positive `n` and `d`. -/
def floorLog2 (n d : Nat) : Int :=
  let e : Int := (n.log2 : Int) - (d.log2 : Int)
  if scaleDen d (-e) ≤ scaleNum n (-e) then e else e - 1

/-- The bits, without the sign, of the format's value nearest `n / d`, ties to the even significand: with the
exponent of the leading bit (at least `emin`, for subnormals) the significand is `n / d` over one unit in the last
place, rounded. A carry out of the significand moves into the exponent by itself. -/
def roundMagnitude (f : BinaryFormat) (n d : Nat) : Nat :=
  if n = 0 then 0
  else
    let e := max (floorLog2 n d) f.emin
    let k : Int := (f.p : Int) - 1 - e
    let m := roundHalfEven (scaleNum n k) (scaleDen d k)
    min ((e - f.emin).toNat * 2 ^ (f.p - 1) + m) f.inf

/-- `rne32(num / den)` (00_scope.md R10). A zero result is `+0.0` (43_scaling_engine.md R117; log 17). -/
def rne32 (num : Int) (den : Nat) : F32 :=
  BitVec.ofNat 32 ((if num < 0 then 0x80000000 else 0) + roundMagnitude binary32 num.natAbs den)

/-- `rne64(num / den)` (43_scaling_engine.md R121). -/
def rne64 (num : Int) (den : Nat) : F64 :=
  BitVec.ofNat 64 ((if num < 0 then 0x8000000000000000 else 0) + roundMagnitude binary64 num.natAbs den)

/-- The significand, hidden bit included, of the magnitude bits of a finite value. -/
def significand (f : BinaryFormat) (mag : Nat) : Nat :=
  if mag / 2 ^ (f.p - 1) = 0 then mag else 2 ^ (f.p - 1) + mag % 2 ^ (f.p - 1)

/-- The exponent of one unit in the last place of the magnitude bits of a finite value. -/
def ulpExponent (f : BinaryFormat) (mag : Nat) : Int :=
  f.emin - ((f.p : Int) - 1) + (if mag / 2 ^ (f.p - 1) = 0 then 0 else ((mag / 2 ^ (f.p - 1) : Nat) : Int) - 1)

/-- The exact value of finite binary32 bits is `num32 b / den32 b`. An infinity or a NaN never arises here
(43_scaling_engine.md R119; log 17). -/
def num32 (b : F32) : Int :=
  let mag := b.toNat % 0x80000000
  let n := scaleNum (significand binary32 mag) (ulpExponent binary32 mag)
  if 0x80000000 ≤ b.toNat then -(n : Int) else (n : Int)
def den32 (b : F32) : Nat := scaleDen 1 (ulpExponent binary32 (b.toNat % 0x80000000))

/-- The exact value of finite binary64 bits is `num64 b / den64 b`. -/
def num64 (b : F64) : Int :=
  let mag := b.toNat % 0x8000000000000000
  let n := scaleNum (significand binary64 mag) (ulpExponent binary64 mag)
  if 0x8000000000000000 ≤ b.toNat then -(n : Int) else (n : Int)
def den64 (b : F64) : Nat := scaleDen 1 (ulpExponent binary64 (b.toNat % 0x8000000000000000))

/-- The exact value of finite binary32 bits, as a rational number. -/
def val32 (b : F32) : ℚ := (num32 b : ℚ) / (den32 b : ℚ)

/-- The bits are those of a finite binary32 value (no infinity, no NaN). -/
abbrev Finite32 (b : F32) : Prop := b.toNat % 0x80000000 < 0x7F800000

/-- `a ⊗ b`, one binary32 multiply (00_scope.md R10). -/
def mul32 (a b : F32) : F32 := rne32 (num32 a * num32 b) (den32 a * den32 b)

/-- A binary32 value divided by a positive integer. -/
def divNat32 (a : F32) (k : Nat) : F32 := rne32 (num32 a) (den32 a * k)

/-- One binary64 multiply, and a binary64 value divided by a positive integer (43_scaling_engine.md R121). -/
def mul64 (a b : F64) : F64 := rne64 (num64 a * num64 b) (den64 a * den64 b)
def divNat64 (a : F64) (k : Nat) : F64 := rne64 (num64 a) (den64 a * k)

end Sys2Proof.Machine
end

