-- ==== Sys2Proof/Machine/ScalingEngine.lean ====
section
/-! DEFINITION. The Scaling Engine: SCALE and SCALE_FIXED (43_scaling_engine.md). -/

namespace Sys2Proof.Machine

/-- `FS32(g) = rne32(FS(g))` (43_scaling_engine.md R115). -/
def fs32 (gain : GainRange) : F32 := rne32 gain.fsMv 1000

/-- `LSB32(g) = FS32(g) / 32768` (43_scaling_engine.md R116). -/
def lsb32 (gain : GainRange) : F32 := divNat32 (fs32 gain) 32768

/-- SCALE in binary32: `f32(raw) ⊗ LSB32(gain)` (43_scaling_engine.md R117). -/
def scaleF32 (raw : Int) (gain : GainRange) : F32 := mul32 (rne32 raw 1) (lsb32 gain)

/-- SCALE in binary64, rounded to binary32 at the end (43_scaling_engine.md R121). -/
def scaleF64 (raw : Int) (gain : GainRange) : F32 :=
  let v := mul64 (rne64 raw 1) (divNat64 (rne64 gain.fsMv 1000) 32768)
  rne32 (num64 v) (den64 v)

/-- SCALE under `SCALE_NUMERICS` (43_scaling_engine.md R117, R121). -/
def scaleVolts (p : Params) (raw : Int) (gain : GainRange) : F32 :=
  match p.scaleNumerics with
  | .f32 => scaleF32 raw gain
  | .f64ThenF32 => scaleF64 raw gain

/-- The exact product `raw × FS_MV(gain)`, in units of 2^-15 mV (43_scaling_engine.md R122). -/
def scaleUnits (raw : Int) (gain : GainRange) : Int := raw * gain.fsMv

/-- `SCALE` (43_scaling_engine.md R117). -/
def execScale (raw : Int) (gain : GainRange) (s : State) : Result :=
  .next (respond (.ok (.f32 (scaleVolts s.params raw gain))) s)

/-- `SCALE_FIXED` (43_scaling_engine.md R122). -/
def execScaleFixed (raw : Int) (gain : GainRange) (s : State) : Result :=
  .next (respond (.ok (.fixed (scaleUnits raw gain))) s)

end Sys2Proof.Machine
end

