-- ==== Sys2Proof/Machine/Sequencer.lean ====
section
/-! DEFINITION. The Conversion Sequencer: the step that accepts READ_CHANNEL and the steps that follow it
(42_conversion_sequencer.md R97 to R105). -/

namespace Sys2Proof.Machine

/-- The word READ_CHANNEL writes: the mode is `SEQ_MODE` and the start bit is set (42_conversion_sequencer.md R99, R109). -/
def readChannelWord (p : Params) (channel : Channel) (gain : GainRange) (rate : DataRate) : Word :=
  configWord p (muxOf channel) gain rate p.seqMode true

/-- The operand latches of READ_CHANNEL written (42_conversion_sequencer.md R99). -/
def latchOperands (channel : Channel) (gain : GainRange) (rate : DataRate) (s : State) : State :=
  { s with lat := { s.lat with mux := some (muxOf channel), gain := some gain, rate := some rate,
                               word := some (readChannelWord s.params channel gain rate) } }

/-- Steps 1 and 2, IDLE to CONFIG_WRITTEN: the Config write unless the cache skips it (42_conversion_sequencer.md R99). -/
def startConversion (channel : Channel) (gain : GainRange) (rate : DataRate) (s : State) : State :=
  let w := readChannelWord s.params channel gain rate
  let s := latchOperands channel gain rate s
  if cacheSkip w s then { s with seq := .configWritten }
  else
    match s.writeRegisterAnswer .config w with
    | .ok => { cacheUpdate w (writeRegister .config w s) with seq := .configWritten }
    | .err e => raiseTransport (.port e) (cacheInvalidate (writeRegister .config w s))

/-- `READ_CHANNEL`, the step that accepts it (42_conversion_sequencer.md R97, R99). -/
def execReadChannel (channel : Channel) (gain : GainRange) (rate : DataRate) (s : State) : Result :=
  .next (startConversion channel gain rate s)

/-- CONFIG_WRITTEN to CONVERTING: the wait is measured from here (42_conversion_sequencer.md R100). -/
def stepConfigWritten (s : State) : Result :=
  .next { s with lat := { s.lat with t0 := some s.now, ready := some false }, seq := .converting }

/-- The result read (42_conversion_sequencer.md R102, R104). A failure leaves the cache as it was. -/
def resultRead (s : State) : State :=
  match s.readWord .conversion with
  | .ok w =>
    { readRegister .conversion s with
        lat := { (readRegister .conversion s).lat with raw := some (toI16 w) }, seq := .resultAvailable }
  | .error e => raiseTransport e (readRegister .conversion s)

/-- One status poll (42_conversion_sequencer.md R103): not busy sets `lat_ready`, busy changes nothing else. -/
def statusPoll (s : State) : State :=
  match s.readWord .config with
  | .ok w =>
    if osNotBusy w then
      { readRegister .config s with lat := { (readRegister .config s).lat with ready := some true } }
    else readRegister .config s
  | .error e => raiseTransport e (readRegister .config s)

/-- The time guard of R102 and R103: `now() - lat_t0` is at least the wait (log 16). -/
def waited (s : State) (t0 wait : Nat) : Bool := wait ≤ s.now - t0

/-- CONVERTING under FIXED_DELAY: the result read once `WAIT_US` has passed, else a hold
(42_conversion_sequencer.md R98, R102). -/
def stepFixedDelay (s : State) : Result :=
  readLatch .latT0 s.lat.t0 fun t0 =>
  readLatch .latRate s.lat.rate fun rate =>
    if waited s t0 (s.params.waitUs rate) then .next (resultRead s) else .next s

/-- CONVERTING under POLL_STATUS: the result read once a poll saw not busy, else a poll once `MIN_CONV_US` has
passed, else a hold (42_conversion_sequencer.md R98, R103, R104). -/
def stepPollStatus (s : State) : Result :=
  readLatch .latReady s.lat.ready fun ready =>
    if ready then .next (resultRead s)
    else
      readLatch .latT0 s.lat.t0 fun t0 =>
      readLatch .latRate s.lat.rate fun rate =>
        if waited s t0 rate.minConvUs then .next (statusPoll s) else .next s

/-- CONVERTING, by `WAIT_POLICY` (42_conversion_sequencer.md R98). -/
def stepConverting (s : State) : Result :=
  match s.params.waitPolicy with
  | .fixedDelay => stepFixedDelay s
  | .pollStatus => stepPollStatus s

/-- RESULT_AVAILABLE to IDLE: the voltage, scaled with the gain of the same request (42_conversion_sequencer.md R105). -/
def stepResultAvailable (s : State) : Result :=
  readLatch .latRaw s.lat.raw fun raw =>
  readLatch .latGain s.lat.gain fun gain =>
    .next (respond (.ok (.f32 (scaleVolts s.params raw gain))) { clearLatches s with seq := .idle })

end Sys2Proof.Machine
end

