-- ==== Sys2Proof/Machine/Dispatch.lean ====
section
/-! DEFINITION. One arm for each operation: the step that accepts its request (42_conversion_sequencer.md R96). -/

namespace Sys2Proof.Machine

def exec (i : Instr) (s : State) : Host.Outcome State Fault Refusal :=
  match i with
  | .wregConv value => Sys2Proof.Machine.execWregConv value s
  | .wregCfg value => Sys2Proof.Machine.execWregCfg value s
  | .wregLo value => Sys2Proof.Machine.execWregLo value s
  | .wregHi value => Sys2Proof.Machine.execWregHi value s
  | .rregConv => Sys2Proof.Machine.execRregConv s
  | .rregCfg => Sys2Proof.Machine.execRregCfg s
  | .rregLo => Sys2Proof.Machine.execRregLo s
  | .rregHi => Sys2Proof.Machine.execRregHi s
  | .buildConfig _ mux gain rate mode start => Sys2Proof.Machine.execBuildConfig mux gain rate mode start s
  | .decodeConfig _ word => Sys2Proof.Machine.execDecodeConfig word s
  | .readChannel _ channel gain rate => Sys2Proof.Machine.execReadChannel channel gain rate s
  | .scale _ raw gain => Sys2Proof.Machine.execScale raw gain s
  | .scaleFixed _ raw gain => Sys2Proof.Machine.execScaleFixed raw gain s
  | .enc16 _ value => Sys2Proof.Machine.execEnc16 value s
  | .dec16 _ hi lo => Sys2Proof.Machine.execDec16 hi lo s
  | .sext16 _ w => Sys2Proof.Machine.execSext16 w s
  | .reservedOp0 _ => Sys2Proof.Machine.execReservedOp0 s
  | .reservedOpB _ => Sys2Proof.Machine.execReservedOpB s
  | .reservedOpC _ => Sys2Proof.Machine.execReservedOpC s
  | .reservedOpD _ => Sys2Proof.Machine.execReservedOpD s
  | .reservedOpE _ => Sys2Proof.Machine.execReservedOpE s
  | .reservedOpF _ => Sys2Proof.Machine.execReservedOpF s

end Sys2Proof.Machine
end

