-- ==== Sys2Proof/Machine/Block.lean ====
section
/-! DEFINITION. One step of the block itself: a step of the sequencer, or the acceptance of a request
(42_conversion_sequencer.md R96, R98). -/

namespace Sys2Proof.Machine

/-- A request is accepted only when `resp` is empty (and `seq` is IDLE, which `blockStep` has checked); otherwise the
block holds and the requests stay with the requester (42_conversion_sequencer.md R96; log 14). -/
def accept (s : State) : Result :=
  match s.resp, s.requests with
  | none, r :: rs => exec (decode r) { s with requests := rs }
  | none, [] => .next s
  | some _, _ => .next s

/-- One step of the block (42_conversion_sequencer.md R98). -/
def blockStep (s : State) : Result :=
  match s.seq with
  | .idle => accept s
  | .configWritten => stepConfigWritten s
  | .converting => stepConverting s
  | .resultAvailable => stepResultAvailable s

/-- The request a table word stands for: the header, the operands zero (log 2). -/
def tableRequest (w : Nat) : Request := { hdr := BitVec.ofNat 6 w, ops := Operands.zero }

/-- The machine with that request next: an idle block with no response waiting and the request first in line
(log 3). A number over six bits is no header, so no request is presented. -/
def presentTableWord (s : State) (w : Nat) : State :=
  if w < 64 then
    { s with seq := .idle, lat := Latches.unwritten, resp := none, requests := tableRequest w :: s.requests }
  else s

end Sys2Proof.Machine
end

