-- ==== Sys2Proof/Machine/Environment.lean ====
section
/-! DEFINITION. The environment's move before each step of the block: time passes (60_exceptions.md R135), the
requester takes a waiting response (10_state.md R20) and presents requests (42_conversion_sequencer.md R96). -/

namespace Sys2Proof.Machine

/-- A free move, `Config.turn` of the draw, but that time does not stand still for ever: at least one microsecond passes
once the draw `Config.timeLeaves` of the reading has come. This is the fairness of time (60_exceptions.md R135; log 20). -/
def State.freeTurn (s : State) : Turn :=
  { Config.turn s.drawn with
    elapsed := if Config.timeLeaves s.now ≤ s.drawn then max 1 (Config.turn s.drawn).elapsed
      else (Config.turn s.drawn).elapsed }

/-- The environment's move before the coming step: the listed one, else a free one (log 4). -/
def State.nextTurn (s : State) : Turn :=
  match s.turns with
  | t :: _ => t
  | [] => s.freeTurn

/-- A waiting response leaves `resp` when the requester takes it (10_state.md R20). -/
def takeResponse (take : Bool) : Option Response → Option Response
  | none => none
  | some r => if take then none else some r

/-- The environment's move. The block's own state changes in `resp` alone; time never goes back (60_exceptions.md R135). -/
def environment (s : State) : State :=
  { s with resp := takeResponse s.nextTurn.take s.resp,
           now := s.now + s.nextTurn.elapsed,
           requests := s.requests ++ s.nextTurn.present,
           turns := s.turns.tail, drawn := s.drawn + 1 }

end Sys2Proof.Machine
end

