-- ==== Sys2Proof/Machine/Step.lean ====
section
/-! DEFINITION. One step of the machine: the environment's move, then the block's (00_scope.md R6; log 4). -/

namespace Sys2Proof.Machine

/-- One model step is one complete exchange or one internal transition (00_scope.md R6). -/
def step (s : State) : Host.Outcome State Fault Refusal := blockStep (environment s)

/-- The state whose next step runs the request of the table word `w` (log 3). -/
def State.withFetchWord (s : State) (_nbits w : Nat) : State := presentTableWord s w

end Sys2Proof.Machine
end

