-- ==== Sys2Proof/Machine/Requester.lean ====
section
/-! DEFINITION. The requester's side: the pseudo-operations it expands (30_encoding.md R69) and the textual form of
a request (30_encoding.md R68). No step of the block uses this file. -/

namespace Sys2Proof.Machine

/-- The first request of a pseudo-operation (30_encoding.md R69). An ignored `sel` is 0. -/
def pseudoFirst : Pseudo → Instr
  | .wcfg mux gain rate mode start => .buildConfig 0 mux gain rate mode start
  | .rconv => .rregConv
  | .rstatus => .rregCfg

/-- The second request, given the response to the first (30_encoding.md R69): none where the first failed or the
expansion has one request. -/
def pseudoSecond (p : Pseudo) (r : Response) : Option Instr :=
  match p, r with
  | .wcfg _ _ _ _ _, .ok (.u16 w) => some (.wregCfg w)
  | .rconv, .ok (.u16 w) => some (.sext16 0 w)
  | _, _ => none

/-- RSTATUS reads bit 15 of the result as the OS status (30_encoding.md R69). -/
def pseudoStatus (r : Response) : Option (BitVec 1) :=
  match r with
  | .ok (.u16 w) => some (fOS w)
  | _ => none

/-- The variant names of 30_encoding.md R55 to R58. -/
def muxText : MuxSelector → String
  | .diff01 => "DIFF_0_1"
  | .diff03 => "DIFF_0_3"
  | .diff13 => "DIFF_1_3"
  | .diff23 => "DIFF_2_3"
  | .se0 => "SE_0"
  | .se1 => "SE_1"
  | .se2 => "SE_2"
  | .se3 => "SE_3"
def gainText : GainRange → String
  | .pga6144 => "PGA_6_144V"
  | .pga4096 => "PGA_4_096V"
  | .pga2048 => "PGA_2_048V"
  | .pga1024 => "PGA_1_024V"
  | .pga0512 => "PGA_0_512V"
  | .pga0256 => "PGA_0_256V"
def modeText : Mode → String
  | .continuous => "CONTINUOUS"
  | .singleShot => "SINGLE_SHOT"
def rateText : DataRate → String
  | .dr8 => "DR_8"
  | .dr16 => "DR_16"
  | .dr32 => "DR_32"
  | .dr64 => "DR_64"
  | .dr128 => "DR_128"
  | .dr250 => "DR_250"
  | .dr475 => "DR_475"
  | .dr860 => "DR_860"

/-- A number in decimal, one of the two forms of 30_encoding.md R68 (log 24). -/
def wordText {n : Nat} (v : BitVec n) : String := toString v.toNat
/-- A raw value in decimal, a negative one with a leading `-` (30_encoding.md R68). -/
def rawText (raw : Int) : String := toString raw
/-- `<start>` is `1` or `0` (30_encoding.md R68). -/
def startText (start : Bool) : String := if start then "1" else "0"

/-- The textual form of a request (30_encoding.md R68). A reserved op code has none. -/
def asmText : Instr → Option String
  | .wregConv value => some ("WREG CONV, " ++ wordText value)
  | .wregCfg value => some ("WREG CFG, " ++ wordText value)
  | .wregLo value => some ("WREG LO, " ++ wordText value)
  | .wregHi value => some ("WREG HI, " ++ wordText value)
  | .rregConv => some "RREG CONV"
  | .rregCfg => some "RREG CFG"
  | .rregLo => some "RREG LO"
  | .rregHi => some "RREG HI"
  | .buildConfig _ mux gain rate mode start =>
    some ("BUILD_CONFIG " ++ muxText mux ++ ", " ++ gainText gain ++ ", " ++ rateText rate ++ ", " ++
      modeText mode ++ ", " ++ startText start)
  | .decodeConfig _ word => some ("DECODE_CONFIG " ++ wordText word)
  | .readChannel _ channel gain rate =>
    some ("READ_CHANNEL " ++ muxText channel ++ ", " ++ gainText gain ++ ", " ++ rateText rate)
  | .scale _ raw gain => some ("SCALE " ++ rawText raw ++ ", " ++ gainText gain)
  | .scaleFixed _ raw gain => some ("SCALE_FIXED " ++ rawText raw ++ ", " ++ gainText gain)
  | .enc16 _ value => some ("ENC16 " ++ wordText value)
  | .dec16 _ hi lo => some ("DEC16 " ++ wordText hi ++ ", " ++ wordText lo)
  | .sext16 _ w => some ("SEXT16 " ++ wordText w)
  | .reservedOp0 _ => none
  | .reservedOpB _ => none
  | .reservedOpC _ => none
  | .reservedOpD _ => none
  | .reservedOpE _ => none
  | .reservedOpF _ => none

end Sys2Proof.Machine
end

