-- ==== Sys2Proof/Machine/Procedure.lean ====
section
/-! DEFINITION. READ_CHANNEL as the one sequential procedure of 42_conversion_sequencer.md R97, under FIXED_DELAY: what
the requester and the bus see of it. The steps of Machine/Sequencer.lean are the machine; this is the source's contract. -/

namespace Sys2Proof.Machine

/-- What one READ_CHANNEL does: how many steps of the state machine it takes when no step holds
(42_conversion_sequencer.md R98), its exchanges in order, its response, and the cache after it. -/
structure ReadChannelEffect where
  steps      : Nat
  exchanges  : List TraceEntry
  response   : Response
  cacheValid : Bool
  cacheWord  : Word
  deriving DecidableEq, Repr

/-- Steps 4 and 5 of R97: the result read answered by `ra`, and the scaling. -/
def procedureRead (s : State) (gain : GainRange) (ra : ReadAnswer) (before : List TraceEntry) (valid : Bool)
    (word : Word) : ReadChannelEffect :=
  let exchanges := before ++ [.wr s.addr [0x00] 2 ra]
  match ra with
  | .ok [hi, lo] =>
    { steps := 4, exchanges := exchanges, cacheValid := valid, cacheWord := word,
      response := .ok (.f32 (scaleVolts s.params (toI16 (hi ++ lo)) gain)) }
  | .ok _ =>
    { steps := 3, exchanges := exchanges, cacheValid := valid, cacheWord := word,
      response := .errTransport .shortTransfer }
  | .err e =>
    { steps := 3, exchanges := exchanges, cacheValid := valid, cacheWord := word,
      response := .errTransport (.port e) }

/-- The procedure of R97 from a state `s`, with `wa` the answer to the Config write (where one is made) and `ra` the
answer to the result read. -/
def readChannelProcedure (s : State) (channel : Channel) (gain : GainRange) (rate : DataRate) (wa : WriteAnswer)
    (ra : ReadAnswer) : ReadChannelEffect :=
  let w := configWord s.params (muxOf channel) gain rate s.params.seqMode true
  let bytes : List Byte := [0x01, w.extractLsb' 8 8, w.extractLsb' 0 8]
  if cacheSkip w s then procedureRead s gain ra [] s.cacheValid s.cacheWord
  else
    match wa with
    | .err e =>
      { steps := 1, exchanges := [.w s.addr bytes (.err e)], response := .errTransport (.port e),
        cacheValid := if s.params.cacheEnabled then false else s.cacheValid, cacheWord := s.cacheWord }
    | .ok =>
      procedureRead s gain ra [.w s.addr bytes .ok]
        (if s.params.cacheEnabled then true else s.cacheValid)
        (if s.params.cacheEnabled then w else s.cacheWord)

end Sys2Proof.Machine
end

