-- ==== Sys2Proof/Safety.lean ====
section
/-! DEFINITION. The terms the claims are made in: the invariant of the block, what an exchange of the block looks
like, a run that never stops. -/

namespace Sys2Proof.Machine

/-- The block can accept a request: `seq = IDLE` and `resp = none` (42_conversion_sequencer.md R96), and, as between any
two operations, no latch is written (R114). -/
structure Accepting (s : State) : Prop where
  idle : s.seq = .idle
  free : s.resp = none
  clean : s.lat = Latches.unwritten

/-- Which latches hold a value in which sequencer state, and what they hold (10_state.md R18;
42_conversion_sequencer.md R99, R100, R102, R103, R104, R114; 70_reset_and_hazards.md R149). -/
def LatchesFit (s : State) : Prop :=
  match s.seq with
  | .idle => s.lat = Latches.unwritten
  | .configWritten =>
    ∃ channel gain rate,
      s.lat = { mux := some (muxOf channel), gain := some gain, rate := some rate,
                word := some (readChannelWord s.params channel gain rate), t0 := none, ready := none, raw := none }
  | .converting =>
    ∃ channel gain rate t0 ready,
      s.lat = { mux := some (muxOf channel), gain := some gain, rate := some rate,
                word := some (readChannelWord s.params channel gain rate), t0 := some t0, ready := some ready,
                raw := none } ∧
      t0 ≤ s.now ∧ (ready = true → s.params.waitPolicy = .pollStatus ∧ rate.minConvUs ≤ s.now - t0)
  | .resultAvailable =>
    ∃ channel gain rate t0 ready raw,
      s.lat = { mux := some (muxOf channel), gain := some gain, rate := some rate,
                word := some (readChannelWord s.params channel gain rate), t0 := some t0, ready := some ready,
                raw := some raw } ∧
      t0 ≤ s.now ∧ rate.minConvUs ≤ s.now - t0 ∧ InI16 raw

/-- The invariant of the block: it holds after construction and every step keeps it. -/
structure Inv (s : State) : Prop where
  /-- `addr` is `DEV_ADDR` (10_state.md R16, R27). -/
  addr : s.addr = s.params.devAddr
  /-- A response waits only in IDLE (42_conversion_sequencer.md R96). -/
  waiting : s.resp ≠ none → s.seq = .idle
  /-- The latches fit the sequencer state. -/
  latches : LatchesFit s
  /-- Without a cache nothing becomes valid (10_state.md R19, 42_conversion_sequencer.md R112). -/
  cacheAbsent : s.params.cacheEnabled = false → s.cacheValid = false
  /-- A cached word is one READ_CHANNEL built (42_conversion_sequencer.md R112, R113). -/
  cacheBuilt : s.cacheValid = true →
    ∃ channel gain rate, s.cacheWord = readChannelWord s.params channel gain rate

/-- An exchange of this block: to its own address, in format `W3` or `W1R2` (20_memory.md R28, R36;
30_encoding.md R49, R50, R67). -/
def IsBlockExchange (addr : BusAddr) (e : TraceEntry) : Prop :=
  match e with
  | .w a bytes _ => a = addr ∧ ∃ reg value, bytes = (Frame.write reg value).bytes
  | .wr a bytes n _ => a = addr ∧ n = 2 ∧ ∃ reg, bytes = (Frame.read reg).bytes

/-- Every exchange in the trace is one of this block. -/
def TraceOfBlock (s : State) : Prop := ∀ e ∈ s.trace, IsBlockExchange s.addr e

/-- The exchange failed with this payload (60_exceptions.md R125, R127; 20_memory.md R31). -/
def FailedWith (e : TraceEntry) (payload : TErr) : Prop :=
  match e with
  | .w _ _ .ok => False
  | .w _ _ (.err x) => payload = .port x
  | .wr _ _ n (.ok bs) => bs.length ≠ n ∧ payload = .shortTransfer
  | .wr _ _ _ (.err x) => payload = .port x

/-- The state after the exchange `BusWrite(addr, bytes)` answered by `a`. -/
def State.written (s : State) (bytes : List Byte) (a : WriteAnswer) : State :=
  { s with trace := s.trace ++ [.w s.addr bytes a], writeAnswers := s.writeAnswers.tail, drawn := s.drawn + 1 }

/-- The state after the exchange `BusWriteRead(addr, [sel], 2)` answered by `a`. -/
def State.readBack (s : State) (sel : Byte) (a : ReadAnswer) : State :=
  { s with trace := s.trace ++ [.wr s.addr [sel] 2 a], readAnswers := s.readAnswers.tail, drawn := s.drawn + 1 }

/-- The operation ends with an error: latches unwritten, IDLE, the response placed (60_exceptions.md R130). -/
def State.failed (s : State) (r : Response) : State :=
  { s with lat := Latches.unwritten, seq := .idle, resp := some r, responses := s.responses ++ [r] }

/-- The response is placed and nothing else changes. -/
def State.answered (s : State) (r : Response) : State :=
  { s with resp := some r, responses := s.responses ++ [r] }

/-- What the result read does, for each answer of the port (42_conversion_sequencer.md R102, R104): the raw sample is
the two's-complement value of the two bytes, most significant first. -/
def ReadsResult (s : State) (o : Result) : Prop :=
  (∀ hi lo, s.readAnswer [0x00] 2 = .ok [hi, lo] →
    o = .next { s.readBack 0x00 (.ok [hi, lo]) with
      lat := { s.lat with raw := some (hi ++ lo).toInt }, seq := .resultAvailable }) ∧
  (∀ bs, s.readAnswer [0x00] 2 = .ok bs → bs.length ≠ 2 →
    o = .next ((s.readBack 0x00 (.ok bs)).failed (.errTransport .shortTransfer))) ∧
  (∀ e, s.readAnswer [0x00] 2 = .err e →
    o = .next ((s.readBack 0x00 (.err e)).failed (.errTransport (.port e))))

/-- `n` steps of the machine. -/
abbrev runSteps (n : Nat) (s : State) : Result := Host.Core.run Sys2Proof.core n s

/-- A safe run: no step ever stops. -/
def NeverStops (s : State) : Prop := ∀ n, ∃ s', runSteps n s = .next s'

/-- The fairness of time: the run from this state comes to every bound (60_exceptions.md R135). -/
def TimeIsFair (s : State) : Prop := ∀ bound, ∃ n s', runSteps n s = .next s' ∧ bound ≤ s'.now

/-- A READ_CHANNEL accepted from `s` is over in this outcome: these exchanges and this response, the cache as given, the
block idle with its latches unwritten (42_conversion_sequencer.md R114), the handle unchanged. -/
def CompletesWith (s : State) (eff : ReadChannelEffect) (o : Result) : Prop :=
  ∃ s', o = .next s' ∧
    s'.trace = s.trace ++ eff.exchanges ∧ s'.resp = some eff.response ∧
    s'.responses = s.responses ++ [eff.response] ∧
    s'.cacheValid = eff.cacheValid ∧ s'.cacheWord = eff.cacheWord ∧
    s'.seq = .idle ∧ s'.lat = Latches.unwritten ∧
    s'.params = s.params ∧ s'.addr = s.addr ∧ s'.port = s.port

/-- The four register writes and the four register reads as one family each (40_register_codec.md R74, R79). -/
def wregOf : RegisterId → Word → Instr
  | .conversion => .wregConv
  | .config => .wregCfg
  | .lowThreshold => .wregLo
  | .highThreshold => .wregHi
def rregOf : RegisterId → Instr
  | .conversion => .rregConv
  | .config => .rregCfg
  | .lowThreshold => .rregLo
  | .highThreshold => .rregHi

/-- The state with the Channel State cache left out: what an observer sees who cannot tell a handle with a cache from
one without (42_conversion_sequencer.md R111). -/
def State.withoutCache (s : State) : State :=
  { s with params := { s.params with cacheEnabled := false }, cacheValid := false, cacheWord := 0 }

/-- Two outcomes alike but for the cache. -/
def AlikeButCache : Result → Result → Prop
  | .next a, .next b => a.withoutCache = b.withoutCache
  | .fault a, .fault b => a = b
  | .refused a, .refused b => a = b
  | _, _ => False

end Sys2Proof.Machine
end

