-- ==== Sys2Proof/Certificates/Slice0/Obligations.lean ====
section
/-! DEFINITION. The statements about the model. Each docstring names the rule of spec/ it formalises. -/

open Sys2Proof Sys2Proof.Machine

/-! ## Requests and frames -/

/-- 30_encoding.md R63, R64, R66: no operand and no header bit of an instruction is lost. -/
def Obligations.DecodeInvertsEncode : Prop :=
  ∀ i : Instr, i.wf = true → decode (encode i) = i

/-- 30_encoding.md R63, R66: the decoder is total, and every header belongs to exactly one row of the opcode table, the
row of the instruction it decodes to. -/
def Obligations.EveryHeaderHasExactlyItsRow : Prop :=
  ∀ r : Request, (decode r).wf = true ∧
    ∃ row ∈ opcodeTable, row.covers r.hdr = true ∧ row.mnemonic = (decode r).mnemonic ∧
      ∀ other ∈ opcodeTable, other.covers r.hdr = true → other = row

/-- 30_encoding.md R63, on headers of 95_test_vectors.md: one of each family. -/
def Obligations.SampleHeadersDecode : Prop :=
  ∀ ops : Operands,
    decode ⟨0x05, ops⟩ = .wregCfg ops.value ∧ decode ⟨0x0B, ops⟩ = .rregHi ∧
    decode ⟨0x0C, ops⟩ = .buildConfig 0 ops.mux ops.gain ops.rate ops.mode ops.start ∧
    decode ⟨0x10, ops⟩ = .decodeConfig 0 ops.word ∧
    decode ⟨0x14, ops⟩ = .readChannel 0 ops.channel ops.gain ops.rate ∧
    decode ⟨0x1C, ops⟩ = .scaleFixed 0 ops.raw.toInt ops.gain ∧
    decode ⟨0x23, ops⟩ = .enc16 3 ops.value ∧ decode ⟨0x2C, ops⟩ = .reservedOpB 0

/-- 30_encoding.md R49, R50, R61, R67: a frame's bytes and call give the frame back, and bytes that read as a frame are
the frame's bytes, carried by its call. -/
def Obligations.FramesRoundTrip : Prop :=
  (∀ f : Frame, decodeFrame f.call f.bytes = .ok f) ∧
  (∀ call bytes f, decodeFrame call bytes = .ok f → f.call = call ∧ f.bytes = bytes)

/-- 30_encoding.md R60, R61: the four selectors, and no other byte names a register. -/
def Obligations.SelectorsNameFourRegisters : Prop :=
  RegisterId.selector .conversion = 0x00 ∧ RegisterId.selector .config = 0x01 ∧
  RegisterId.selector .lowThreshold = 0x02 ∧ RegisterId.selector .highThreshold = 0x03 ∧
  (∀ reg : RegisterId, reg.selector = reg.code.setWidth 8) ∧
  (∀ sel : Byte, 0x04 ≤ sel → decodeSelector sel = .error (.selectorOutOfRange sel))

/-- 30_encoding.md R63: the operations other than WREG and RREG give the same result for all four `sel` values. -/
def Obligations.IgnoredSelChangesNothing : Prop :=
  ∀ (r r' : Request) (s : State), r.op = r'.op → r.ops = r'.ops → r.op ≠ 0x1 → r.op ≠ 0x2 →
    exec (decode r) s = exec (decode r') s

/-- 30_encoding.md R69: the expansions of the three pseudo-operations, each second request made from the first one's
result. That they are functions of the requester, and that an ignored `sel` is 0 in them, is the model's choice
(log 24, DESIGN CHOICE). -/
def Obligations.PseudoOperationsExpand : Prop :=
  (∀ mux gain rate mode start w,
    pseudoFirst (.wcfg mux gain rate mode start) = .buildConfig 0 mux gain rate mode start ∧
    pseudoSecond (.wcfg mux gain rate mode start) (.ok (.u16 w)) = some (.wregCfg w)) ∧
  (∀ w, pseudoFirst .rconv = .rregConv ∧ pseudoSecond .rconv (.ok (.u16 w)) = some (.sext16 0 w)) ∧
  (∀ w : Word, pseudoFirst .rstatus = .rregCfg ∧ pseudoSecond .rstatus (.ok (.u16 w)) = none ∧
    pseudoStatus (.ok (.u16 w)) = some (w.extractLsb' 15 1))

/-! ## Register Codec -/

/-- 40_register_codec.md R70. -/
def Obligations.Enc16Responds : Prop :=
  (∀ r : Request, r.op = 0x8 → decode r = .enc16 r.sel r.ops.value) ∧
  ∀ sel value s, exec (.enc16 sel value) s =
    .next (s.answered (.ok (.bytes (value.extractLsb' 8 8) (value.extractLsb' 0 8))))

/-- 40_register_codec.md R71. -/
def Obligations.Dec16Responds : Prop :=
  (∀ r : Request, r.op = 0x9 → decode r = .dec16 r.sel r.ops.hi r.ops.lo) ∧
  ∀ sel hi lo s, ∃ w : Word, w.toNat = hi.toNat * 256 + lo.toNat ∧
    exec (.dec16 sel hi lo) s = .next (s.answered (.ok (.u16 w)))

/-- 40_register_codec.md R72. -/
def Obligations.Sext16Responds : Prop :=
  (∀ r : Request, r.op = 0xA → decode r = .sext16 r.sel r.ops.w) ∧
  ∀ sel (w : Word) s, exec (.sext16 sel w) s =
    .next (s.answered (.ok (.i16 (if w.toNat < 0x8000 then (w.toNat : Int) else (w.toNat : Int) - 0x10000))))

/-- 40_register_codec.md R73: the laws of the pure operations. -/
def Obligations.PureCodecLaws : Prop :=
  (∀ v : Word, joinBytes (hiByte v) (loByte v) = v) ∧
  (∀ hi lo : Byte, hiByte (joinBytes hi lo) = hi ∧ loByte (joinBytes hi lo) = lo) ∧
  (∀ v w : Word, toI16 v = toI16 w → v = w) ∧
  (∀ raw : Int, InI16 raw ↔ ∃ w : Word, toI16 w = raw) ∧
  (∀ w : Word, toI16 w < 0 ↔ w.getLsbD 15 = true)

/-- 40_register_codec.md R74 (and R75 to R78 by register; 42_conversion_sequencer.md R113 for the cache): one exchange of
three bytes, then OK or the port's error. Nothing else changes. -/
def Obligations.WregWritesOnceAndResponds : Prop :=
  (∀ r : Request, r.op = 0x1 → ∃ reg : RegisterId, reg.code = r.sel ∧ decode r = wregOf reg r.ops.value) ∧
  ∀ (reg : RegisterId) (value : Word) (s : State),
    let bytes : List Byte := [reg.code.setWidth 8, value.extractLsb' 8 8, value.extractLsb' 0 8]
    let valid := if reg = .config ∧ s.params.cacheEnabled = true then false else s.cacheValid
    (s.writeAnswer bytes = .ok →
      exec (wregOf reg value) s = .next ({ s.written bytes .ok with cacheValid := valid }.answered (.ok .none))) ∧
    (∀ e, s.writeAnswer bytes = .err e →
      exec (wregOf reg value) s =
        .next ({ s.written bytes (.err e) with cacheValid := valid }.failed (.errTransport (.port e))))

/-- 40_register_codec.md R79 (and R80 to R83 by register, R86): one exchange, then the word of the two bytes, most
significant first, or the failure. A failure is the error entry of 60_exceptions.md R130, which on a state that accepts no
request (log 19) clears the latches and sets IDLE; on one that does, and on every success, the latches and the sequencer
are as before. Nothing else changes. -/
def Obligations.RregReadsOnceAndResponds : Prop :=
  (∀ r : Request, r.op = 0x2 → ∃ reg : RegisterId, reg.code = r.sel ∧ decode r = rregOf reg) ∧
  ∀ (reg : RegisterId) (s : State),
    let sel : Byte := reg.code.setWidth 8
    (∀ hi lo, s.readAnswer [sel] 2 = .ok [hi, lo] →
      exec (rregOf reg) s = .next ((s.readBack sel (.ok [hi, lo])).answered (.ok (.u16 (hi ++ lo))))) ∧
    (∀ bs, s.readAnswer [sel] 2 = .ok bs → bs.length ≠ 2 →
      exec (rregOf reg) s = .next ((s.readBack sel (.ok bs)).failed (.errTransport .shortTransfer))) ∧
    (∀ e, s.readAnswer [sel] 2 = .err e →
      exec (rregOf reg) s = .next ((s.readBack sel (.err e)).failed (.errTransport (.port e)))) ∧
    (∀ t, Accepting s → exec (rregOf reg) s = .next t →
      t.lat = s.lat ∧ t.seq = s.seq ∧ t.cacheValid = s.cacheValid ∧ t.cacheWord = s.cacheWord)

/-! ## Configuration Builder -/

/-- 41_config_builder.md R87, 30_encoding.md R51: each extractor masks and shifts. The masks are disjoint and cover the
word (30_encoding.md R52, which the spec derives from R51). -/
def Obligations.ExtractorsMaskAndShift : Prop :=
  (∀ w : Word,
    (fOS w).setWidth 16 = (w &&& 0x8000) >>> 15 ∧ (fMUX w).setWidth 16 = (w &&& 0x7000) >>> 12 ∧
    (fPGA w).setWidth 16 = (w &&& 0x0E00) >>> 9 ∧ (fMODE w).setWidth 16 = (w &&& 0x0100) >>> 8 ∧
    (fDR w).setWidth 16 = (w &&& 0x00E0) >>> 5 ∧ (fCOMP w).setWidth 16 = w &&& 0x001F) ∧
  ([0x8000, 0x7000, 0x0E00, 0x0100, 0x00E0, 0x001F] : List Word).Pairwise (fun a b => a &&& b = 0) ∧
  (0x8000 ||| 0x7000 ||| 0x0E00 ||| 0x0100 ||| 0x00E0 ||| 0x001F : Word) = 0xFFFF

/-- 41_config_builder.md R88. -/
def Obligations.BuildConfigResponds : Prop :=
  (∀ r : Request, r.op = 0x3 → decode r = .buildConfig r.sel r.ops.mux r.ops.gain r.ops.rate r.ops.mode r.ops.start) ∧
  ∀ sel mux gain rate mode start (s : State),
    let w : Word :=
      ((if start then 1 else 0 : Word) <<< 15) ||| ((s.params.muxCode.code mux).setWidth 16 <<< 12) |||
      ((s.params.pgaCode.code gain).setWidth 16 <<< 9) ||| ((s.params.modeCode.code mode).setWidth 16 <<< 8) |||
      ((s.params.drCode.code rate).setWidth 16 <<< 5) ||| s.params.compBits.setWidth 16
    exec (.buildConfig sel mux gain rate mode start) s = .next (s.answered (.ok (.u16 w)))

/-- 41_config_builder.md R89: BUILD_CONFIG never fails, and the or of the six terms is their sum, so no code spills. -/
def Obligations.ConfigWordIsTheSumOfItsFields : Prop :=
  (∀ sel mux gain rate mode start s, ∃ w,
    exec (.buildConfig sel mux gain rate mode start) s = .next (s.answered (.ok (.u16 w)))) ∧
  ∀ (p : Params) mux gain rate mode start,
    (configWord p mux gain rate mode start).toNat =
      (if start then 1 else 0) * 2 ^ 15 + (p.muxCode.code mux).toNat * 2 ^ 12 + (p.pgaCode.code gain).toNat * 2 ^ 9 +
      (p.modeCode.code mode).toNat * 2 ^ 8 + (p.drCode.code rate).toNat * 2 ^ 5 + p.compBits.toNat

/-- 41_config_builder.md R90, R91: in a built word the COMP field is `COMP_BITS`, every other field holds the code of
exactly one variant, and under the default table the PGA field is never 0b110 or 0b111. -/
def Obligations.BuiltWordHoldsOneVariantPerField : Prop :=
  ∀ (p : Params) mux gain rate mode start,
    let w := configWord p mux gain rate mode start
    fCOMP w = p.compBits ∧
    (p.Injective →
      (∃! m, p.muxCode.code m = fMUX w) ∧ (∃! g, p.pgaCode.code g = fPGA w) ∧
      (∃! m, p.modeCode.code m = fMODE w) ∧ (∃! r, p.drCode.code r = fDR w)) ∧
    (p.DefaultCodes → fPGA w ≠ 0b110 ∧ fPGA w ≠ 0b111)

/-- 41_config_builder.md R93: DECODE_CONFIG gives BUILD_CONFIG's operands back for every injective choice of the code
tables, and the default tables are one. -/
def Obligations.DecodeConfigInvertsBuildConfig : Prop :=
  (∀ (p : Params) mux gain rate mode start, p.Injective →
    configFields p (configWord p mux gain rate mode start) =
      { os := start, mux := mux, gain := some gain, mode := mode, rate := rate, comp := p.compBits }) ∧
  (∀ p : Params, p.DefaultCodes → p.Injective)

/-- 41_config_builder.md R94: BUILD_CONFIG is injective, and its words are those with a PGA code of a variant and the COMP
field `COMP_BITS` (the words under the default tables, log 12). -/
def Obligations.BuildConfigInjectiveWithItsImage : Prop :=
  (∀ (p : Params) mux gain rate mode start mux' gain' rate' mode' start', p.Injective →
    configWord p mux gain rate mode start = configWord p mux' gain' rate' mode' start' →
    mux = mux' ∧ gain = gain' ∧ rate = rate' ∧ mode = mode' ∧ start = start') ∧
  (∀ (p : Params) (w : Word), p.DefaultCodes →
    ((∃ mux gain rate mode start, configWord p mux gain rate mode start = w) ↔
      fPGA w ≤ 0b101 ∧ fCOMP w = p.compBits))

/-- 41_config_builder.md R92: the operation responds with fields for every word. For every injective choice of the code
tables (R93) each field is the variant of its code, for every word, and the gain is the variant of its code or none where
no variant has it (log 13 says how the inverse is computed). Under the default tables (30_encoding.md R55 to R58,
PRESUMED by the spec itself, log 12) the PGA codes over 0b101 are the ones with no gain. -/
def Obligations.DecodeConfigResponds : Prop :=
  (∀ r : Request, r.op = 0x4 → decode r = .decodeConfig r.sel r.ops.word) ∧
  (∀ sel word (s : State), ∃ f, exec (.decodeConfig sel word) s = .next (s.answered (.ok (.fields f)))) ∧
  (∀ sel (word : Word) (s : State), s.params.Injective →
    ∃ f : ConfigFields, exec (.decodeConfig sel word) s = .next (s.answered (.ok (.fields f))) ∧
      (f.os = true ↔ word.getLsbD 15 = true) ∧
      s.params.muxCode.code f.mux = fMUX word ∧
      (∀ g, f.gain = some g ↔ s.params.pgaCode.code g = fPGA word) ∧
      s.params.modeCode.code f.mode = fMODE word ∧ s.params.drCode.code f.rate = fDR word ∧ f.comp = fCOMP word) ∧
  ∀ sel (word : Word) (s : State), s.params.DefaultCodes →
    ∃ f : ConfigFields, exec (.decodeConfig sel word) s = .next (s.answered (.ok (.fields f))) ∧
      (f.os = true ↔ word.getLsbD 15 = true) ∧
      MuxTable.default.code f.mux = fMUX word ∧
      (fPGA word ≤ 0b101 → ∃ g, f.gain = some g ∧ PgaTable.default.code g = fPGA word) ∧
      (0b101 < fPGA word → f.gain = none) ∧
      ModeTable.default.code f.mode = fMODE word ∧ DrTable.default.code f.rate = fDR word ∧ f.comp = fCOMP word

/-! ## READ_CHANNEL -/

/-- 42_conversion_sequencer.md R99 (and R112 for the cache): the step that accepts READ_CHANNEL, for a cache skip, a
Config write that succeeds and one that fails. -/
def Obligations.ReadChannelAccepted : Prop :=
  (∀ r : Request, r.op = 0x5 → decode r = .readChannel r.sel r.ops.channel r.ops.gain r.ops.rate) ∧
  ∀ sel (channel : Channel) (gain : GainRange) (rate : DataRate) (s : State),
    let w := configWord s.params channel gain rate s.params.seqMode true
    let bytes : List Byte := [0x01, w.extractLsb' 8 8, w.extractLsb' 0 8]
    let lat : Latches := { s.lat with mux := some channel, gain := some gain, rate := some rate, word := some w }
    (cacheSkip w s = true →
      exec (.readChannel sel channel gain rate) s = .next { s with lat := lat, seq := .configWritten }) ∧
    (cacheSkip w s = false → s.writeAnswer bytes = .ok →
      exec (.readChannel sel channel gain rate) s =
        .next { s.written bytes .ok with
          lat := lat, seq := .configWritten,
          cacheValid := if s.params.cacheEnabled then true else s.cacheValid,
          cacheWord := if s.params.cacheEnabled then w else s.cacheWord }) ∧
    (∀ e, cacheSkip w s = false → s.writeAnswer bytes = .err e →
      exec (.readChannel sel channel gain rate) s =
        .next ({ s.written bytes (.err e) with
          cacheValid := if s.params.cacheEnabled then false else s.cacheValid }.failed (.errTransport (.port e))))

/-- 42_conversion_sequencer.md R100. -/
def Obligations.ConfigWrittenStartsTheWait : Prop :=
  ∀ s : State, s.seq = .configWritten →
    blockStep s = .next { s with lat := { s.lat with t0 := some s.now, ready := some false }, seq := .converting }

/-- 42_conversion_sequencer.md R102: under FIXED_DELAY the result read happens exactly when the wait is over. Before, the
block holds (R98). -/
def Obligations.FixedDelayReadsWhenWaited : Prop :=
  ∀ (s : State) (t0 : Nat) (rate : DataRate),
    s.seq = .converting → s.params.waitPolicy = .fixedDelay → s.lat.t0 = some t0 → s.lat.rate = some rate →
    (s.params.waitUs rate ≤ s.now - t0 → ReadsResult s (blockStep s)) ∧
    (s.now - t0 < s.params.waitUs rate → blockStep s = .next s)

/-- 42_conversion_sequencer.md R103: the status poll, not before the minimum conversion time; a busy device changes no
latch and no state of the sequencer. That OS = 1 means not busy is PRESUMED by the spec itself (log 12). -/
def Obligations.StatusPollOnceMinimumPassed : Prop :=
  ∀ (s : State) (t0 : Nat) (rate : DataRate),
    s.seq = .converting → s.params.waitPolicy = .pollStatus → s.lat.ready = some false →
    s.lat.t0 = some t0 → s.lat.rate = some rate →
    (s.now - t0 < rate.minConvUs → blockStep s = .next s) ∧
    (rate.minConvUs ≤ s.now - t0 →
      (∀ hi lo, s.readAnswer [0x01] 2 = .ok [hi, lo] → hi.getLsbD 7 = true →
        blockStep s = .next { s.readBack 0x01 (.ok [hi, lo]) with lat := { s.lat with ready := some true } }) ∧
      (∀ hi lo, s.readAnswer [0x01] 2 = .ok [hi, lo] → hi.getLsbD 7 = false →
        blockStep s = .next (s.readBack 0x01 (.ok [hi, lo]))) ∧
      (∀ bs, s.readAnswer [0x01] 2 = .ok bs → bs.length ≠ 2 →
        blockStep s = .next ((s.readBack 0x01 (.ok bs)).failed (.errTransport .shortTransfer))) ∧
      (∀ e, s.readAnswer [0x01] 2 = .err e →
        blockStep s = .next ((s.readBack 0x01 (.err e)).failed (.errTransport (.port e)))))

/-- 42_conversion_sequencer.md R104: once a poll saw not busy, the result read, with no time guard of its own. -/
def Obligations.ReadyPollReadsResult : Prop :=
  ∀ s : State, s.seq = .converting → s.params.waitPolicy = .pollStatus → s.lat.ready = some true →
    ReadsResult s (blockStep s)

/-- 42_conversion_sequencer.md R105: the voltage of the raw sample at the gain of the same request. -/
def Obligations.ResultIsScaledAndDelivered : Prop :=
  ∀ (s : State) (raw : Int) (gain : GainRange),
    s.seq = .resultAvailable → s.lat.raw = some raw → s.lat.gain = some gain →
    blockStep s =
      .next { s.answered (.ok (.f32 (scaleVolts s.params raw gain))) with lat := Latches.unwritten, seq := .idle }

/-- 00_scope.md R12: a step that reads a latch nothing has written is the model fault, for each latch a step reads.
By Obligations.InvariantRunsNeverStop no run from a constructed handle comes to it. -/
def Obligations.UnwrittenLatchReadFaults : Prop :=
  (∀ s : State, s.seq = .resultAvailable → s.lat.raw = none → blockStep s = .fault (.unwrittenRead .latRaw)) ∧
  (∀ s : State, s.seq = .resultAvailable → s.lat.raw ≠ none → s.lat.gain = none →
    blockStep s = .fault (.unwrittenRead .latGain)) ∧
  (∀ s : State, s.seq = .converting → s.params.waitPolicy = .pollStatus → s.lat.ready = none →
    blockStep s = .fault (.unwrittenRead .latReady)) ∧
  (∀ s : State, s.seq = .converting → (s.params.waitPolicy = .fixedDelay ∨ s.lat.ready = some false) →
    s.lat.t0 = none → blockStep s = .fault (.unwrittenRead .latT0)) ∧
  (∀ s : State, s.seq = .converting → (s.params.waitPolicy = .fixedDelay ∨ s.lat.ready = some false) →
    s.lat.t0 ≠ none → s.lat.rate = none → blockStep s = .fault (.unwrittenRead .latRate))

/-- 42_conversion_sequencer.md R101: the table of minimum waits, each the reciprocal of the rate rounded up to whole
microseconds, and the wait with its margin. The rates are PRESUMED by the spec itself (log 12), the rounding up is "the
spec's own choice". -/
def Obligations.WaitTableIsTheReciprocalRoundedUp : Prop :=
  ([.dr8, .dr16, .dr32, .dr64, .dr128, .dr250, .dr475, .dr860] : List DataRate).map DataRate.minConvUs =
    [125000, 62500, 31250, 15625, 7813, 4000, 2106, 1163] ∧
  (∀ (rate : DataRate) (n : Nat), rate.minConvUs ≤ n ↔ 1000000 ≤ n * rate.sps) ∧
  (∀ (p : Params) (rate : DataRate), p.waitUs rate = rate.minConvUs + p.waitMarginUs)

/-- 42_conversion_sequencer.md R97, R98, R106, 20_memory.md R36: under FIXED_DELAY the steps of the state machine do what
the sequential procedure of R97 does, for every answer to the Config write and to the result read, with or without a
cache skip: in the procedure's number of steps when the third step finds the wait over, and, since time reaches every
bound (60_exceptions.md R135; log 20), after some number of holds whatever the environment's moves are. A listed answer of
the port is the one given. The list of the environment's moves is the model's (log 4). -/
def Obligations.FixedDelayRunIsTheProcedure : Prop :=
  (∀ (s : State) (r : Request) (rs : List Request) sel channel gain rate wa was ra ras t1 t2 t3 t4 ts,
    Accepting s → s.params.waitPolicy = .fixedDelay →
    s.requests = r :: rs → decode r = .readChannel sel channel gain rate →
    s.turns = t1 :: t2 :: t3 :: t4 :: ts → s.params.waitUs rate ≤ t3.elapsed →
    s.writeAnswers = wa :: was → s.readAnswers = ra :: ras →
    let eff := readChannelProcedure s channel gain rate wa ra
    CompletesWith s eff (runSteps eff.steps s)) ∧
  (∀ (s : State) (r : Request) (rs : List Request) sel channel gain rate,
    Accepting s → s.params.waitPolicy = .fixedDelay →
    s.requests = r :: rs → decode r = .readChannel sel channel gain rate →
    ∃ n wa ra,
      (∀ a as, s.writeAnswers = a :: as → wa = a) ∧ (∀ a as, s.readAnswers = a :: as → ra = a) ∧
      let eff := readChannelProcedure s channel gain rate wa ra
      eff.steps ≤ n ∧ CompletesWith s eff (runSteps n s))

/-- 42_conversion_sequencer.md R103, R104, R106, R108: under POLL_STATUS, with a device busy for any number of polls,
READ_CHANNEL makes the Config write (none with a cache skip, R110), one exchange for each poll and the result read, and
gives the voltage; a poll or a result read that fails is the last exchange and its error the response. The cache is what
the Config write left (R112). The polarity of OS is PRESUMED by the spec itself (log 12), and the list of the
environment's moves is the model's (log 4). -/
def Obligations.PollingRunDeliversTheVoltage : Prop :=
  ∀ (s : State) (r : Request) (rs : List Request) sel channel gain rate was (busy : List (Byte × Byte)) t1 t2 t3 ts,
    Accepting s → s.params.waitPolicy = .pollStatus →
    s.requests = r :: rs → decode r = .readChannel sel channel gain rate →
    s.turns = t1 :: t2 :: t3 :: ts → rate.minConvUs ≤ t3.elapsed →
    (∀ b ∈ busy, b.1.getLsbD 7 = false) →
    let w := configWord s.params channel gain rate s.params.seqMode true
    (cacheSkip w s = true ∨ s.writeAnswers = .ok :: was) →
    let wrote := !cacheSkip w s
    let write : List TraceEntry :=
      if wrote then [.w s.addr [0x01, w.extractLsb' 8 8, w.extractLsb' 0 8] .ok] else []
    let answers := busy.map (fun b => ReadAnswer.ok [b.1, b.2])
    let polls := busy.map (fun b => TraceEntry.wr s.addr [0x01] 2 (.ok [b.1, b.2]))
    let effect (steps : Nat) (exchanges : List TraceEntry) (response : Response) : ReadChannelEffect :=
      { steps := steps, exchanges := write ++ polls ++ exchanges, response := response,
        cacheValid := if wrote && s.params.cacheEnabled then true else s.cacheValid,
        cacheWord := if wrote && s.params.cacheEnabled then w else s.cacheWord }
    (∀ ph pl hi lo ras, ph.getLsbD 7 = true →
      s.readAnswers = answers ++ .ok [ph, pl] :: .ok [hi, lo] :: ras →
      let eff := effect (busy.length + 5) [.wr s.addr [0x01] 2 (.ok [ph, pl]), .wr s.addr [0x00] 2 (.ok [hi, lo])]
        (.ok (.f32 (scaleVolts s.params (toI16 (hi ++ lo)) gain)))
      eff.exchanges.length = (if wrote then 2 else 1) + (busy.length + 1) ∧ CompletesWith s eff (runSteps eff.steps s)) ∧
    (∀ ph pl ra ras payload, ph.getLsbD 7 = true → FailedWith (.wr s.addr [0x00] 2 ra) payload →
      s.readAnswers = answers ++ .ok [ph, pl] :: ra :: ras →
      let eff := effect (busy.length + 4) [.wr s.addr [0x01] 2 (.ok [ph, pl]), .wr s.addr [0x00] 2 ra]
        (.errTransport payload)
      CompletesWith s eff (runSteps eff.steps s)) ∧
    (∀ pa ras payload, FailedWith (.wr s.addr [0x01] 2 pa) payload →
      s.readAnswers = answers ++ pa :: ras →
      let eff := effect (busy.length + 3) [.wr s.addr [0x01] 2 pa] (.errTransport payload)
      CompletesWith s eff (runSteps eff.steps s))

/-- 70_reset_and_hazards.md R152, 42_conversion_sequencer.md R103: a device that always answers busy keeps the block polling
for as long as it does: past MIN_CONV_US each step makes one status poll, before it none; the block responds nothing and
accepts nothing. The polarity of OS is PRESUMED by the spec itself (log 12). -/
def Obligations.BusyDeviceKeepsTheBlockPolling : Prop :=
  ∀ (n : Nat) (s : State) (t0 : Nat) (rate : DataRate) (busy : List (Byte × Byte)) ras,
    s.seq = .converting → s.params.waitPolicy = .pollStatus → s.lat.ready = some false →
    s.lat.t0 = some t0 → s.lat.rate = some rate →
    s.readAnswers = busy.map (fun b => .ok [b.1, b.2]) ++ ras → n ≤ busy.length →
    (∀ b ∈ busy, b.1.getLsbD 7 = false) →
    ∃ s' k, runSteps n s = .next s' ∧ s'.seq = .converting ∧ s'.lat = s.lat ∧
      s'.responses = s.responses ∧ (∃ more, s'.requests = s.requests ++ more) ∧
      s'.trace = s.trace ++ (busy.take k).map (fun b => TraceEntry.wr s.addr [0x01] 2 (.ok [b.1, b.2])) ∧
      s'.readAnswers = (busy.drop k).map (fun b => .ok [b.1, b.2]) ++ ras ∧
      k ≤ n ∧ (rate.minConvUs ≤ s.now - t0 → k = n) ∧ (s'.now - t0 < rate.minConvUs → k = 0)

/-- 70_reset_and_hazards.md R149, R159; 42_conversion_sequencer.md R102, R103: no exchange follows the Config write of a
READ_CHANNEL before the minimum conversion time has passed. -/
def Obligations.NoExchangeBeforeMinimumConversion : Prop :=
  ∀ s s' : State, Inv s → s.seq = .converting → blockStep s = .next s' → s'.trace ≠ s.trace →
    ∃ t0 rate, s.lat.t0 = some t0 ∧ s.lat.rate = some rate ∧ t0 ≤ s.now ∧ rate.minConvUs ≤ s.now - t0 ∧
      (s.params.waitPolicy = .fixedDelay → s.params.waitUs rate ≤ s.now - t0)

/-! ## Channel State cache -/

/-- 42_conversion_sequencer.md R110. -/
def Obligations.CacheSkipExactlyWhen : Prop :=
  ∀ (w : Word) (s : State), cacheSkip w s = true ↔
    s.params.cacheEnabled = true ∧ s.params.seqMode = .continuous ∧ s.cacheValid = true ∧
    ∀ k < 15, s.cacheWord.getLsbD k = w.getLsbD k

/-- 42_conversion_sequencer.md R111 (its first sentence): in SINGLE_SHOT mode every READ_CHANNEL writes the Config
register. -/
def Obligations.SingleShotAlwaysWritesConfig : Prop :=
  ∀ sel (channel : Channel) gain rate (s : State), s.params.seqMode = .singleShot →
    let w := configWord s.params channel gain rate s.params.seqMode true
    cacheSkip w s = false ∧
    ∃ t a, exec (.readChannel sel channel gain rate) s = .next t ∧
      t.trace = s.trace ++ [.w s.addr [0x01, w.extractLsb' 8 8, w.extractLsb' 0 8] a]

/-- 42_conversion_sequencer.md R111: in SINGLE_SHOT mode no run shows whether the cache is enabled or what it holds: same
exchanges, same responses, same everything but the cache. -/
def Obligations.CacheInvisibleInSingleShot : Prop :=
  ∀ (n : Nat) (s s' : State), s.params.seqMode = .singleShot → s.withoutCache = s'.withoutCache →
    AlikeButCache (runSteps n s) (runSteps n s')

/-- 42_conversion_sequencer.md R112: the cache holds the last Config word READ_CHANNEL wrote with success; a failed Config
write invalidates it; no step after the first changes it; without a cache nothing does. -/
def Obligations.CacheFollowsConfigWrites : Prop :=
  (∀ sel (channel : Channel) gain rate (s t : State), exec (.readChannel sel channel gain rate) s = .next t →
    let w := configWord s.params channel gain rate s.params.seqMode true
    let a := s.writeAnswer [0x01, w.extractLsb' 8 8, w.extractLsb' 0 8]
    (s.params.cacheEnabled = true → cacheSkip w s = false → a = .ok → t.cacheValid = true ∧ t.cacheWord = w) ∧
    (s.params.cacheEnabled = true → cacheSkip w s = false → a ≠ .ok →
      t.cacheValid = false ∧ t.cacheWord = s.cacheWord) ∧
    (cacheSkip w s = true → t.cacheValid = s.cacheValid ∧ t.cacheWord = s.cacheWord) ∧
    (s.params.cacheEnabled = false → t.cacheValid = s.cacheValid ∧ t.cacheWord = s.cacheWord)) ∧
  (∀ s t : State, s.seq ≠ .idle → blockStep s = .next t → t.cacheValid = s.cacheValid ∧ t.cacheWord = s.cacheWord)

/-- 42_conversion_sequencer.md R113: WREG.CFG invalidates the cache whatever its answer, and no operation other than it and
READ_CHANNEL touches the cache. -/
def Obligations.OnlyWregCfgAlsoTouchesTheCache : Prop :=
  (∀ value (s : State), s.params.cacheEnabled = true →
    ∃ t, exec (.wregCfg value) s = .next t ∧ t.cacheValid = false ∧ t.cacheWord = s.cacheWord) ∧
  (∀ (i : Instr) (s t : State), exec i s = .next t →
    (∀ value, i ≠ .wregCfg value) → (∀ sel channel gain rate, i ≠ .readChannel sel channel gain rate) →
    t.cacheValid = s.cacheValid ∧ t.cacheWord = s.cacheWord)

/-- 70_reset_and_hazards.md R145: after construction the cache is invalid, no operation but READ_CHANNEL makes it valid,
and a READ_CHANNEL that finds it invalid writes the Config register. -/
def Obligations.FirstReadChannelWritesConfig : Prop :=
  (∀ p port, (State.construct p port).cacheValid = false) ∧
  (∀ (i : Instr) (s t : State), exec i s = .next t → s.cacheValid = false →
    (∀ sel channel gain rate, i ≠ .readChannel sel channel gain rate) → t.cacheValid = false) ∧
  (∀ sel (channel : Channel) gain rate (s : State), s.cacheValid = false →
    let w := configWord s.params channel gain rate s.params.seqMode true
    ∃ t a, exec (.readChannel sel channel gain rate) s = .next t ∧
      t.trace = s.trace ++ [.w s.addr [0x01, w.extractLsb' 8 8, w.extractLsb' 0 8] a])

/-! ## Scaling Engine -/

/-- 00_scope.md R10: `rne32` is roundTiesToEven, against every finite binary32 value; the multiply of two finite values
rounds the exact product; a small integer is exact. That a zero result is `+0.0`, whatever the signs, is the model's
reading (log 17, DEDUCED). -/
def Obligations.RoundingIsNearestTiesToEven : Prop :=
  (∀ (num : Int) (den : Nat), 0 < den → Finite32 (rne32 num den) →
    (∀ b, Finite32 b → |val32 (rne32 num den) - (num : ℚ) / den| ≤ |val32 b - (num : ℚ) / den|) ∧
    (∀ b, Finite32 b → |val32 (rne32 num den) - (num : ℚ) / den| = |val32 b - (num : ℚ) / den| →
      val32 b = val32 (rne32 num den) ∨ (rne32 num den).getLsbD 0 = false)) ∧
  (∀ a b : F32, Finite32 a → Finite32 b → ∃ (num : Int) (den : Nat), 0 < den ∧ val32 a * val32 b = (num : ℚ) / den ∧ mul32 a b = rne32 num den) ∧
  (∀ n : Int, -16777216 ≤ n → n ≤ 16777216 → val32 (rne32 n 1) = n)

/-- 43_scaling_engine.md R115, R116: the bits of the constants, and the exact division. The intermediate full scales are
PRESUMED by the spec itself (log 12). -/
def Obligations.ScalingConstants : Prop :=
  ([.pga6144, .pga4096, .pga2048, .pga1024, .pga0512, .pga0256] : List GainRange).map fs32 =
    [0x40C49BA6, 0x4083126F, 0x4003126F, 0x3F83126F, 0x3F03126F, 0x3E83126F] ∧
  ([.pga6144, .pga4096, .pga2048, .pga1024, .pga0512, .pga0256] : List GainRange).map lsb32 =
    [0x39449BA6, 0x3903126F, 0x3883126F, 0x3803126F, 0x3783126F, 0x3703126F] ∧
  (∀ gain, fs32 gain = rne32 gain.fsMv 1000) ∧
  (∀ gain, num32 (lsb32 gain) * (den32 (fs32 gain) * 32768) = num32 (fs32 gain) * den32 (lsb32 gain))

/-- 43_scaling_engine.md R117: one binary32 multiply of the exact sample and the LSB weight. -/
def Obligations.ScaleRespondsInBinary32 : Prop :=
  (∀ r : Request, r.op = 0x6 → decode r = .scale r.sel r.ops.raw.toInt r.ops.gain) ∧
  ∀ sel raw gain (s : State), s.params.scaleNumerics = .f32 →
    exec (.scale sel raw gain) s = .next (s.answered (.ok (.f32 (mul32 (rne32 raw 1) (lsb32 gain)))))

/-- 43_scaling_engine.md R121: the binary64 form, rounded to binary32 at the end; its last bit can differ. -/
def Obligations.ScaleRespondsInBinary64 : Prop :=
  (∀ sel raw gain (s : State), s.params.scaleNumerics = .f64ThenF32 →
    let lsb := divNat64 (rne64 gain.fsMv 1000) 32768
    let v := mul64 (rne64 raw 1) lsb
    exec (.scale sel raw gain) s = .next (s.answered (.ok (.f32 (rne32 (num64 v) (den64 v)))))) ∧
  scaleF64 4660 .pga4096 = 0x3F151EB8 ∧ scaleF32 4660 .pga4096 = 0x3F151EB9

/-- 43_scaling_engine.md R117, its corner cases: zero is `+0.0`, the most negative sample is exactly minus full scale, and
a sample's negative gives the negative voltage. -/
def Obligations.ScaleCornerCases : Prop :=
  (∀ gain, scaleF32 0 gain = 0x00000000) ∧
  (∀ gain, scaleF32 (-32768) gain = fs32 gain ^^^ 0x80000000 ∧
    val32 (scaleF32 (-32768) gain) = -val32 (fs32 gain)) ∧
  (∀ raw gain, InI16 raw → raw ≠ -32768 → val32 (scaleF32 (-raw) gain) = -val32 (scaleF32 raw gain)) ∧
  (∀ raw gain, InI16 raw → raw ≠ -32768 → raw ≠ 0 →
    scaleF32 (-raw) gain = scaleF32 raw gain ^^^ 0x80000000)

/-- 43_scaling_engine.md R118, for `SCALE_NUMERICS = F32`: no clamp and no saturation: the sign is the sample's, a greater
sample gives a strictly greater voltage, and the results fill the range from minus full scale, at the least sample, to
32767 LSB weights rounded, at the greatest. -/
def Obligations.ScaleKeepsSignAndRange : Prop :=
  (∀ raw gain, InI16 raw →
    (val32 (scaleF32 raw gain) < 0 ↔ raw < 0) ∧ (0 < val32 (scaleF32 raw gain) ↔ 0 < raw) ∧
    -val32 (fs32 gain) ≤ val32 (scaleF32 raw gain) ∧ val32 (scaleF32 raw gain) ≤ val32 (scaleF32 32767 gain)) ∧
  (∀ raw raw' gain, InI16 raw → InI16 raw' → raw < raw' →
    val32 (scaleF32 raw gain) < val32 (scaleF32 raw' gain)) ∧
  (∀ gain, val32 (scaleF32 (-32768) gain) = -val32 (fs32 gain) ∧
    scaleF32 32767 gain = rne32 (32767 * num32 (lsb32 gain)) (den32 (lsb32 gain)))

/-- 43_scaling_engine.md R119: a result is zero or a normal number, between the smallest LSB weight and the largest full
scale, under both numerics. -/
def Obligations.ScaleResultIsZeroOrNormal : Prop :=
  ∀ (p : Params) raw gain, InI16 raw →
    let v := scaleVolts p raw gain
    (raw = 0 → v = 0x00000000) ∧
    (raw ≠ 0 → 1 ≤ (v.extractLsb' 23 8).toNat ∧ (v.extractLsb' 23 8).toNat ≤ 254 ∧
      val32 (lsb32 .pga0256) ≤ |val32 v| ∧ |val32 v| ≤ val32 (fs32 .pga6144))

/-- 43_scaling_engine.md R120, R123: SCALE (binary32) is within the relative error `2^-23 + 2^-48` of the exact value
`raw × FS(g) / 32768`, which is SCALE_FIXED over 32 768 000. -/
def Obligations.ScaleAgreesWithScaleFixed : Prop :=
  ∀ raw gain, InI16 raw →
    let exact : ℚ := (scaleUnits raw gain : ℚ) / 32768000
    exact = raw * ((gain.fsMv : ℚ) / 1000) / 32768 ∧
    |val32 (scaleF32 raw gain) - exact| ≤ (1 / 2 ^ 23 + 1 / 2 ^ 48) * |exact|

/-- 43_scaling_engine.md R122: the exact product, and its range (30_encoding.md R56). The intermediate full scales are
PRESUMED by the spec itself (log 12). -/
def Obligations.ScaleFixedRespondsExactly : Prop :=
  (∀ r : Request, r.op = 0x7 → decode r = .scaleFixed r.sel r.ops.raw.toInt r.ops.gain) ∧
  (∀ sel raw gain (s : State),
    exec (.scaleFixed sel raw gain) s = .next (s.answered (.ok (.fixed (raw * (gain.fsMv : Int)))))) ∧
  (∀ (raw : Int) (gain : GainRange), InI16 raw →
    -201326592 ≤ raw * (gain.fsMv : Int) ∧ raw * (gain.fsMv : Int) ≤ 201320448) ∧
  ([.pga6144, .pga4096, .pga2048, .pga1024, .pga0512, .pga0256] : List GainRange).map GainRange.fsMv =
    [6144, 4096, 2048, 1024, 512, 256]

/-! ## Errors and responses -/

/-- 30_encoding.md R66, 60_exceptions.md R125: a reserved op is refused with its op code; a block that accepts requests
changes in `resp` (and the observed sequence of responses) alone, and makes no exchange. That a refusal is the error entry
of 60_exceptions.md R130, so that on any other state it clears the latches and sets IDLE, is the model's reading
(log 18, DEDUCED). -/
def Obligations.ReservedOpIsRefused : Prop :=
  (∀ sel (s : State),
    exec (.reservedOp0 sel) s = .next (s.failed (.refused (.reservedOp 0x0))) ∧
    exec (.reservedOpB sel) s = .next (s.failed (.refused (.reservedOp 0xB))) ∧
    exec (.reservedOpC sel) s = .next (s.failed (.refused (.reservedOp 0xC))) ∧
    exec (.reservedOpD sel) s = .next (s.failed (.refused (.reservedOp 0xD))) ∧
    exec (.reservedOpE sel) s = .next (s.failed (.refused (.reservedOp 0xE))) ∧
    exec (.reservedOpF sel) s = .next (s.failed (.refused (.reservedOp 0xF)))) ∧
  (∀ (r : Request) (s : State), (r.op = 0x0 ∨ 0xB ≤ r.op) →
    exec (decode r) s = .next (s.failed (.refused (.reservedOp r.op)))) ∧
  (∀ (s : State) (r : Response), Accepting s → s.failed r = s.answered r)

/-- 60_exceptions.md R126, 30_encoding.md R65. -/
def Obligations.StatusCodesOfResponses : Prop :=
  Status.code .ok = 0b00 ∧ Status.code .errTransport = 0b01 ∧ Status.code .refused = 0b10 ∧
  (∀ r : Response, r.status.code ≠ 0b11) ∧
  (∀ d, Response.status (.ok d) = .ok) ∧ (∀ e, Response.status (.errTransport e) = .errTransport) ∧
  (∀ x, Response.status (.refused x) = .refused)

/-- 60_exceptions.md R130, R129: a step places at most one response; one that reports an error leaves the block IDLE with
every latch unwritten and the response waiting, after at most one exchange, and the cache at most invalidated. -/
def Obligations.ErrorEndsTheOperation : Prop :=
  ∀ s t : State, blockStep s = .next t →
    t.responses = s.responses ∨
    ∃ r, t.responses = s.responses ++ [r] ∧ t.resp = some r ∧
      (r.status ≠ .ok →
        t.seq = .idle ∧ t.lat = Latches.unwritten ∧ (∃ l, t.trace = s.trace ++ l ∧ l.length ≤ 1) ∧
        t.cacheWord = s.cacheWord ∧
        (t.cacheValid = s.cacheValid ∨
          (s.params.cacheEnabled = true ∧ t.cacheValid = false ∧
            ∃ hi lo a, t.trace = s.trace ++ [.w s.addr [0x01, hi, lo] a])))

/-- 60_exceptions.md R125, R127; 20_memory.md R31: a transport error reports the failed exchange, the last entry of the
trace, and a failed exchange always ends in that error: no OK response, no voltage and no register value comes of one. -/
def Obligations.TransportErrorIsTheFailedExchange : Prop :=
  (∀ (s t : State) (payload : TErr), blockStep s = .next t → t.responses ≠ s.responses →
    t.resp = some (.errTransport payload) → ∃ e, t.trace = s.trace ++ [e] ∧ FailedWith e payload) ∧
  (∀ (s t : State) (e : TraceEntry) (payload : TErr), blockStep s = .next t → t.trace = s.trace ++ [e] →
    FailedWith e payload →
    t.resp = some (.errTransport payload) ∧ t.responses = s.responses ++ [.errTransport payload])

/-- 10_state.md R20: a response stays in `resp` until the requester takes it, and blocks the next request. -/
def Obligations.ResponseWaitsUntilTaken : Prop :=
  ∀ (s : State) (r : Response), s.seq = .idle → s.resp = some r → s.nextTurn.take = false →
    ∃ s', step s = .next s' ∧ s'.resp = some r ∧ s'.responses = s.responses ∧ s'.trace = s.trace ∧
      s'.seq = .idle ∧ s'.requests = s.requests ++ s.nextTurn.present

/-! ## The machine -/

/-- 42_conversion_sequencer.md R96, 30_encoding.md R66: after the environment's move, an idle block with no response
waiting runs the operation the first request names; the request leaves the line. -/
def Obligations.StepRunsTheDecodedRequest : Prop :=
  ∀ (s : State) (r : Request) (rs : List Request),
    s.seq = .idle → (s.resp = none ∨ s.nextTurn.take = true) → s.requests ++ s.nextTurn.present = r :: rs →
    step s = exec (decode r)
      { s with resp := none, now := s.now + s.nextTurn.elapsed, requests := rs, turns := s.turns.tail,
               drawn := s.drawn + 1 }

/-- 42_conversion_sequencer.md R96: a request is accepted exactly when the block is idle and no response waits; at any other
time the requests stay as they are. Every operation except READ_CHANNEL is complete in the step that accepts it. -/
def Obligations.RequestsAcceptedOnlyWhenFree : Prop :=
  (∀ s t : State, blockStep s = .next t →
    (s.seq = .idle ∧ s.resp = none ∧ ∃ r, s.requests = r :: t.requests) ∨
    (t.requests = s.requests ∧ ¬ (s.seq = .idle ∧ s.resp = none ∧ s.requests ≠ []))) ∧
  (∀ (i : Instr) (s t : State), s.seq = .idle → exec i s = .next t →
    (∀ sel channel gain rate, i ≠ .readChannel sel channel gain rate) → t.seq = .idle ∧ t.resp ≠ none)

/-- 70_reset_and_hazards.md R143, R144, 10_state.md R27: the state after construction. -/
def Obligations.ConstructedHandleState : Prop :=
  (∀ (p : Params) (port : PortBinding),
    let s := State.construct p port
    s.params = p ∧ s.addr = p.devAddr ∧ s.port = port ∧ s.seq = .idle ∧
    s.lat = { mux := none, gain := none, rate := none, word := none, t0 := none, ready := none, raw := none } ∧
    s.cacheValid = false ∧ s.resp = none ∧ s.trace = []) ∧
  (∃ addrSel margin port, State.reset = State.construct (Params.defaults addrSel margin) port)

/-- The invariant holds after construction, at reset among others (10_state.md R27). -/
def Obligations.ConstructedHandleMeetsInvariant : Prop :=
  (∀ p port, Inv (State.construct p port)) ∧ Inv State.reset

/-- The invariant of the block (10_state.md R16, R18, R19; 42_conversion_sequencer.md R96, R112, R114): every step keeps
it. -/
def Obligations.StepKeepsInvariant : Prop :=
  ∀ s s' : State, Inv s → step s = .next s' → Inv s'

/-- 00_scope.md R12, 60_exceptions.md R141: from a state that meets the invariant no run stops: no latch is read unwritten,
no instruction is refused. 60_exceptions.md R135: in every such run time reaches every bound (log 20 says how the
model's free moves keep that). -/
def Obligations.InvariantRunsNeverStop : Prop :=
  ∀ s : State, Inv s → NeverStops s ∧ TimeIsFair s

/-- 10_state.md R16, 00_scope.md R7, 60_exceptions.md R135: the handle and its parameters are never written, and time never
decreases. -/
def Obligations.HandleIsImmutableAndTimeMonotone : Prop :=
  ∀ s s' : State, step s = .next s' →
    s'.addr = s.addr ∧ s'.port = s.port ∧ s'.params = s.params ∧ s.now ≤ s'.now

/-- 00_scope.md R6, 20_memory.md R28, R32, R34, R36, R41, 30_encoding.md R67: a step makes no exchange or exactly one, to
the handle's address and in one of the block's two formats, and the trace only grows. -/
def Obligations.StepMakesAtMostOneBlockExchange : Prop :=
  (∀ s s' : State, step s = .next s' →
    s'.trace = s.trace ∨ ∃ e, s'.trace = s.trace ++ [e] ∧ IsBlockExchange s.addr e) ∧
  (∀ p port, TraceOfBlock (State.construct p port)) ∧
  (∀ s s' : State, TraceOfBlock s → step s = .next s' → TraceOfBlock s')
end

