-- ==== Sys2Proof/Laws/Binary.lean ====
section
/-! SUPPORT. The rounding of Machine/Binary.lean: the exponent and the significand it picks, the value of the bits it
gives, how far that is from the exact quotient. -/

namespace Sys2Proof.Machine

/-! ## The exact quotient -/

theorem scaleDen_pos {d : Nat} (hd : 0 < d) (k : Int) : 0 < scaleDen d k := by
  unfold scaleDen; split <;> positivity

theorem scale_ratio (n : Nat) {d : Nat} (hd : 0 < d) (k : Int) :
    (scaleNum n k : ℚ) / scaleDen d k = (n : ℚ) / d * 2 ^ k := by
  have hd' : (d : ℚ) ≠ 0 := by positivity
  unfold scaleNum scaleDen
  split
  · rename_i h
    obtain ⟨j, rfl⟩ := Int.eq_ofNat_of_zero_le h
    simp [zpow_natCast]; ring
  · rename_i h
    obtain ⟨j, hj⟩ := Int.eq_ofNat_of_zero_le (show 0 ≤ -k by omega)
    have : k = -(j : Int) := by omega
    subst this
    simp [zpow_neg, zpow_natCast]; field_simp

theorem floorLog2_spec {n d : Nat} (hn : 0 < n) (hd : 0 < d) :
    (2 : ℚ) ^ floorLog2 n d ≤ (n : ℚ) / d ∧ (n : ℚ) / d < 2 ^ (floorLog2 n d + 1) := by
  have hd' : (0 : ℚ) < d := by positivity
  have n1 : (2 : ℚ) ^ n.log2 ≤ n := by exact_mod_cast Nat.log2_self_le (by omega)
  have n2 : (n : ℚ) < 2 ^ (n.log2 + 1) := by exact_mod_cast Nat.lt_log2_self
  have d1 : (2 : ℚ) ^ d.log2 ≤ d := by exact_mod_cast Nat.log2_self_le (by omega)
  have d2 : (d : ℚ) < 2 ^ (d.log2 + 1) := by exact_mod_cast Nat.lt_log2_self
  have up : (n : ℚ) / d < 2 ^ ((n.log2 : Int) - d.log2 + 1) := by
    rw [div_lt_iff₀ hd', show ((n.log2 : Int) - d.log2 + 1) = ((n.log2 + 1 : Nat) : Int) - (d.log2 : Int) by push_cast; ring,
      zpow_sub₀ (by norm_num), zpow_natCast, zpow_natCast, div_mul_eq_mul_div, lt_div_iff₀ (by positivity)]
    exact mul_lt_mul n2 d1 (by positivity) (by positivity)
  have lo : (2 : ℚ) ^ ((n.log2 : Int) - d.log2 - 1) ≤ (n : ℚ) / d := by
    rw [le_div_iff₀ hd', show ((n.log2 : Int) - d.log2 - 1) = (n.log2 : Int) - ((d.log2 + 1 : Nat) : Int) by push_cast; ring,
      zpow_sub₀ (by norm_num), zpow_natCast, zpow_natCast, div_mul_eq_mul_div, div_le_iff₀ (by positivity)]
    exact mul_le_mul n1 d2.le (by positivity) (by positivity)
  have key : ∀ e : Int, scaleDen d (-e) ≤ scaleNum n (-e) ↔ (2 : ℚ) ^ e ≤ (n : ℚ) / d := by
    intro e
    have hp : (0 : ℚ) < scaleDen d (-e) := by exact_mod_cast scaleDen_pos hd _
    have : scaleDen d (-e) ≤ scaleNum n (-e) ↔ 1 ≤ (scaleNum n (-e) : ℚ) / scaleDen d (-e) := by
      rw [le_div_iff₀ hp, one_mul]; exact Nat.cast_le.symm
    rw [this, scale_ratio n hd, zpow_neg, ← div_eq_mul_inv, le_div_iff₀ (by positivity), one_mul]
  unfold floorLog2
  simp only [key]
  split
  · exact ⟨‹_›, up⟩
  · rename_i h
    refine ⟨lo, ?_⟩
    rw [sub_add_cancel]; exact not_le.mp h

/-- The rounded quotient is nearest, and even on a tie. -/
theorem roundHalfEven_spec (n : Nat) {d : Nat} (hd : 0 < d) :
    |(roundHalfEven n d : ℚ) - (n : ℚ) / d| ≤ 1 / 2 ∧
    (|(roundHalfEven n d : ℚ) - (n : ℚ) / d| = 1 / 2 → roundHalfEven n d % 2 = 0) := by
  have hd' : (0 : ℚ) < d := by positivity
  have hdm : (n : ℚ) / d = (n / d : Nat) + (n % d : Nat) / d := by
    rw [eq_comm, ← sub_eq_zero]; field_simp
    have : (n : ℚ) = ((d * (n / d) + n % d : Nat) : ℚ) := by rw [Nat.div_add_mod]
    rw [this]; push_cast
    ring
  have hr : (n % d : Nat) < d := Nat.mod_lt _ hd
  set q := n / d
  set r := n % d
  have hrq : (0 : ℚ) ≤ (r : ℚ) / d := by positivity
  unfold roundHalfEven
  simp only [show n / d = q from rfl, show n % d = r from rfl]
  split
  · rename_i h
    have h2 : (r : ℚ) / d < 1 / 2 := by rw [div_lt_div_iff₀ hd' (by norm_num)]; exact_mod_cast (by omega : r * 2 < 1 * d)
    have : (q : ℚ) - (n : ℚ) / d = -((r : ℚ) / d) := by rw [hdm]; ring
    rw [this, abs_neg, abs_of_nonneg hrq]
    exact ⟨h2.le, fun h => absurd h h2.ne⟩
  · split
    · rename_i h
      have h2 : 1 / 2 < (r : ℚ) / d := by rw [div_lt_div_iff₀ (by norm_num) hd']; exact_mod_cast (by omega : 1 * d < r * 2)
      have h3 : (r : ℚ) / d < 1 := by rw [div_lt_one hd']; exact_mod_cast hr
      have : ((q + 1 : Nat) : ℚ) - (n : ℚ) / d = 1 - (r : ℚ) / d := by rw [hdm]; push_cast; ring
      rw [this, abs_of_nonneg (by linarith)]
      exact ⟨by linarith, fun h => by linarith⟩
    · rename_i h1 h2
      have h3 : (r : ℚ) / d = 1 / 2 := by rw [div_eq_div_iff hd'.ne' (by norm_num)]; exact_mod_cast (by omega : r * 2 = 1 * d)
      obtain hq | hq := Nat.mod_two_eq_zero_or_one q
      · rw [hq, add_zero]
        have : (q : ℚ) - (n : ℚ) / d = -(1 / 2) := by rw [hdm, h3]; ring
        rw [this]; exact ⟨by norm_num, fun _ => hq⟩
      · rw [hq]
        have : ((q + 1 : Nat) : ℚ) - (n : ℚ) / d = 1 / 2 := by rw [hdm, h3]; push_cast; ring
        rw [this]; exact ⟨by norm_num, fun _ => by omega⟩

/-! ## The rounded bits -/

/-- The exact value of the magnitude bits of a finite value. -/
def magVal (f : BinaryFormat) (mag : Nat) : ℚ := (significand f mag : ℚ) * 2 ^ ulpExponent f mag

/-- The exponent of the significand's leading place, and the significand, of the rounding of `n / d`. -/
def roundExp (f : BinaryFormat) (n d : Nat) : Int := max (floorLog2 n d) f.emin
def roundSig (f : BinaryFormat) (n d : Nat) : Nat :=
  roundHalfEven (scaleNum n ((f.p : Int) - 1 - roundExp f n d)) (scaleDen d ((f.p : Int) - 1 - roundExp f n d))
def roundBits (f : BinaryFormat) (n d : Nat) : Nat :=
  (roundExp f n d - f.emin).toNat * 2 ^ (f.p - 1) + roundSig f n d

theorem roundMagnitude_eq (f : BinaryFormat) {n : Nat} (hn : 0 < n) (d : Nat) :
    roundMagnitude f n d = min (roundBits f n d) f.inf := by
  unfold roundMagnitude; rw [if_neg (by omega)]; rfl

theorem emin_le_roundExp (f : BinaryFormat) (n d : Nat) : f.emin ≤ roundExp f n d := le_max_right _ _

/-- The rounded significand against the exact one. -/
theorem roundSig_spec (f : BinaryFormat) {n d : Nat} (hd : 0 < d) :
    |(roundSig f n d : ℚ) - (n : ℚ) / d * 2 ^ ((f.p : Int) - 1 - roundExp f n d)| ≤ 1 / 2 ∧
    (|(roundSig f n d : ℚ) - (n : ℚ) / d * 2 ^ ((f.p : Int) - 1 - roundExp f n d)| = 1 / 2 → roundSig f n d % 2 = 0) := by
  have h := roundHalfEven_spec (scaleNum n ((f.p : Int) - 1 - roundExp f n d))
    (scaleDen_pos hd ((f.p : Int) - 1 - roundExp f n d))
  rw [scale_ratio n hd] at h
  exact h

theorem roundSig_le (f : BinaryFormat) {n d : Nat} (hn : 0 < n) (hd : 0 < d) : roundSig f n d ≤ 2 ^ f.p := by
  have h := (roundSig_spec f hd (n := n)).1
  have hx := (floorLog2_spec hn hd).2
  set k := (f.p : Int) - 1 - roundExp f n d with hk
  have hle : floorLog2 n d ≤ roundExp f n d := le_max_left _ _
  have hy : (n : ℚ) / d * 2 ^ k < 2 ^ (f.p : Int) := by
    calc (n : ℚ) / d * 2 ^ k < 2 ^ (floorLog2 n d + 1) * 2 ^ k := mul_lt_mul_of_pos_right hx (by positivity)
      _ = 2 ^ (floorLog2 n d + 1 + k) := (zpow_add₀ (by norm_num) _ _).symm
      _ ≤ 2 ^ (f.p : Int) := zpow_le_zpow_right₀ (by norm_num) (by omega)
  rw [zpow_natCast] at hy
  have h2 := (abs_le.mp h).2
  have : (roundSig f n d : ℚ) < (2 ^ f.p + 1 : Nat) := by push_cast; linarith
  have := Nat.cast_lt.mp this
  omega

theorem le_roundSig (f : BinaryFormat) (hp : 1 ≤ f.p) {n d : Nat} (hn : 0 < n) (hd : 0 < d)
    (he : f.emin ≤ floorLog2 n d) : 2 ^ (f.p - 1) ≤ roundSig f n d := by
  have h := (roundSig_spec f hd (n := n)).1
  have hx := (floorLog2_spec hn hd).1
  have hee : roundExp f n d = floorLog2 n d := max_eq_left he
  set k := (f.p : Int) - 1 - roundExp f n d with hk
  have hy : 2 ^ (((f.p - 1 : Nat)) : Int) ≤ (n : ℚ) / d * 2 ^ k := by
    calc (2 : ℚ) ^ (((f.p - 1 : Nat)) : Int) = 2 ^ (floorLog2 n d + k) := by congr 1; omega
      _ = 2 ^ floorLog2 n d * 2 ^ k := zpow_add₀ (by norm_num) _ _
      _ ≤ _ := mul_le_mul_of_nonneg_right hx (by positivity)
  rw [zpow_natCast] at hy
  have h2 := (abs_le.mp h).1
  have : ((2 ^ (f.p - 1) : Nat) : ℚ) < (roundSig f n d + 1 : Nat) := by push_cast; linarith
  have := Nat.cast_lt.mp this
  omega

theorem lt_floorLog2_of_lt {f : BinaryFormat} {n d : Nat} (h : f.emin < roundExp f n d) : f.emin ≤ floorLog2 n d := by
  unfold roundExp at h; omega

/-- The value of the rounded bits. -/
theorem magVal_roundBits (f : BinaryFormat) (hp : 1 ≤ f.p) {n d : Nat} (hn : 0 < n) (hd : 0 < d) :
    magVal f (roundBits f n d) = (roundSig f n d : ℚ) * 2 ^ (roundExp f n d - ((f.p : Int) - 1)) := by
  have hle := roundSig_le f hn hd
  have hge := le_roundSig f hp hn hd
  have he := emin_le_roundExp f n d
  have hlt := lt_floorLog2_of_lt (f := f) (n := n) (d := d)
  unfold magVal roundBits
  set e := roundExp f n d
  set m := roundSig f n d
  obtain ⟨E, hE⟩ := Int.eq_ofNat_of_zero_le (show 0 ≤ e - f.emin by omega)
  rw [hE, Int.toNat_natCast]
  obtain ⟨q, hq⟩ : ∃ q, f.p = q + 1 := ⟨f.p - 1, by omega⟩
  have hq' : f.p - 1 = q := by omega
  have hpow : 2 ^ f.p = 2 * 2 ^ q := by rw [hq, pow_succ]; ring
  have hpos : 0 < 2 ^ q := by positivity
  unfold significand ulpExponent
  simp only [hq'] at hge ⊢
  by_cases hm : m < 2 ^ q
  · have : E = 0 := by
      by_contra h0; exact absurd (hge (hlt (by omega))) (by omega)
    subst this
    have hd0 : (0 * 2 ^ q + m) / 2 ^ q = 0 := by rw [zero_mul, zero_add]; exact Nat.div_eq_of_lt hm
    rw [if_pos hd0, if_pos hd0, zero_mul, zero_add]
    congr 2; omega
  · have hm : 2 ^ q ≤ m := not_lt.mp hm
    by_cases hm2 : m < 2 * 2 ^ q
    · have hd1 : (E * 2 ^ q + m) / 2 ^ q = E + 1 := by
        rw [Nat.div_eq_of_lt_le] <;> ring_nf <;> ring_nf at hm2 hm <;> omega
      have hmod : (E * 2 ^ q + m) % 2 ^ q = m - 2 ^ q := by
        have := Nat.div_add_mod (E * 2 ^ q + m) (2 ^ q)
        rw [hd1] at this; ring_nf at this ⊢; omega
      rw [hd1, if_neg (by omega), if_neg (by omega), hmod]
      congr 2
      · omega
      · push_cast; omega
    · have hmeq : m = 2 * 2 ^ q := by omega
      have hd1 : (E * 2 ^ q + m) / 2 ^ q = E + 2 := by
        rw [hmeq, ← add_mul]; exact Nat.mul_div_cancel _ hpos
      have hmod : (E * 2 ^ q + m) % 2 ^ q = 0 := by
        rw [hmeq, ← add_mul]; exact Nat.mul_mod_left _ _
      rw [hd1, if_neg (by omega), if_neg (by omega), hmod, hmeq]
      push_cast
      rw [show f.emin - ((f.p : Int) - 1) + ((E : Int) + 2 - 1) = (e - ((f.p : Int) - 1)) + 1 by omega, zpow_add_one₀ (by norm_num)]
      ring

/-- In the normal range the rounding error is at most half a unit of the significand. -/
theorem round_relative_error (f : BinaryFormat) {n d : Nat} (hn : 0 < n) (hd : 0 < d)
    (he : (2 : ℚ) ^ f.emin ≤ (n : ℚ) / d) :
    |(roundSig f n d : ℚ) * 2 ^ (roundExp f n d - ((f.p : Int) - 1)) - (n : ℚ) / d| ≤ (n : ℚ) / d / 2 ^ f.p := by
  have hfl : f.emin ≤ floorLog2 n d := by
    have h2 := (floorLog2_spec hn hd).2
    by_contra h
    have : (2 : ℚ) ^ (floorLog2 n d + 1) ≤ 2 ^ f.emin := zpow_le_zpow_right₀ (by norm_num) (by omega)
    exact absurd (he.trans_lt h2) (not_lt.mpr this)
  have hee : roundExp f n d = floorLog2 n d := max_eq_left hfl
  have hx : (2 : ℚ) ^ roundExp f n d ≤ (n : ℚ) / d := by rw [hee]; exact (floorLog2_spec hn hd).1
  have h := (roundSig_spec f hd (n := n)).1
  have hk : ((f.p : Int) - 1 - roundExp f n d) = -(roundExp f n d - ((f.p : Int) - 1)) := by ring
  rw [hk, zpow_neg, ← div_eq_mul_inv] at h
  set u : ℚ := 2 ^ (roundExp f n d - ((f.p : Int) - 1)) with hu'
  have hu : 0 < u := by positivity
  have h3 : |(roundSig f n d : ℚ) * u - (n : ℚ) / d| = |(roundSig f n d : ℚ) - (n : ℚ) / d / u| * u := by
    rw [← abs_of_pos hu, ← abs_mul, abs_of_pos hu, sub_mul, div_mul_cancel₀ _ hu.ne']
  have hu2 : u = 2 ^ roundExp f n d * 2 / 2 ^ f.p := by
    rw [hu', show roundExp f n d - ((f.p : Int) - 1) = roundExp f n d + 1 - (f.p : Int) by ring,
      zpow_sub₀ (by norm_num), zpow_add_one₀ (by norm_num), zpow_natCast]
  rw [h3]
  calc _ ≤ 1 / 2 * u := mul_le_mul_of_nonneg_right h hu.le
    _ = 2 ^ roundExp f n d / 2 ^ f.p := by rw [hu2]; ring
    _ ≤ _ := by apply div_le_div_of_nonneg_right hx; positivity

/-! ## binary32 -/

/-- A finite binary32 value is its sign and its magnitude. -/
theorem val32_eq (b : F32) :
    val32 b = (if 0x80000000 ≤ b.toNat then -1 else 1) * magVal binary32 (b.toNat % 0x80000000) := by
  have h := scale_ratio (significand binary32 (b.toNat % 0x80000000)) (d := 1) one_pos
    (ulpExponent binary32 (b.toNat % 0x80000000))
  rw [Nat.cast_one, div_one] at h
  unfold val32 num32 den32 magVal
  rw [← h]
  split <;> push_cast <;> ring

theorem roundMagnitude_le (f : BinaryFormat) (n d : Nat) : roundMagnitude f n d ≤ f.inf := by
  unfold roundMagnitude; split
  · omega
  · exact min_le_right _ _

/-- The bits of a rounded value: the sign, then the magnitude. -/
theorem rne32_toNat (num : Int) (den : Nat) :
    (rne32 num den).toNat = (if num < 0 then 0x80000000 else 0) + roundMagnitude binary32 num.natAbs den := by
  have := roundMagnitude_le binary32 num.natAbs den
  have hi : binary32.inf = 0x7F800000 := rfl
  unfold rne32
  rw [BitVec.toNat_ofNat, Nat.mod_eq_of_lt]
  split <;> omega

theorem rne32_mag (num : Int) (den : Nat) : (rne32 num den).toNat % 0x80000000 = roundMagnitude binary32 num.natAbs den := by
  have := roundMagnitude_le binary32 num.natAbs den
  have hi : binary32.inf = 0x7F800000 := rfl
  rw [rne32_toNat]; split <;> omega

theorem rne32_zero (den : Nat) : rne32 0 den = 0 := rfl

/-- The exact value of a rounded one, where it is finite. -/
theorem val32_rne32 {num : Int} {den : Nat} (hnum : num ≠ 0) (hden : 0 < den) (hf : Finite32 (rne32 num den)) :
    val32 (rne32 num den) = (if num < 0 then -1 else 1) *
      ((roundSig binary32 num.natAbs den : ℚ) * 2 ^ (roundExp binary32 num.natAbs den - 23)) := by
  have hn : 0 < num.natAbs := by omega
  have hi : binary32.inf = 0x7F800000 := rfl
  have hle := roundMagnitude_le binary32 num.natAbs den
  rw [val32_eq, rne32_mag]
  rw [Finite32, rne32_mag, roundMagnitude_eq _ hn] at hf
  have hb : roundMagnitude binary32 num.natAbs den = roundBits binary32 num.natAbs den := by
    rw [roundMagnitude_eq _ hn]; omega
  rw [rne32_toNat, hb, magVal_roundBits binary32 (by decide) hn hden]
  rw [hb] at hle
  have : (0x80000000 ≤ (if num < 0 then 0x80000000 else 0) + roundBits binary32 num.natAbs den) ↔ num < 0 := by
    split <;> omega
  simp only [this]
  norm_num [binary32]

/-- The shape of a finite magnitude: less than `2^24` units, the unit no smaller than the smallest subnormal. -/
theorem magVal_shape (mag : Nat) : ∃ (s : Nat) (t : Int), magVal binary32 mag = s * 2 ^ t ∧ s < 2 ^ 24 ∧ -149 ≤ t := by
  refine ⟨significand binary32 mag, ulpExponent binary32 mag, rfl, ?_, ?_⟩
  · have hp : binary32.p - 1 = 23 := rfl
    unfold significand
    rw [hp]
    split <;> omega
  · have hp : binary32.p - 1 = 23 := rfl
    have hp' : (binary32.p : Int) = 24 := rfl
    have he : binary32.emin = -126 := rfl
    unfold ulpExponent
    rw [hp, hp', he]
    split <;> omega

/-- A rounded positive number is as near as any value on a binary grid no finer than the subnormal one; on a tie its
significand is even. -/
theorem roundSig_nearest {n d : Nat} (hn : 0 < n) (hd : 0 < d) (s : Nat) (t : Int) (hs : s < 2 ^ 24) (ht : -149 ≤ t) :
    let M := roundSig binary32 n d
    let u : ℚ := 2 ^ (roundExp binary32 n d - 23)
    |M * u - (n : ℚ) / d| ≤ |(s : ℚ) * 2 ^ t - (n : ℚ) / d| ∧
    (|M * u - (n : ℚ) / d| = |(s : ℚ) * 2 ^ t - (n : ℚ) / d| → (s : ℚ) * 2 ^ t = M * u ∨ M % 2 = 0) := by
  intro M u
  have hu : 0 < u := by positivity
  have spec := roundSig_spec binary32 hd (n := n)
  have hk : ((binary32.p : Int) - 1 - roundExp binary32 n d) = -(roundExp binary32 n d - 23) := by
    simp only [binary32]; ring
  rw [hk, zpow_neg, ← div_eq_mul_inv] at spec
  obtain ⟨h1, h2⟩ := spec
  set x := (n : ℚ) / d
  have hM : |(M : ℚ) - x / u| ≤ 1 / 2 := h1
  have scale : ∀ j : ℚ, |j * u - x| = |j - x / u| * u := by
    intro j
    rw [← abs_of_pos hu, ← abs_mul, abs_of_pos hu, sub_mul, div_mul_cancel₀ _ hu.ne']
  have grid : ∀ j : Nat, |(M : ℚ) * u - x| ≤ |(j : ℚ) * u - x| ∧ (|(M : ℚ) * u - x| = |(j : ℚ) * u - x| → j = M ∨ M % 2 = 0) := by
    intro j
    rw [scale, scale]
    by_cases hj : j = M
    · subst hj; exact ⟨le_refl _, fun _ => .inl rfl⟩
    · have hd1 : (1 : ℚ) ≤ |(j : ℚ) - M| := by
        have hz : (j : Int) - M ≠ 0 := by omega
        have := Int.one_le_abs hz
        have h3 : ((1 : Int) : ℚ) ≤ ((|(j : Int) - M| : Int) : ℚ) := by exact_mod_cast this
        push_cast at h3; exact h3
      have tri : |(j : ℚ) - M| ≤ |(j : ℚ) - x / u| + |(M : ℚ) - x / u| := by
        rw [abs_sub_comm (M : ℚ)]; exact abs_sub_le _ _ _
      refine ⟨mul_le_mul_of_nonneg_right (by linarith) hu.le, fun h => .inr (h2 ?_)⟩
      have h := mul_right_cancel₀ hu.ne' h
      have : |(M : ℚ) - x / u| = 1 / 2 := by linarith
      exact this
  by_cases htu : roundExp binary32 n d - 23 ≤ t
  · obtain ⟨j, hj⟩ := Int.eq_ofNat_of_zero_le (show 0 ≤ t - (roundExp binary32 n d - 23) by omega)
    have hw : (s : ℚ) * 2 ^ t = ((s * 2 ^ j : Nat) : ℚ) * u := by
      push_cast
      rw [mul_assoc, ← zpow_natCast, ← zpow_add₀ (by norm_num)]
      congr 2; omega
    rw [hw]
    exact ⟨(grid _).1, fun h => ((grid _).2 h).imp (fun h => by rw [h]) id⟩
  · have htu : t < roundExp binary32 n d - 23 := not_le.mp htu
    have he : binary32.emin ≤ floorLog2 n d := lt_floorLog2_of_lt (by have h0 : binary32.emin = -126 := rfl; omega)
    have hee : roundExp binary32 n d = floorLog2 n d := max_eq_left he
    have hx : (2 : ℚ) ^ roundExp binary32 n d ≤ x := by rw [hee]; exact (floorLog2_spec hn hd).1
    have hJ : ((2 ^ 23 : Nat) : ℚ) * u = 2 ^ roundExp binary32 n d := by
      have h0 : ((2 ^ 23 : Nat) : ℚ) = 2 ^ (23 : Int) := by norm_num
      rw [h0, ← zpow_add₀ (by norm_num)]; congr 1; ring
    have hw : (s : ℚ) * 2 ^ t < 2 ^ roundExp binary32 n d := by
      calc (s : ℚ) * 2 ^ t < 2 ^ (24 : Int) * 2 ^ t := by
            apply mul_lt_mul_of_pos_right _ (by positivity); exact_mod_cast hs
        _ = 2 ^ (24 + t) := (zpow_add₀ (by norm_num) _ _).symm
        _ ≤ 2 ^ roundExp binary32 n d := zpow_le_zpow_right₀ (by norm_num) (by omega)
    have hlt : |((2 ^ 23 : Nat) : ℚ) * u - x| < |(s : ℚ) * 2 ^ t - x| := by
      rw [hJ, abs_of_nonpos (by linarith), abs_of_nonpos (by linarith)]; linarith
    have := (grid (2 ^ 23)).1
    exact ⟨by linarith, fun h => by linarith⟩

theorem den32_pos (b : F32) : 0 < den32 b := scaleDen_pos one_pos _

/-- Nothing below `2^127` rounds to infinity. -/
theorem rne32_finite_of_lt {num : Int} {den : Nat} (hd : 0 < den) (h : (num.natAbs : ℚ) / den < 2 ^ (127 : Int)) : Finite32 (rne32 num den) := by
  rw [Finite32, rne32_mag]
  by_cases hz : num.natAbs = 0
  · rw [hz]; unfold roundMagnitude; rw [if_pos rfl]; norm_num
  have hn : 0 < num.natAbs := by omega
  rw [roundMagnitude_eq _ hn]
  have h1 := (floorLog2_spec hn hd).1
  have hfl : floorLog2 num.natAbs den < 127 := by
    by_contra hc
    have : (2 : ℚ) ^ (127 : Int) ≤ 2 ^ floorLog2 num.natAbs den := zpow_le_zpow_right₀ (by norm_num) (by omega)
    linarith
  have hm := roundSig_le binary32 hn hd
  have hp : binary32.p - 1 = 23 := rfl
  have hp' : binary32.p = 24 := rfl
  have h0 : binary32.emin = -126 := rfl
  have hre : roundExp binary32 num.natAbs den ≤ 126 := by unfold roundExp; omega
  rw [hp'] at hm
  unfold roundBits; rw [hp, h0]
  have : (roundExp binary32 num.natAbs den - -126).toNat ≤ 252 := by omega
  omega

/-- A raw sample is exact in binary32 (43_scaling_engine.md R117). -/
theorem val32_raw {raw : Int} (h : InI16 raw) : val32 (rne32 raw 1) = raw := by
  have hb : raw.natAbs ≤ 32768 := by simp only [InI16] at h; omega
  have hf : Finite32 (rne32 raw 1) := by
    apply rne32_finite_of_lt one_pos
    rw [Nat.cast_one, div_one]
    calc (raw.natAbs : ℚ) ≤ 32768 := by exact_mod_cast hb
      _ < _ := by norm_num
  by_cases hz : raw = 0
  · subst hz
    rw [rne32_zero, val32_eq]
    simp [magVal, significand]
  · have hn : 0 < raw.natAbs := by omega
    have := (roundSig_nearest hn one_pos raw.natAbs 0 (by omega) (by norm_num)).1
    simp only [Nat.cast_one, div_one, zpow_zero, mul_one, sub_self, abs_zero] at this
    have hw : (roundSig binary32 raw.natAbs 1 : ℚ) * 2 ^ (roundExp binary32 raw.natAbs 1 - 23) = raw.natAbs := by
      have := abs_nonpos_iff.mp this
      linarith
    rw [val32_rne32 hz one_pos hf, hw]
    split
    · have : raw = -(raw.natAbs : Int) := by omega
      rw [this]; simp
    · have : raw = (raw.natAbs : Int) := by omega
      rw [this]; simp

theorem val32_zero : val32 (0 : F32) = 0 := by
  unfold val32
  rw [show num32 (0 : F32) = 0 by decide]
  simp

/-- Setting the sign bit of a magnitude. -/
theorem eq_xor_sign {x y : F32} (h1 : x.toNat = y.toNat + 0x80000000) (h2 : y.toNat < 0x80000000) :
    x = y ^^^ 0x80000000 := by
  have hand : y &&& 0x80000000 = 0 := by
    ext i hi
    rw [← BitVec.getLsbD_eq_getElem, ← BitVec.getLsbD_eq_getElem, BitVec.getLsbD_and]
    by_cases h31 : i = 31
    · subst h31
      have : y.getLsbD 31 = false := by rw [BitVec.getLsbD]; exact Nat.testBit_lt_two_pow h2
      rw [this]; rfl
    · have : (0x80000000 : F32).getLsbD i = false := by
        have : i < 31 := by omega
        interval_cases i <;> rfl
      rw [this]; simp
  have hxor : y ^^^ 0x80000000 = y ||| 0x80000000 := by
    ext i hi
    have := congrArg (fun z => z.getLsbD i) hand
    simp only [BitVec.getLsbD_and] at this
    rw [← BitVec.getLsbD_eq_getElem, ← BitVec.getLsbD_eq_getElem, BitVec.getLsbD_or, BitVec.getLsbD_xor]
    revert this
    generalize y.getLsbD i = p
    generalize (0x80000000 : F32).getLsbD i = q
    intro h
    cases p <;> cases q <;> simp_all
  rw [hxor, ← BitVec.add_eq_or_of_and_eq_zero _ _ hand]
  apply BitVec.eq_of_toNat_eq
  rw [BitVec.toNat_add, h1]
  have : (0x80000000 : F32).toNat = 0x80000000 := rfl
  rw [this]
  omega

/-- Rounding treats both signs alike. -/
theorem rne32_neg (n : Int) (d : Nat) (h : n ≠ 0) : rne32 (-n) d = rne32 n d ^^^ 0x80000000 := by
  have h1 := rne32_toNat n d
  have h2 := rne32_toNat (-n) d
  have h3 := roundMagnitude_le binary32 n.natAbs d
  have hi : binary32.inf = 0x7F800000 := rfl
  rw [Int.natAbs_neg] at h2
  rcases lt_or_gt_of_ne h with h | h
  · rw [if_pos h] at h1
    rw [if_neg (by omega)] at h2
    have := eq_xor_sign (x := rne32 n d) (y := rne32 (-n) d) (by omega) (by omega)
    rw [this, BitVec.xor_assoc]
    simp
  · rw [if_neg (by omega)] at h1
    rw [if_pos (by omega)] at h2
    exact eq_xor_sign (by omega) (by omega)

/-! ## binary64 -/

/-- A finite binary64 value is its sign and its magnitude. -/
theorem num64_div_den64 (b : F64) :
    (num64 b : ℚ) / den64 b =
      (if 0x8000000000000000 ≤ b.toNat then -1 else 1) * magVal binary64 (b.toNat % 0x8000000000000000) := by
  have h := scale_ratio (significand binary64 (b.toNat % 0x8000000000000000)) (d := 1) one_pos
    (ulpExponent binary64 (b.toNat % 0x8000000000000000))
  rw [Nat.cast_one, div_one] at h
  unfold num64 den64 magVal
  rw [← h]
  split <;> push_cast <;> ring

theorem den64_pos (b : F64) : 0 < den64 b := scaleDen_pos one_pos _

theorem rne64_toNat (num : Int) (den : Nat) :
    (rne64 num den).toNat = (if num < 0 then 0x8000000000000000 else 0) + roundMagnitude binary64 num.natAbs den := by
  have := roundMagnitude_le binary64 num.natAbs den
  have hi : binary64.inf = 0x7FF0000000000000 := rfl
  unfold rne64
  rw [BitVec.toNat_ofNat, Nat.mod_eq_of_lt]
  split <;> omega

/-- The exact value of a rounded binary64 one that is not too large. -/
theorem num64_div_den64_rne64 {num : Int} {den : Nat} (hnum : num ≠ 0) (hden : 0 < den)
    (hlt : (num.natAbs : ℚ) / den < 2 ^ (1023 : Int)) :
    (num64 (rne64 num den) : ℚ) / den64 (rne64 num den) = (if num < 0 then -1 else 1) *
      ((roundSig binary64 num.natAbs den : ℚ) * 2 ^ (roundExp binary64 num.natAbs den - 52)) := by
  have hn : 0 < num.natAbs := by omega
  have hfl : floorLog2 num.natAbs den < 1023 := by
    have h1 := (floorLog2_spec hn hden).1
    by_contra hc
    have : (2 : ℚ) ^ (1023 : Int) ≤ 2 ^ floorLog2 num.natAbs den := zpow_le_zpow_right₀ (by norm_num) (by omega)
    exact absurd (h1.trans_lt hlt) (not_lt.mpr this)
  have hm := roundSig_le binary64 hn hden
  have hp : binary64.p - 1 = 52 := rfl
  have hp' : binary64.p = 53 := rfl
  have h0 : binary64.emin = -1022 := rfl
  have hi : binary64.inf = 0x7FF0000000000000 := rfl
  have hre : roundExp binary64 num.natAbs den ≤ 1022 := by unfold roundExp; omega
  rw [hp'] at hm
  have hle : roundBits binary64 num.natAbs den < binary64.inf := by
    unfold roundBits
    rw [hp, h0, hi]
    have : (roundExp binary64 num.natAbs den - -1022).toNat ≤ 2044 := by omega
    omega
  have hb : roundMagnitude binary64 num.natAbs den = roundBits binary64 num.natAbs den := by
    rw [roundMagnitude_eq _ hn]; exact min_eq_left hle.le
  have hlow : roundMagnitude binary64 num.natAbs den < 0x8000000000000000 := by
    rw [hb]; exact lt_of_lt_of_le hle (by rw [hi]; norm_num)
  have hmag : (rne64 num den).toNat % 0x8000000000000000 = roundBits binary64 num.natAbs den := by
    rw [rne64_toNat, ← hb]; split <;> omega
  rw [num64_div_den64, hmag, magVal_roundBits binary64 (by decide) hn hden, rne64_toNat]
  have : (0x8000000000000000 ≤ (if num < 0 then 0x8000000000000000 else 0) + roundMagnitude binary64 num.natAbs den) ↔
      num < 0 := by
    split <;> omega
  simp only [this]
  norm_num [binary64]

end Sys2Proof.Machine
end

