-- ==== Sys2Proof/Laws/State.lean ====
section
/-! SUPPORT. One lemma for each field after each update, so that no proof unfolds a record update. -/

namespace Sys2Proof.Machine

/-! The codec's exchanges are the two calls of the port, and a transport error is the one error entry. -/

@[simp] theorem readRegister_eq (reg : RegisterId) (s : State) :
    readRegister reg s = s.busWriteRead [reg.selector] 2 := rfl
@[simp] theorem writeRegister_eq (reg : RegisterId) (v : Word) (s : State) :
    writeRegister reg v s = s.busWrite [reg.selector, hiByte v, loByte v] := rfl
@[simp] theorem writeRegisterAnswer_eq (reg : RegisterId) (v : Word) (s : State) :
    s.writeRegisterAnswer reg v = s.writeAnswer [reg.selector, hiByte v, loByte v] := rfl
@[simp] theorem readWord_eq (reg : RegisterId) (s : State) :
    s.readWord reg = readResult (s.readAnswer [reg.selector] 2) := rfl
@[simp] theorem raiseTransport_eq (e : TErr) (s : State) : raiseTransport e s = raise (.errTransport e) s := rfl

/-! busWrite -/

@[simp] theorem busWrite_params (s : State) (bytes : List Byte) : (s.busWrite bytes).params = s.params := rfl
@[simp] theorem busWrite_addr (s : State) (bytes : List Byte) : (s.busWrite bytes).addr = s.addr := rfl
@[simp] theorem busWrite_port (s : State) (bytes : List Byte) : (s.busWrite bytes).port = s.port := rfl
@[simp] theorem busWrite_seq (s : State) (bytes : List Byte) : (s.busWrite bytes).seq = s.seq := rfl
@[simp] theorem busWrite_lat (s : State) (bytes : List Byte) : (s.busWrite bytes).lat = s.lat := rfl
@[simp] theorem busWrite_cacheValid (s : State) (bytes : List Byte) : (s.busWrite bytes).cacheValid = s.cacheValid := rfl
@[simp] theorem busWrite_cacheWord (s : State) (bytes : List Byte) : (s.busWrite bytes).cacheWord = s.cacheWord := rfl
@[simp] theorem busWrite_resp (s : State) (bytes : List Byte) : (s.busWrite bytes).resp = s.resp := rfl
@[simp] theorem busWrite_trace (s : State) (bytes : List Byte) : (s.busWrite bytes).trace = s.trace ++ [.w s.addr bytes (s.writeAnswer bytes)] := rfl
@[simp] theorem busWrite_responses (s : State) (bytes : List Byte) : (s.busWrite bytes).responses = s.responses := rfl
@[simp] theorem busWrite_now (s : State) (bytes : List Byte) : (s.busWrite bytes).now = s.now := rfl
@[simp] theorem busWrite_requests (s : State) (bytes : List Byte) : (s.busWrite bytes).requests = s.requests := rfl
@[simp] theorem busWrite_turns (s : State) (bytes : List Byte) : (s.busWrite bytes).turns = s.turns := rfl
@[simp] theorem busWrite_writeAnswers (s : State) (bytes : List Byte) : (s.busWrite bytes).writeAnswers = s.writeAnswers.tail := rfl
@[simp] theorem busWrite_readAnswers (s : State) (bytes : List Byte) : (s.busWrite bytes).readAnswers = s.readAnswers := rfl
@[simp] theorem busWrite_drawn (s : State) (bytes : List Byte) : (s.busWrite bytes).drawn = s.drawn + 1 := rfl

/-! busWriteRead -/

@[simp] theorem busWriteRead_params (s : State) (bytes : List Byte) (n : Nat) : (s.busWriteRead bytes n).params = s.params := rfl
@[simp] theorem busWriteRead_addr (s : State) (bytes : List Byte) (n : Nat) : (s.busWriteRead bytes n).addr = s.addr := rfl
@[simp] theorem busWriteRead_port (s : State) (bytes : List Byte) (n : Nat) : (s.busWriteRead bytes n).port = s.port := rfl
@[simp] theorem busWriteRead_seq (s : State) (bytes : List Byte) (n : Nat) : (s.busWriteRead bytes n).seq = s.seq := rfl
@[simp] theorem busWriteRead_lat (s : State) (bytes : List Byte) (n : Nat) : (s.busWriteRead bytes n).lat = s.lat := rfl
@[simp] theorem busWriteRead_cacheValid (s : State) (bytes : List Byte) (n : Nat) : (s.busWriteRead bytes n).cacheValid = s.cacheValid := rfl
@[simp] theorem busWriteRead_cacheWord (s : State) (bytes : List Byte) (n : Nat) : (s.busWriteRead bytes n).cacheWord = s.cacheWord := rfl
@[simp] theorem busWriteRead_resp (s : State) (bytes : List Byte) (n : Nat) : (s.busWriteRead bytes n).resp = s.resp := rfl
@[simp] theorem busWriteRead_trace (s : State) (bytes : List Byte) (n : Nat) : (s.busWriteRead bytes n).trace = s.trace ++ [.wr s.addr bytes n (s.readAnswer bytes n)] := rfl
@[simp] theorem busWriteRead_responses (s : State) (bytes : List Byte) (n : Nat) : (s.busWriteRead bytes n).responses = s.responses := rfl
@[simp] theorem busWriteRead_now (s : State) (bytes : List Byte) (n : Nat) : (s.busWriteRead bytes n).now = s.now := rfl
@[simp] theorem busWriteRead_requests (s : State) (bytes : List Byte) (n : Nat) : (s.busWriteRead bytes n).requests = s.requests := rfl
@[simp] theorem busWriteRead_turns (s : State) (bytes : List Byte) (n : Nat) : (s.busWriteRead bytes n).turns = s.turns := rfl
@[simp] theorem busWriteRead_writeAnswers (s : State) (bytes : List Byte) (n : Nat) : (s.busWriteRead bytes n).writeAnswers = s.writeAnswers := rfl
@[simp] theorem busWriteRead_readAnswers (s : State) (bytes : List Byte) (n : Nat) : (s.busWriteRead bytes n).readAnswers = s.readAnswers.tail := rfl
@[simp] theorem busWriteRead_drawn (s : State) (bytes : List Byte) (n : Nat) : (s.busWriteRead bytes n).drawn = s.drawn + 1 := rfl

/-! respond -/

@[simp] theorem respond_params (s : State) (r : Response) : (respond r s).params = s.params := rfl
@[simp] theorem respond_addr (s : State) (r : Response) : (respond r s).addr = s.addr := rfl
@[simp] theorem respond_port (s : State) (r : Response) : (respond r s).port = s.port := rfl
@[simp] theorem respond_seq (s : State) (r : Response) : (respond r s).seq = s.seq := rfl
@[simp] theorem respond_lat (s : State) (r : Response) : (respond r s).lat = s.lat := rfl
@[simp] theorem respond_cacheValid (s : State) (r : Response) : (respond r s).cacheValid = s.cacheValid := rfl
@[simp] theorem respond_cacheWord (s : State) (r : Response) : (respond r s).cacheWord = s.cacheWord := rfl
@[simp] theorem respond_resp (s : State) (r : Response) : (respond r s).resp = some r := rfl
@[simp] theorem respond_trace (s : State) (r : Response) : (respond r s).trace = s.trace := rfl
@[simp] theorem respond_responses (s : State) (r : Response) : (respond r s).responses = s.responses ++ [r] := rfl
@[simp] theorem respond_now (s : State) (r : Response) : (respond r s).now = s.now := rfl
@[simp] theorem respond_requests (s : State) (r : Response) : (respond r s).requests = s.requests := rfl
@[simp] theorem respond_turns (s : State) (r : Response) : (respond r s).turns = s.turns := rfl
@[simp] theorem respond_writeAnswers (s : State) (r : Response) : (respond r s).writeAnswers = s.writeAnswers := rfl
@[simp] theorem respond_readAnswers (s : State) (r : Response) : (respond r s).readAnswers = s.readAnswers := rfl
@[simp] theorem respond_drawn (s : State) (r : Response) : (respond r s).drawn = s.drawn := rfl

/-! clearLatches -/

@[simp] theorem clearLatches_params (s : State) : (clearLatches s).params = s.params := rfl
@[simp] theorem clearLatches_addr (s : State) : (clearLatches s).addr = s.addr := rfl
@[simp] theorem clearLatches_port (s : State) : (clearLatches s).port = s.port := rfl
@[simp] theorem clearLatches_seq (s : State) : (clearLatches s).seq = s.seq := rfl
@[simp] theorem clearLatches_lat (s : State) : (clearLatches s).lat = Latches.unwritten := rfl
@[simp] theorem clearLatches_cacheValid (s : State) : (clearLatches s).cacheValid = s.cacheValid := rfl
@[simp] theorem clearLatches_cacheWord (s : State) : (clearLatches s).cacheWord = s.cacheWord := rfl
@[simp] theorem clearLatches_resp (s : State) : (clearLatches s).resp = s.resp := rfl
@[simp] theorem clearLatches_trace (s : State) : (clearLatches s).trace = s.trace := rfl
@[simp] theorem clearLatches_responses (s : State) : (clearLatches s).responses = s.responses := rfl
@[simp] theorem clearLatches_now (s : State) : (clearLatches s).now = s.now := rfl
@[simp] theorem clearLatches_requests (s : State) : (clearLatches s).requests = s.requests := rfl
@[simp] theorem clearLatches_turns (s : State) : (clearLatches s).turns = s.turns := rfl
@[simp] theorem clearLatches_writeAnswers (s : State) : (clearLatches s).writeAnswers = s.writeAnswers := rfl
@[simp] theorem clearLatches_readAnswers (s : State) : (clearLatches s).readAnswers = s.readAnswers := rfl
@[simp] theorem clearLatches_drawn (s : State) : (clearLatches s).drawn = s.drawn := rfl

/-! raise -/

@[simp] theorem raise_params (s : State) (r : Response) : (raise r s).params = s.params := rfl
@[simp] theorem raise_addr (s : State) (r : Response) : (raise r s).addr = s.addr := rfl
@[simp] theorem raise_port (s : State) (r : Response) : (raise r s).port = s.port := rfl
@[simp] theorem raise_seq (s : State) (r : Response) : (raise r s).seq = .idle := rfl
@[simp] theorem raise_lat (s : State) (r : Response) : (raise r s).lat = Latches.unwritten := rfl
@[simp] theorem raise_cacheValid (s : State) (r : Response) : (raise r s).cacheValid = s.cacheValid := rfl
@[simp] theorem raise_cacheWord (s : State) (r : Response) : (raise r s).cacheWord = s.cacheWord := rfl
@[simp] theorem raise_resp (s : State) (r : Response) : (raise r s).resp = some r := rfl
@[simp] theorem raise_trace (s : State) (r : Response) : (raise r s).trace = s.trace := rfl
@[simp] theorem raise_responses (s : State) (r : Response) : (raise r s).responses = s.responses ++ [r] := rfl
@[simp] theorem raise_now (s : State) (r : Response) : (raise r s).now = s.now := rfl
@[simp] theorem raise_requests (s : State) (r : Response) : (raise r s).requests = s.requests := rfl
@[simp] theorem raise_turns (s : State) (r : Response) : (raise r s).turns = s.turns := rfl
@[simp] theorem raise_writeAnswers (s : State) (r : Response) : (raise r s).writeAnswers = s.writeAnswers := rfl
@[simp] theorem raise_readAnswers (s : State) (r : Response) : (raise r s).readAnswers = s.readAnswers := rfl
@[simp] theorem raise_drawn (s : State) (r : Response) : (raise r s).drawn = s.drawn := rfl

/-! cacheUpdate -/

@[simp] theorem cacheUpdate_params (s : State) (w : Word) : (cacheUpdate w s).params = s.params := by
  unfold cacheUpdate; split <;> rfl
@[simp] theorem cacheUpdate_addr (s : State) (w : Word) : (cacheUpdate w s).addr = s.addr := by
  unfold cacheUpdate; split <;> rfl
@[simp] theorem cacheUpdate_port (s : State) (w : Word) : (cacheUpdate w s).port = s.port := by
  unfold cacheUpdate; split <;> rfl
@[simp] theorem cacheUpdate_seq (s : State) (w : Word) : (cacheUpdate w s).seq = s.seq := by
  unfold cacheUpdate; split <;> rfl
@[simp] theorem cacheUpdate_lat (s : State) (w : Word) : (cacheUpdate w s).lat = s.lat := by
  unfold cacheUpdate; split <;> rfl
@[simp] theorem cacheUpdate_cacheValid (s : State) (w : Word) : (cacheUpdate w s).cacheValid = (s.params.cacheEnabled || s.cacheValid) := by
  unfold cacheUpdate; cases s.params.cacheEnabled <;> simp
@[simp] theorem cacheUpdate_cacheWord (s : State) (w : Word) : (cacheUpdate w s).cacheWord = if s.params.cacheEnabled then w else s.cacheWord := by
  unfold cacheUpdate; cases s.params.cacheEnabled <;> simp
@[simp] theorem cacheUpdate_resp (s : State) (w : Word) : (cacheUpdate w s).resp = s.resp := by
  unfold cacheUpdate; split <;> rfl
@[simp] theorem cacheUpdate_trace (s : State) (w : Word) : (cacheUpdate w s).trace = s.trace := by
  unfold cacheUpdate; split <;> rfl
@[simp] theorem cacheUpdate_responses (s : State) (w : Word) : (cacheUpdate w s).responses = s.responses := by
  unfold cacheUpdate; split <;> rfl
@[simp] theorem cacheUpdate_now (s : State) (w : Word) : (cacheUpdate w s).now = s.now := by
  unfold cacheUpdate; split <;> rfl
@[simp] theorem cacheUpdate_requests (s : State) (w : Word) : (cacheUpdate w s).requests = s.requests := by
  unfold cacheUpdate; split <;> rfl
@[simp] theorem cacheUpdate_turns (s : State) (w : Word) : (cacheUpdate w s).turns = s.turns := by
  unfold cacheUpdate; split <;> rfl
@[simp] theorem cacheUpdate_writeAnswers (s : State) (w : Word) : (cacheUpdate w s).writeAnswers = s.writeAnswers := by
  unfold cacheUpdate; split <;> rfl
@[simp] theorem cacheUpdate_readAnswers (s : State) (w : Word) : (cacheUpdate w s).readAnswers = s.readAnswers := by
  unfold cacheUpdate; split <;> rfl
@[simp] theorem cacheUpdate_drawn (s : State) (w : Word) : (cacheUpdate w s).drawn = s.drawn := by
  unfold cacheUpdate; split <;> rfl

/-! cacheInvalidate -/

@[simp] theorem cacheInvalidate_params (s : State) : (cacheInvalidate s).params = s.params := by
  unfold cacheInvalidate; split <;> rfl
@[simp] theorem cacheInvalidate_addr (s : State) : (cacheInvalidate s).addr = s.addr := by
  unfold cacheInvalidate; split <;> rfl
@[simp] theorem cacheInvalidate_port (s : State) : (cacheInvalidate s).port = s.port := by
  unfold cacheInvalidate; split <;> rfl
@[simp] theorem cacheInvalidate_seq (s : State) : (cacheInvalidate s).seq = s.seq := by
  unfold cacheInvalidate; split <;> rfl
@[simp] theorem cacheInvalidate_lat (s : State) : (cacheInvalidate s).lat = s.lat := by
  unfold cacheInvalidate; split <;> rfl
@[simp] theorem cacheInvalidate_cacheValid (s : State) : (cacheInvalidate s).cacheValid = (!s.params.cacheEnabled && s.cacheValid) := by
  unfold cacheInvalidate; cases s.params.cacheEnabled <;> simp
@[simp] theorem cacheInvalidate_cacheWord (s : State) : (cacheInvalidate s).cacheWord = s.cacheWord := by
  unfold cacheInvalidate; split <;> rfl
@[simp] theorem cacheInvalidate_resp (s : State) : (cacheInvalidate s).resp = s.resp := by
  unfold cacheInvalidate; split <;> rfl
@[simp] theorem cacheInvalidate_trace (s : State) : (cacheInvalidate s).trace = s.trace := by
  unfold cacheInvalidate; split <;> rfl
@[simp] theorem cacheInvalidate_responses (s : State) : (cacheInvalidate s).responses = s.responses := by
  unfold cacheInvalidate; split <;> rfl
@[simp] theorem cacheInvalidate_now (s : State) : (cacheInvalidate s).now = s.now := by
  unfold cacheInvalidate; split <;> rfl
@[simp] theorem cacheInvalidate_requests (s : State) : (cacheInvalidate s).requests = s.requests := by
  unfold cacheInvalidate; split <;> rfl
@[simp] theorem cacheInvalidate_turns (s : State) : (cacheInvalidate s).turns = s.turns := by
  unfold cacheInvalidate; split <;> rfl
@[simp] theorem cacheInvalidate_writeAnswers (s : State) : (cacheInvalidate s).writeAnswers = s.writeAnswers := by
  unfold cacheInvalidate; split <;> rfl
@[simp] theorem cacheInvalidate_readAnswers (s : State) : (cacheInvalidate s).readAnswers = s.readAnswers := by
  unfold cacheInvalidate; split <;> rfl
@[simp] theorem cacheInvalidate_drawn (s : State) : (cacheInvalidate s).drawn = s.drawn := by
  unfold cacheInvalidate; split <;> rfl

/-! latchOperands -/

@[simp] theorem latchOperands_params (s : State) (c : Channel) (g : GainRange) (r : DataRate) : (latchOperands c g r s).params = s.params := rfl
@[simp] theorem latchOperands_addr (s : State) (c : Channel) (g : GainRange) (r : DataRate) : (latchOperands c g r s).addr = s.addr := rfl
@[simp] theorem latchOperands_port (s : State) (c : Channel) (g : GainRange) (r : DataRate) : (latchOperands c g r s).port = s.port := rfl
@[simp] theorem latchOperands_seq (s : State) (c : Channel) (g : GainRange) (r : DataRate) : (latchOperands c g r s).seq = s.seq := rfl
@[simp] theorem latchOperands_lat (s : State) (c : Channel) (g : GainRange) (r : DataRate) : (latchOperands c g r s).lat = { s.lat with mux := some (muxOf c), gain := some g, rate := some r, word := some (readChannelWord s.params c g r) } := rfl
@[simp] theorem latchOperands_cacheValid (s : State) (c : Channel) (g : GainRange) (r : DataRate) : (latchOperands c g r s).cacheValid = s.cacheValid := rfl
@[simp] theorem latchOperands_cacheWord (s : State) (c : Channel) (g : GainRange) (r : DataRate) : (latchOperands c g r s).cacheWord = s.cacheWord := rfl
@[simp] theorem latchOperands_resp (s : State) (c : Channel) (g : GainRange) (r : DataRate) : (latchOperands c g r s).resp = s.resp := rfl
@[simp] theorem latchOperands_trace (s : State) (c : Channel) (g : GainRange) (r : DataRate) : (latchOperands c g r s).trace = s.trace := rfl
@[simp] theorem latchOperands_responses (s : State) (c : Channel) (g : GainRange) (r : DataRate) : (latchOperands c g r s).responses = s.responses := rfl
@[simp] theorem latchOperands_now (s : State) (c : Channel) (g : GainRange) (r : DataRate) : (latchOperands c g r s).now = s.now := rfl
@[simp] theorem latchOperands_requests (s : State) (c : Channel) (g : GainRange) (r : DataRate) : (latchOperands c g r s).requests = s.requests := rfl
@[simp] theorem latchOperands_turns (s : State) (c : Channel) (g : GainRange) (r : DataRate) : (latchOperands c g r s).turns = s.turns := rfl
@[simp] theorem latchOperands_writeAnswers (s : State) (c : Channel) (g : GainRange) (r : DataRate) : (latchOperands c g r s).writeAnswers = s.writeAnswers := rfl
@[simp] theorem latchOperands_readAnswers (s : State) (c : Channel) (g : GainRange) (r : DataRate) : (latchOperands c g r s).readAnswers = s.readAnswers := rfl
@[simp] theorem latchOperands_drawn (s : State) (c : Channel) (g : GainRange) (r : DataRate) : (latchOperands c g r s).drawn = s.drawn := rfl

/-! environment -/

@[simp] theorem environment_params (s : State) : (environment s).params = s.params := rfl
@[simp] theorem environment_addr (s : State) : (environment s).addr = s.addr := rfl
@[simp] theorem environment_port (s : State) : (environment s).port = s.port := rfl
@[simp] theorem environment_seq (s : State) : (environment s).seq = s.seq := rfl
@[simp] theorem environment_lat (s : State) : (environment s).lat = s.lat := rfl
@[simp] theorem environment_cacheValid (s : State) : (environment s).cacheValid = s.cacheValid := rfl
@[simp] theorem environment_cacheWord (s : State) : (environment s).cacheWord = s.cacheWord := rfl
@[simp] theorem environment_resp (s : State) : (environment s).resp = takeResponse s.nextTurn.take s.resp := rfl
@[simp] theorem environment_trace (s : State) : (environment s).trace = s.trace := rfl
@[simp] theorem environment_responses (s : State) : (environment s).responses = s.responses := rfl
@[simp] theorem environment_now (s : State) : (environment s).now = s.now + s.nextTurn.elapsed := rfl
@[simp] theorem environment_requests (s : State) : (environment s).requests = s.requests ++ s.nextTurn.present := rfl
@[simp] theorem environment_turns (s : State) : (environment s).turns = s.turns.tail := rfl
@[simp] theorem environment_writeAnswers (s : State) : (environment s).writeAnswers = s.writeAnswers := rfl
@[simp] theorem environment_readAnswers (s : State) : (environment s).readAnswers = s.readAnswers := rfl
@[simp] theorem environment_drawn (s : State) : (environment s).drawn = s.drawn + 1 := rfl

/-! A free move is `Config.turn` but for the time it takes. -/

@[simp] theorem freeTurn_take (s : State) : s.freeTurn.take = (Config.turn s.drawn).take := rfl
@[simp] theorem freeTurn_present (s : State) : s.freeTurn.present = (Config.turn s.drawn).present := rfl

/-! written -/

@[simp] theorem written_params (s : State) (bytes : List Byte) (a : WriteAnswer) : (s.written bytes a).params = s.params := rfl
@[simp] theorem written_addr (s : State) (bytes : List Byte) (a : WriteAnswer) : (s.written bytes a).addr = s.addr := rfl
@[simp] theorem written_port (s : State) (bytes : List Byte) (a : WriteAnswer) : (s.written bytes a).port = s.port := rfl
@[simp] theorem written_seq (s : State) (bytes : List Byte) (a : WriteAnswer) : (s.written bytes a).seq = s.seq := rfl
@[simp] theorem written_lat (s : State) (bytes : List Byte) (a : WriteAnswer) : (s.written bytes a).lat = s.lat := rfl
@[simp] theorem written_cacheValid (s : State) (bytes : List Byte) (a : WriteAnswer) : (s.written bytes a).cacheValid = s.cacheValid := rfl
@[simp] theorem written_cacheWord (s : State) (bytes : List Byte) (a : WriteAnswer) : (s.written bytes a).cacheWord = s.cacheWord := rfl
@[simp] theorem written_resp (s : State) (bytes : List Byte) (a : WriteAnswer) : (s.written bytes a).resp = s.resp := rfl
@[simp] theorem written_trace (s : State) (bytes : List Byte) (a : WriteAnswer) : (s.written bytes a).trace = s.trace ++ [.w s.addr bytes a] := rfl
@[simp] theorem written_responses (s : State) (bytes : List Byte) (a : WriteAnswer) : (s.written bytes a).responses = s.responses := rfl
@[simp] theorem written_now (s : State) (bytes : List Byte) (a : WriteAnswer) : (s.written bytes a).now = s.now := rfl
@[simp] theorem written_requests (s : State) (bytes : List Byte) (a : WriteAnswer) : (s.written bytes a).requests = s.requests := rfl
@[simp] theorem written_turns (s : State) (bytes : List Byte) (a : WriteAnswer) : (s.written bytes a).turns = s.turns := rfl
@[simp] theorem written_writeAnswers (s : State) (bytes : List Byte) (a : WriteAnswer) : (s.written bytes a).writeAnswers = s.writeAnswers.tail := rfl
@[simp] theorem written_readAnswers (s : State) (bytes : List Byte) (a : WriteAnswer) : (s.written bytes a).readAnswers = s.readAnswers := rfl
@[simp] theorem written_drawn (s : State) (bytes : List Byte) (a : WriteAnswer) : (s.written bytes a).drawn = s.drawn + 1 := rfl

/-! readBack -/

@[simp] theorem readBack_params (s : State) (sel : Byte) (a : ReadAnswer) : (s.readBack sel a).params = s.params := rfl
@[simp] theorem readBack_addr (s : State) (sel : Byte) (a : ReadAnswer) : (s.readBack sel a).addr = s.addr := rfl
@[simp] theorem readBack_port (s : State) (sel : Byte) (a : ReadAnswer) : (s.readBack sel a).port = s.port := rfl
@[simp] theorem readBack_seq (s : State) (sel : Byte) (a : ReadAnswer) : (s.readBack sel a).seq = s.seq := rfl
@[simp] theorem readBack_lat (s : State) (sel : Byte) (a : ReadAnswer) : (s.readBack sel a).lat = s.lat := rfl
@[simp] theorem readBack_cacheValid (s : State) (sel : Byte) (a : ReadAnswer) : (s.readBack sel a).cacheValid = s.cacheValid := rfl
@[simp] theorem readBack_cacheWord (s : State) (sel : Byte) (a : ReadAnswer) : (s.readBack sel a).cacheWord = s.cacheWord := rfl
@[simp] theorem readBack_resp (s : State) (sel : Byte) (a : ReadAnswer) : (s.readBack sel a).resp = s.resp := rfl
@[simp] theorem readBack_trace (s : State) (sel : Byte) (a : ReadAnswer) : (s.readBack sel a).trace = s.trace ++ [.wr s.addr [sel] 2 a] := rfl
@[simp] theorem readBack_responses (s : State) (sel : Byte) (a : ReadAnswer) : (s.readBack sel a).responses = s.responses := rfl
@[simp] theorem readBack_now (s : State) (sel : Byte) (a : ReadAnswer) : (s.readBack sel a).now = s.now := rfl
@[simp] theorem readBack_requests (s : State) (sel : Byte) (a : ReadAnswer) : (s.readBack sel a).requests = s.requests := rfl
@[simp] theorem readBack_turns (s : State) (sel : Byte) (a : ReadAnswer) : (s.readBack sel a).turns = s.turns := rfl
@[simp] theorem readBack_writeAnswers (s : State) (sel : Byte) (a : ReadAnswer) : (s.readBack sel a).writeAnswers = s.writeAnswers := rfl
@[simp] theorem readBack_readAnswers (s : State) (sel : Byte) (a : ReadAnswer) : (s.readBack sel a).readAnswers = s.readAnswers.tail := rfl
@[simp] theorem readBack_drawn (s : State) (sel : Byte) (a : ReadAnswer) : (s.readBack sel a).drawn = s.drawn + 1 := rfl

/-! failed -/

@[simp] theorem failed_params (s : State) (r : Response) : (s.failed r).params = s.params := rfl
@[simp] theorem failed_addr (s : State) (r : Response) : (s.failed r).addr = s.addr := rfl
@[simp] theorem failed_port (s : State) (r : Response) : (s.failed r).port = s.port := rfl
@[simp] theorem failed_seq (s : State) (r : Response) : (s.failed r).seq = .idle := rfl
@[simp] theorem failed_lat (s : State) (r : Response) : (s.failed r).lat = Latches.unwritten := rfl
@[simp] theorem failed_cacheValid (s : State) (r : Response) : (s.failed r).cacheValid = s.cacheValid := rfl
@[simp] theorem failed_cacheWord (s : State) (r : Response) : (s.failed r).cacheWord = s.cacheWord := rfl
@[simp] theorem failed_resp (s : State) (r : Response) : (s.failed r).resp = some r := rfl
@[simp] theorem failed_trace (s : State) (r : Response) : (s.failed r).trace = s.trace := rfl
@[simp] theorem failed_responses (s : State) (r : Response) : (s.failed r).responses = s.responses ++ [r] := rfl
@[simp] theorem failed_now (s : State) (r : Response) : (s.failed r).now = s.now := rfl
@[simp] theorem failed_requests (s : State) (r : Response) : (s.failed r).requests = s.requests := rfl
@[simp] theorem failed_turns (s : State) (r : Response) : (s.failed r).turns = s.turns := rfl
@[simp] theorem failed_writeAnswers (s : State) (r : Response) : (s.failed r).writeAnswers = s.writeAnswers := rfl
@[simp] theorem failed_readAnswers (s : State) (r : Response) : (s.failed r).readAnswers = s.readAnswers := rfl
@[simp] theorem failed_drawn (s : State) (r : Response) : (s.failed r).drawn = s.drawn := rfl

/-! answered -/

@[simp] theorem answered_params (s : State) (r : Response) : (s.answered r).params = s.params := rfl
@[simp] theorem answered_addr (s : State) (r : Response) : (s.answered r).addr = s.addr := rfl
@[simp] theorem answered_port (s : State) (r : Response) : (s.answered r).port = s.port := rfl
@[simp] theorem answered_seq (s : State) (r : Response) : (s.answered r).seq = s.seq := rfl
@[simp] theorem answered_lat (s : State) (r : Response) : (s.answered r).lat = s.lat := rfl
@[simp] theorem answered_cacheValid (s : State) (r : Response) : (s.answered r).cacheValid = s.cacheValid := rfl
@[simp] theorem answered_cacheWord (s : State) (r : Response) : (s.answered r).cacheWord = s.cacheWord := rfl
@[simp] theorem answered_resp (s : State) (r : Response) : (s.answered r).resp = some r := rfl
@[simp] theorem answered_trace (s : State) (r : Response) : (s.answered r).trace = s.trace := rfl
@[simp] theorem answered_responses (s : State) (r : Response) : (s.answered r).responses = s.responses ++ [r] := rfl
@[simp] theorem answered_now (s : State) (r : Response) : (s.answered r).now = s.now := rfl
@[simp] theorem answered_requests (s : State) (r : Response) : (s.answered r).requests = s.requests := rfl
@[simp] theorem answered_turns (s : State) (r : Response) : (s.answered r).turns = s.turns := rfl
@[simp] theorem answered_writeAnswers (s : State) (r : Response) : (s.answered r).writeAnswers = s.writeAnswers := rfl
@[simp] theorem answered_readAnswers (s : State) (r : Response) : (s.answered r).readAnswers = s.readAnswers := rfl
@[simp] theorem answered_drawn (s : State) (r : Response) : (s.answered r).drawn = s.drawn := rfl

/-! The operations in the terms of the statements. -/

theorem busWrite_eq_written (s : State) (bytes : List Byte) : s.busWrite bytes = s.written bytes (s.writeAnswer bytes) := rfl
theorem busWriteRead_eq_readBack (s : State) (sel : Byte) :
    s.busWriteRead [sel] 2 = s.readBack sel (s.readAnswer [sel] 2) := rfl
theorem respond_eq_answered (r : Response) (s : State) : respond r s = s.answered r := rfl
theorem raise_eq_failed (r : Response) (s : State) : raise r s = s.failed r := rfl
theorem cacheInvalidate_eq (s : State) :
    cacheInvalidate s = { s with cacheValid := !s.params.cacheEnabled && s.cacheValid } := by
  ext <;> simp
theorem cacheUpdate_eq (w : Word) (s : State) :
    cacheUpdate w s = { s with cacheValid := s.params.cacheEnabled || s.cacheValid,
                               cacheWord := if s.params.cacheEnabled then w else s.cacheWord } := by
  ext <;> simp

/-! Construction and reset (10_state.md R27). -/

@[simp] theorem construct_seq (p : Params) (b : PortBinding) : (State.construct p b).seq = .idle := rfl
@[simp] theorem construct_lat (p : Params) (b : PortBinding) : (State.construct p b).lat = Latches.unwritten := rfl
@[simp] theorem construct_resp (p : Params) (b : PortBinding) : (State.construct p b).resp = none := rfl
@[simp] theorem construct_trace (p : Params) (b : PortBinding) : (State.construct p b).trace = [] := rfl
@[simp] theorem construct_cacheValid (p : Params) (b : PortBinding) : (State.construct p b).cacheValid = false := rfl
@[simp] theorem construct_params (p : Params) (b : PortBinding) : (State.construct p b).params = p := rfl
@[simp] theorem construct_addr (p : Params) (b : PortBinding) : (State.construct p b).addr = p.devAddr := rfl

end Sys2Proof.Machine
end

