-- ==== Sys2Proof/Laws/Ops.lean ====
section
/-! SUPPORT. What each shared operation can do, said once (inversion lemmas); the provers cite these. -/

namespace Sys2Proof.Machine

/-! ## Reading a latch and a register -/

@[simp] theorem readLatch_some {α : Type} (n : LatchName) (v : α) (use : α → Result) :
    readLatch n (some v) use = use v := rfl
@[simp] theorem readLatch_none {α : Type} (n : LatchName) (use : α → Result) :
    readLatch n none use = .fault (.unwrittenRead n) := rfl

/-- A read latch holds a value wherever the step goes on. -/
theorem readLatch_next {α : Type} {n : LatchName} {l : Option α} {use : α → Result} {t : State}
    (h : readLatch n l use = .next t) : ∃ v, l = some v ∧ use v = .next t := by
  cases l with
  | none => cases h
  | some v => exact ⟨v, rfl, h⟩

@[simp] theorem readResult_two (hi lo : Byte) : readResult (.ok [hi, lo]) = .ok (hi ++ lo) := rfl
@[simp] theorem readResult_err (e : PortError) : readResult (.err e) = .error (.port e) := rfl

/-- An answer of another length is a short transfer (20_memory.md R31). -/
theorem readResult_short {bs : List Byte} (h : bs.length ≠ 2) : readResult (.ok bs) = .error .shortTransfer := by
  match bs, h with
  | [], _ => rfl
  | [_], _ => rfl
  | [_, _], h => exact absurd rfl h
  | _ :: _ :: _ :: _, _ => rfl

/-- The three things a 2-byte read can come to. -/
theorem readResult_cases (a : ReadAnswer) :
    (∃ hi lo, a = .ok [hi, lo] ∧ readResult a = .ok (hi ++ lo)) ∨
    (∃ bs, a = .ok bs ∧ bs.length ≠ 2 ∧ readResult a = .error .shortTransfer) ∨
    (∃ e, a = .err e ∧ readResult a = .error (.port e)) := by
  match a with
  | .err e => exact .inr (.inr ⟨e, rfl, rfl⟩)
  | .ok [] => exact .inr (.inl ⟨[], rfl, by decide, rfl⟩)
  | .ok [x] => exact .inr (.inl ⟨[x], rfl, by simp, rfl⟩)
  | .ok [hi, lo] => exact .inl ⟨hi, lo, rfl, rfl⟩
  | .ok (x :: y :: z :: r) => exact .inr (.inl ⟨_, rfl, by simp, rfl⟩)

/-! ## Two's complement, the joined bytes and the OS bit -/

/-- `to_i16` is the two's-complement value (40_register_codec.md R72). -/
theorem toI16_eq (w : Word) : toI16 w = w.toInt := by
  unfold toI16
  rw [BitVec.toInt_eq_toNat_cond]
  simp only [BitVec.lt_def]
  have : (0x8000 : Word).toNat = 32768 := rfl
  rw [this]
  split <;> split <;> omega

/-- A two's-complement value of 16 bits is in the range of an `i16` (00_scope.md R9). -/
theorem inI16_toInt (w : Word) : InI16 w.toInt := by
  have h1 := BitVec.le_toInt w
  have h2 := BitVec.toInt_lt (x := w)
  simp [InI16] at *
  omega

theorem inI16_toI16 (w : Word) : InI16 (toI16 w) := by rw [toI16_eq]; exact inI16_toInt w

/-- The OS bit of a joined word is bit 7 of its first byte (42_conversion_sequencer.md R103). -/
theorem osNotBusy_join (hi lo : Byte) : osNotBusy (hi ++ lo) = hi.getLsbD 7 := by
  unfold osNotBusy fOS
  have h : ∀ b : BitVec 1, decide (b = 1) = b.getLsbD 0 := by decide
  rw [h, BitVec.getLsbD_extractLsb']
  show (decide (0 < 1) && (hi ++ lo : BitVec (8 + 8)).getLsbD (15 + 0)) = _
  rw [BitVec.getLsbD_append]
  simp

/-! ## The codec -/

/-- A register write answers OK or raises the port's error, after its one exchange (40_register_codec.md R74). -/
theorem wreg_cases (reg : RegisterId) (v : Word) (s : State) :
    (s.writeRegisterAnswer reg v = .ok ∧ wreg reg v s = respond (.ok .none) (writeRegister reg v s)) ∨
    (∃ e, s.writeRegisterAnswer reg v = .err e ∧ wreg reg v s = raiseTransport (.port e) (writeRegister reg v s)) := by
  unfold wreg
  cases h : s.writeRegisterAnswer reg v with
  | ok => exact .inl ⟨rfl, rfl⟩
  | err e => exact .inr ⟨e, rfl, rfl⟩

/-- A register read answers the word or raises the failure, after its one exchange (40_register_codec.md R79). -/
theorem rreg_cases (reg : RegisterId) (s : State) :
    (∃ w, s.readWord reg = .ok w ∧ rreg reg s = respond (.ok (.u16 w)) (readRegister reg s)) ∨
    (∃ e, s.readWord reg = .error e ∧ rreg reg s = raiseTransport e (readRegister reg s)) := by
  unfold rreg
  cases h : s.readWord reg with
  | ok w => exact .inl ⟨w, rfl, rfl⟩
  | error e => exact .inr ⟨e, rfl, rfl⟩

/-! ## The sequencer -/

@[simp] theorem cacheSkip_latchOperands (w : Word) (c : Channel) (g : GainRange) (r : DataRate) (s : State) :
    cacheSkip w (latchOperands c g r s) = cacheSkip w s := rfl

/-- The step that accepts READ_CHANNEL (42_conversion_sequencer.md R99). -/
theorem startConversion_cases (c : Channel) (g : GainRange) (r : DataRate) (s : State) :
    (cacheSkip (readChannelWord s.params c g r) s = true ∧
      startConversion c g r s = { latchOperands c g r s with seq := .configWritten }) ∨
    (cacheSkip (readChannelWord s.params c g r) s = false ∧
      (latchOperands c g r s).writeRegisterAnswer .config (readChannelWord s.params c g r) = .ok ∧
      startConversion c g r s =
        { cacheUpdate (readChannelWord s.params c g r)
            (writeRegister .config (readChannelWord s.params c g r) (latchOperands c g r s)) with seq := .configWritten }) ∨
    (∃ e, cacheSkip (readChannelWord s.params c g r) s = false ∧
      (latchOperands c g r s).writeRegisterAnswer .config (readChannelWord s.params c g r) = .err e ∧
      startConversion c g r s =
        raiseTransport (.port e) (cacheInvalidate
          (writeRegister .config (readChannelWord s.params c g r) (latchOperands c g r s)))) := by
  unfold startConversion
  cases hs : cacheSkip (readChannelWord s.params c g r) s with
  | true => exact .inl ⟨rfl, by simp [hs]⟩
  | false =>
    cases ha : (latchOperands c g r s).writeRegisterAnswer .config (readChannelWord s.params c g r) with
    | ok => exact .inr (.inl ⟨rfl, rfl, by simp only [hs, ha, cacheSkip_latchOperands, Bool.false_eq_true, if_false]⟩)
    | err e => exact .inr (.inr ⟨e, rfl, rfl, by simp only [hs, ha, cacheSkip_latchOperands, Bool.false_eq_true, if_false]⟩)

/-- The result read (42_conversion_sequencer.md R102, R104). -/
theorem resultRead_cases (s : State) :
    (∃ w, s.readWord .conversion = .ok w ∧
      resultRead s = { readRegister .conversion s with
        lat := { s.lat with raw := some (toI16 w) }, seq := .resultAvailable }) ∨
    (∃ e, s.readWord .conversion = .error e ∧ resultRead s = raiseTransport e (readRegister .conversion s)) := by
  unfold resultRead
  cases h : s.readWord .conversion with
  | ok w => exact .inl ⟨w, rfl, rfl⟩
  | error e => exact .inr ⟨e, rfl, rfl⟩

/-- A status poll (42_conversion_sequencer.md R103). -/
theorem statusPoll_cases (s : State) :
    (∃ w, s.readWord .config = .ok w ∧ osNotBusy w = true ∧
      statusPoll s = { readRegister .config s with lat := { s.lat with ready := some true } }) ∨
    (∃ w, s.readWord .config = .ok w ∧ osNotBusy w = false ∧ statusPoll s = readRegister .config s) ∨
    (∃ e, s.readWord .config = .error e ∧ statusPoll s = raiseTransport e (readRegister .config s)) := by
  unfold statusPoll
  cases h : s.readWord .config with
  | ok w =>
    cases hb : osNotBusy w with
    | true => exact .inl ⟨w, rfl, hb, by simp [hb]⟩
    | false => exact .inr (.inl ⟨w, rfl, hb, by simp [hb]⟩)
  | error e => exact .inr (.inr ⟨e, rfl, rfl⟩)

/-! ## Every instruction goes on -/

/-- `exec` answers a next state for every operation in every state: no arm stops (60_exceptions.md R141). -/
theorem exec_next (i : Instr) (s : State) : ∃ t, exec i s = .next t := by
  cases i <;> exact ⟨_, rfl⟩

/-- Everything `exec` can do, by kind: READ_CHANNEL's first step, a register write (WREG.CFG after invalidating the
cache), a register read, a pure operation's response, a reserved op code's refusal. -/
theorem exec_cases {i : Instr} {s t : State} (h : exec i s = .next t) :
    (∃ sel c g r, i = .readChannel sel c g r ∧ t = startConversion c g r s) ∨
    (∃ reg v, i = wregOf reg v ∧ t = wreg reg v (if reg = .config then cacheInvalidate s else s)) ∨
    (∃ reg, i = rregOf reg ∧ t = rreg reg s) ∨
    (∃ d, t = respond (.ok d) s) ∨
    (∃ op, t = raise (.refused (.reservedOp op)) s) := by
  cases i <;> injection h with h <;> subst h
  case wregConv v => exact .inr (.inl ⟨.conversion, v, rfl, rfl⟩)
  case wregCfg v => exact .inr (.inl ⟨.config, v, rfl, rfl⟩)
  case wregLo v => exact .inr (.inl ⟨.lowThreshold, v, rfl, rfl⟩)
  case wregHi v => exact .inr (.inl ⟨.highThreshold, v, rfl, rfl⟩)
  case rregConv => exact .inr (.inr (.inl ⟨.conversion, rfl, rfl⟩))
  case rregCfg => exact .inr (.inr (.inl ⟨.config, rfl, rfl⟩))
  case rregLo => exact .inr (.inr (.inl ⟨.lowThreshold, rfl, rfl⟩))
  case rregHi => exact .inr (.inr (.inl ⟨.highThreshold, rfl, rfl⟩))
  case readChannel sel c g r => exact .inl ⟨sel, c, g, r, rfl, rfl⟩
  all_goals first
    | exact .inr (.inr (.inr (.inl ⟨_, rfl⟩)))
    | exact .inr (.inr (.inr (.inr ⟨_, rfl⟩)))

/-! ## One step of the block -/

/-- What one step of the block can do where it goes on (42_conversion_sequencer.md R98): accept a request, hold, or a
step of the sequencer. -/
theorem blockStep_cases {s t : State} (h : blockStep s = .next t) :
    (s.seq = .idle ∧ s.resp = none ∧ ∃ r rs, s.requests = r :: rs ∧ exec (decode r) { s with requests := rs } = .next t) ∨
    (s.seq = .idle ∧ (s.resp ≠ none ∨ s.requests = []) ∧ t = s) ∨
    (s.seq = .configWritten ∧
      t = { s with lat := { s.lat with t0 := some s.now, ready := some false }, seq := .converting }) ∨
    (s.seq = .converting ∧ s.params.waitPolicy = .fixedDelay ∧ ∃ t0 rate, s.lat.t0 = some t0 ∧ s.lat.rate = some rate ∧
      ((waited s t0 (s.params.waitUs rate) = true ∧ t = resultRead s) ∨
       (waited s t0 (s.params.waitUs rate) = false ∧ t = s))) ∨
    (s.seq = .converting ∧ s.params.waitPolicy = .pollStatus ∧ s.lat.ready = some true ∧ t = resultRead s) ∨
    (s.seq = .converting ∧ s.params.waitPolicy = .pollStatus ∧ s.lat.ready = some false ∧
      ∃ t0 rate, s.lat.t0 = some t0 ∧ s.lat.rate = some rate ∧
      ((waited s t0 rate.minConvUs = true ∧ t = statusPoll s) ∨ (waited s t0 rate.minConvUs = false ∧ t = s))) ∨
    (s.seq = .resultAvailable ∧ ∃ raw gain, s.lat.raw = some raw ∧ s.lat.gain = some gain ∧
      t = respond (.ok (.f32 (scaleVolts s.params raw gain))) { clearLatches s with seq := .idle }) := by
  unfold blockStep at h
  cases hq : s.seq with
  | idle =>
    simp only [hq, accept] at h
    cases hr : s.resp with
    | some r => simp only [hr] at h; cases h; exact .inr (.inl ⟨rfl, .inl (by simp), rfl⟩)
    | none =>
      cases hl : s.requests with
      | nil => simp only [hr, hl] at h; cases h; exact .inr (.inl ⟨rfl, .inr rfl, rfl⟩)
      | cons r rs => simp only [hr, hl] at h; exact .inl ⟨rfl, rfl, r, rs, rfl, h⟩
  | configWritten =>
    simp only [hq, stepConfigWritten] at h
    cases h; exact .inr (.inr (.inl ⟨rfl, rfl⟩))
  | converting =>
    simp only [hq, stepConverting] at h
    cases hp : s.params.waitPolicy with
    | fixedDelay =>
      simp only [hp, stepFixedDelay] at h
      obtain ⟨t0, h0, h⟩ := readLatch_next h
      obtain ⟨rate, hrate, h⟩ := readLatch_next h
      refine .inr (.inr (.inr (.inl ⟨rfl, rfl, t0, rate, h0, hrate, ?_⟩)))
      cases hw : waited s t0 (s.params.waitUs rate) <;> simp only [hw] at h <;> cases h <;> simp
    | pollStatus =>
      simp only [hp, stepPollStatus] at h
      obtain ⟨ready, hready, h⟩ := readLatch_next h
      cases ready with
      | true =>
        simp only [if_true] at h; cases h
        exact .inr (.inr (.inr (.inr (.inl ⟨rfl, rfl, hready, rfl⟩))))
      | false =>
        simp only [Bool.false_eq_true, if_false] at h
        obtain ⟨t0, h0, h⟩ := readLatch_next h
        obtain ⟨rate, hrate, h⟩ := readLatch_next h
        refine .inr (.inr (.inr (.inr (.inr (.inl ⟨rfl, rfl, hready, t0, rate, h0, hrate, ?_⟩)))))
        cases hw : waited s t0 rate.minConvUs <;> simp only [hw] at h <;> cases h <;> simp
  | resultAvailable =>
    simp only [hq, stepResultAvailable] at h
    obtain ⟨raw, hraw, h⟩ := readLatch_next h
    obtain ⟨gain, hgain, h⟩ := readLatch_next h
    cases h
    exact .inr (.inr (.inr (.inr (.inr (.inr ⟨rfl, raw, gain, hraw, hgain, rfl⟩)))))

/-! ## The environment -/

@[simp] theorem takeResponse_none (b : Bool) : takeResponse b none = none := rfl

/-- A response that is still there after the environment's move was there before it. -/
theorem takeResponse_some {b : Bool} {o : Option Response} {r : Response} (h : takeResponse b o = some r) : o = some r := by
  cases o with
  | none => cases h
  | some x => cases b <;> simp [takeResponse] at h; simp [h]

/-- A listed move is the next one. -/
theorem nextTurn_listed {s : State} {t : Turn} {ts : List Turn} (h : s.turns = t :: ts) : s.nextTurn = t := by
  unfold State.nextTurn; rw [h]

/-- A free move leads time on once its draw has come (60_exceptions.md R135; log 20). -/
theorem free_elapsed_pos {s : State} (h : s.turns = []) (hd : Config.timeLeaves s.now ≤ s.drawn) :
    1 ≤ s.nextTurn.elapsed := by
  unfold State.nextTurn State.freeTurn; rw [h]
  simp only [hd, if_true]; omega

/-- Time reaches every bound, whatever the block does between the environment's moves: for any `next` that uses up the
listed moves and the draws and takes time on as `environment` does (60_exceptions.md R135). -/
theorem time_reaches (next : State → State) (hturns : ∀ s, (next s).turns = s.turns.tail)
    (hdrawn : ∀ s, s.drawn < (next s).drawn) (hnow : ∀ s, (next s).now = s.now + s.nextTurn.elapsed) (bound : Nat) :
    ∀ s, ∃ n, bound ≤ (next^[n] s).now := by
  have listed : ∀ k (s : State), s.turns.length ≤ k → ∃ n, (next^[n] s).turns = [] ∧ s.now ≤ (next^[n] s).now := by
    intro k
    induction k with
    | zero => exact fun s h => ⟨0, List.eq_nil_of_length_eq_zero (Nat.le_zero.mp h), le_refl _⟩
    | succ k ih =>
      intro s h
      obtain ⟨n, h1, h2⟩ := ih (next s) (by rw [hturns, List.length_tail]; omega)
      exact ⟨n + 1, h1, le_trans (by rw [hnow]; omega) h2⟩
  have leaves : ∀ k (s : State), s.turns = [] → Config.timeLeaves s.now ≤ s.drawn + k → ∃ n, s.now < (next^[n] s).now := by
    intro k
    induction k with
    | zero =>
      intro s h hd
      have := free_elapsed_pos h hd
      exact ⟨1, by show s.now < (next s).now; rw [hnow]; omega⟩
    | succ k ih =>
      intro s h hd
      by_cases hz : s.nextTurn.elapsed = 0
      · have hn : (next s).now = s.now := by rw [hnow, hz]; rfl
        obtain ⟨n, h1⟩ := ih (next s) (by rw [hturns, h]; rfl) (by rw [hn]; have := hdrawn s; omega)
        exact ⟨n + 1, by rw [hn] at h1; exact h1⟩
      · exact ⟨1, by show s.now < (next s).now; rw [hnow]; omega⟩
  induction bound with
  | zero => exact fun s => ⟨0, Nat.zero_le _⟩
  | succ b ih =>
    intro s
    obtain ⟨n, h1⟩ := ih s
    obtain ⟨m, h2, h3⟩ := listed _ (next^[n] s) (le_refl _)
    obtain ⟨k, h4⟩ := leaves (Config.timeLeaves (next^[m] (next^[n] s)).now) _ h2 (by omega)
    refine ⟨k + (m + n), ?_⟩
    rw [Function.iterate_add_apply, Function.iterate_add_apply]
    omega

/-- Time only goes on and the block's own state changes in `resp` alone. -/
theorem environment_now_le (s : State) : s.now ≤ (environment s).now := by simp

/-! ## Runs -/

@[simp] theorem runSteps_zero (s : State) : runSteps 0 s = .next s := rfl

/-- A run whose first step goes on, of any machine. -/
theorem run_of_next (M : Host.Core) (n : Nat) (s t : M.State) (h : M.step s = .next t) : M.run (n + 1) s = M.run n t := by
  rw [Host.Core.run, h]

/-- A run that faults at its first step, of any machine. -/
theorem run_of_fault (M : Host.Core) (n : Nat) (s : M.State) (f : M.Fault) (h : M.step s = .fault f) :
    M.run (n + 1) s = .fault f := by
  rw [Host.Core.run, h]

/-- A run whose first step goes on. -/
theorem runSteps_next {n : Nat} {s t : State} (h : step s = .next t) : runSteps (n + 1) s = runSteps n t :=
  run_of_next Sys2Proof.core n s t h

/-- A run that faults at its first step. -/
theorem runSteps_fault {n : Nat} {s : State} {f : Fault} (h : step s = .fault f) : runSteps (n + 1) s = .fault f :=
  run_of_fault Sys2Proof.core n s f h

/-- A latch read that ends in a refusal does so in its use. -/
theorem readLatch_refused {α : Type} {n : LatchName} {l : Option α} {use : α → Result} {x : Refusal}
    (h : readLatch n l use = .refused x) : ∃ v, use v = .refused x := by
  cases l with
  | none => cases h
  | some v => exact ⟨v, h⟩

/-- No step is a refusal (60_exceptions.md R141). -/
theorem blockStep_ne_refused (s : State) (x : Refusal) : blockStep s ≠ .refused x := by
  intro h
  unfold blockStep at h
  split at h
  · unfold accept at h
    split at h
    · obtain ⟨t, ht⟩ := exec_next (decode _) _
      rw [ht] at h
      cases h
    · cases h
    · cases h
  · cases h
  · unfold stepConverting at h
    split at h
    · obtain ⟨_, h⟩ := readLatch_refused h
      obtain ⟨_, h⟩ := readLatch_refused h
      split at h <;> simp at h
    · obtain ⟨_, h⟩ := readLatch_refused h
      split at h
      · simp at h
      · obtain ⟨_, h⟩ := readLatch_refused h
        obtain ⟨_, h⟩ := readLatch_refused h
        split at h <;> simp at h
  · obtain ⟨_, h⟩ := readLatch_refused h
    obtain ⟨_, h⟩ := readLatch_refused h
    cases h

end Sys2Proof.Machine
end

