-- ==== Sys2Proof/Laws/Moves.lean ====
section
/-! SUPPORT. Everything one step of the block can do where it goes on, each move written out as what becomes of the
state; the provers take a step apart with `blockStep_move` and never unfold it. -/

namespace Sys2Proof.Machine

/-- The state that has just accepted its first request (42_conversion_sequencer.md R96). -/
structure Accepts (s : State) (rs : List Request) : Prop where
  idle : s.seq = .idle
  free : s.resp = none
  line : ∃ r, s.requests = r :: rs

/-- The latches after READ_CHANNEL's first step (42_conversion_sequencer.md R99). -/
def operandLatches (s : State) (c : Channel) (g : GainRange) (r : DataRate) : Latches :=
  { s.lat with mux := some (muxOf c), gain := some g, rate := some r, word := some (readChannelWord s.params c g r) }

/-- The time guard under which a result read is made (42_conversion_sequencer.md R102, R104). -/
def MayRead (s : State) : Prop :=
  (s.params.waitPolicy = .fixedDelay ∧
    ∃ t0 rate, s.lat.t0 = some t0 ∧ s.lat.rate = some rate ∧ s.params.waitUs rate ≤ s.now - t0) ∨
  (s.params.waitPolicy = .pollStatus ∧ s.lat.ready = some true)

/-- The guard under which a status poll is made (42_conversion_sequencer.md R103). -/
def MayPoll (s : State) : Prop :=
  s.params.waitPolicy = .pollStatus ∧ s.lat.ready = some false ∧
    ∃ t0 rate, s.lat.t0 = some t0 ∧ s.lat.rate = some rate ∧ rate.minConvUs ≤ s.now - t0

/-- The cache-valid element after a WREG to `reg` (42_conversion_sequencer.md R113). -/
def validAfterWreg (s : State) (reg : RegisterId) : Bool :=
  if reg = .config ∧ s.params.cacheEnabled = true then false else s.cacheValid

/-- The moves of the block (42_conversion_sequencer.md R96 to R105; 60_exceptions.md R130). -/
inductive Move (s : State) : State → Prop where
  | hold (h : s.seq = .converting ∨ (s.seq = .idle ∧ (s.resp ≠ none ∨ s.requests = []))) : Move s s
  | pure {rs} (ha : Accepts s rs) (d : Data) : Move s ({ s with requests := rs }.answered (.ok d))
  | refuse {rs} (ha : Accepts s rs) (op : BitVec 4) :
      Move s ({ s with requests := rs }.failed (.refused (.reservedOp op)))
  | wrote {rs} (ha : Accepts s rs) (reg : RegisterId) (v : Word) :
      Move s (({ s with requests := rs, cacheValid := validAfterWreg s reg }.written (Frame.write reg v).bytes .ok).answered
        (.ok .none))
  | wroteErr {rs} (ha : Accepts s rs) (reg : RegisterId) (v : Word) (e : PortError) :
      Move s (({ s with requests := rs, cacheValid := validAfterWreg s reg }.written (Frame.write reg v).bytes
        (.err e)).failed (.errTransport (.port e)))
  | read {rs} (ha : Accepts s rs) (reg : RegisterId) (hi lo : Byte) :
      Move s (({ s with requests := rs }.readBack reg.selector (.ok [hi, lo])).answered (.ok (.u16 (hi ++ lo))))
  | readErr {rs} (ha : Accepts s rs) (reg : RegisterId) (a : ReadAnswer) (e : TErr)
      (hf : FailedWith (.wr s.addr [reg.selector] 2 a) e) :
      Move s (({ s with requests := rs }.readBack reg.selector a).failed (.errTransport e))
  | startSkipped {rs} (ha : Accepts s rs) (c : Channel) (g : GainRange) (r : DataRate)
      (hs : cacheSkip (readChannelWord s.params c g r) s = true) :
      Move s { s with requests := rs, lat := operandLatches s c g r, seq := .configWritten }
  | startWrote {rs} (ha : Accepts s rs) (c : Channel) (g : GainRange) (r : DataRate)
      (hs : cacheSkip (readChannelWord s.params c g r) s = false) :
      Move s { s.written (Frame.write .config (readChannelWord s.params c g r)).bytes .ok with
        requests := rs, lat := operandLatches s c g r, seq := .configWritten,
        cacheValid := s.params.cacheEnabled || s.cacheValid,
        cacheWord := if s.params.cacheEnabled then readChannelWord s.params c g r else s.cacheWord }
  | startErr {rs} (ha : Accepts s rs) (c : Channel) (g : GainRange) (r : DataRate) (e : PortError)
      (hs : cacheSkip (readChannelWord s.params c g r) s = false) :
      Move s ({ s.written (Frame.write .config (readChannelWord s.params c g r)).bytes (.err e) with
        requests := rs, cacheValid := !s.params.cacheEnabled && s.cacheValid }.failed (.errTransport (.port e)))
  | wait (hq : s.seq = .configWritten) :
      Move s { s with lat := { s.lat with t0 := some s.now, ready := some false }, seq := .converting }
  | sample (hq : s.seq = .converting) (hg : MayRead s) (hi lo : Byte) :
      Move s { s.readBack 0x00 (.ok [hi, lo]) with
        lat := { s.lat with raw := some (hi ++ lo).toInt }, seq := .resultAvailable }
  | sampleErr (hq : s.seq = .converting) (hg : MayRead s) (a : ReadAnswer) (e : TErr)
      (hf : FailedWith (.wr s.addr [0x00] 2 a) e) :
      Move s ((s.readBack 0x00 a).failed (.errTransport e))
  | pollReady (hq : s.seq = .converting) (hg : MayPoll s) (hi lo : Byte) (hb : hi.getLsbD 7 = true) :
      Move s { s.readBack 0x01 (.ok [hi, lo]) with lat := { s.lat with ready := some true } }
  | pollBusy (hq : s.seq = .converting) (hg : MayPoll s) (hi lo : Byte) (hb : hi.getLsbD 7 = false) :
      Move s (s.readBack 0x01 (.ok [hi, lo]))
  | pollErr (hq : s.seq = .converting) (hg : MayPoll s) (a : ReadAnswer) (e : TErr)
      (hf : FailedWith (.wr s.addr [0x01] 2 a) e) :
      Move s ((s.readBack 0x01 a).failed (.errTransport e))
  | deliver (hq : s.seq = .resultAvailable) {raw : Int} {gain : GainRange} (hr : s.lat.raw = some raw)
      (hg : s.lat.gain = some gain) :
      Move s { s.answered (.ok (.f32 (scaleVolts s.params raw gain))) with lat := Latches.unwritten, seq := .idle }

/-- What the answer to a 2-byte read makes of it, with the answer. -/
theorem readAnswer_cases (s : State) (reg : RegisterId) :
    (∃ hi lo, s.readAnswer [reg.selector] 2 = .ok [hi, lo] ∧ s.readWord reg = .ok (hi ++ lo) ∧
      readRegister reg s = s.readBack reg.selector (.ok [hi, lo])) ∨
    (∃ a e, s.readAnswer [reg.selector] 2 = a ∧ s.readWord reg = .error e ∧
      FailedWith (.wr s.addr [reg.selector] 2 a) e ∧ readRegister reg s = s.readBack reg.selector a) := by
  have hn : readRegister reg s = s.readBack reg.selector (s.readAnswer [reg.selector] 2) := rfl
  have hw : s.readWord reg = readResult (s.readAnswer [reg.selector] 2) := rfl
  rw [hn, hw]
  obtain ⟨hi, lo, h, hr⟩ | ⟨bs, h, hl, hr⟩ | ⟨e, h, hr⟩ := readResult_cases (s.readAnswer [reg.selector] 2)
  · exact .inl ⟨hi, lo, h, hr, by rw [h]⟩
  · exact .inr ⟨_, _, h, hr, ⟨hl, rfl⟩, by rw [h]⟩
  · exact .inr ⟨_, _, h, hr, rfl, by rw [h]⟩

/-- A result read is one of two moves. -/
theorem resultRead_move {s : State} (hq : s.seq = .converting) (hg : MayRead s) : Move s (resultRead s) := by
  unfold resultRead
  obtain ⟨hi, lo, _, hw, hn⟩ | ⟨a, e, _, hw, hf, hn⟩ := readAnswer_cases s .conversion
  · simp only [hw, hn, toI16_eq]
    exact .sample hq hg hi lo
  · simp only [hw, hn]
    exact .sampleErr hq hg a e hf

/-- A status poll is one of three moves. -/
theorem statusPoll_move {s : State} (hq : s.seq = .converting) (hg : MayPoll s) : Move s (statusPoll s) := by
  unfold statusPoll
  obtain ⟨hi, lo, _, hw, hn⟩ | ⟨a, e, _, hw, hf, hn⟩ := readAnswer_cases s .config
  · simp only [hw, hn, osNotBusy_join]
    cases hb : hi.getLsbD 7 with
    | true => exact .pollReady hq hg hi lo hb
    | false => exact .pollBusy hq hg hi lo hb
  · simp only [hw, hn]
    exact .pollErr hq hg a e hf

/-- The acceptance of a request is one of the moves that accept. -/
theorem exec_move {s t : State} {i : Instr} {rs : List Request} (ha : Accepts s rs)
    (h : exec i { s with requests := rs } = .next t) : Move s t := by
  obtain ⟨sel, c, g, r, rfl, rfl⟩ | ⟨reg, v, rfl, rfl⟩ | ⟨reg, rfl, rfl⟩ | ⟨d, rfl⟩ | ⟨op, rfl⟩ := exec_cases h
  · obtain ⟨hs, h⟩ | ⟨hs, hw, h⟩ | ⟨e, hs, hw, h⟩ := startConversion_cases c g r { s with requests := rs }
    · rw [h]
      exact .startSkipped ha c g r hs
    · rw [h, cacheUpdate_eq]
      have := Move.startWrote ha c g r hs
      convert this using 1
      ext <;> simp [← hw, State.written, operandLatches, Frame.bytes]; rfl
    · rw [h, cacheInvalidate_eq]
      have := Move.startErr ha c g r e hs
      convert this using 1
      ext <;> simp [← hw, State.written, State.failed, raise, Frame.bytes]
  · have hu : (if reg = .config then cacheInvalidate { s with requests := rs } else { s with requests := rs }) =
        { s with requests := rs, cacheValid := validAfterWreg s reg } := by
      unfold validAfterWreg
      rw [cacheInvalidate_eq]
      by_cases hr : reg = .config <;> cases s.params.cacheEnabled <;> simp [hr]
    rw [hu]
    obtain ⟨hw, h⟩ | ⟨e, hw, h⟩ := wreg_cases reg v { s with requests := rs, cacheValid := validAfterWreg s reg }
    · rw [h]
      have := Move.wrote ha reg v
      convert this using 1
      rw [← hw]
      rfl
    · rw [h]
      have := Move.wroteErr ha reg v e
      convert this using 1
      rw [← hw]
      rfl
  · unfold rreg
    obtain ⟨hi, lo, _, hw, hn⟩ | ⟨a, e, _, hw, hf, hn⟩ := readAnswer_cases { s with requests := rs } reg
    · simp only [hw, hn]
      exact .read ha reg hi lo
    · simp only [hw, hn]
      exact .readErr ha reg a e hf
  · exact .pure ha d
  · exact .refuse ha op

/-- Every step of the block that goes on is one of the moves. -/
theorem blockStep_move {s t : State} (h : blockStep s = .next t) : Move s t := by
  obtain ⟨hq, hr, r, rs, hl, h⟩ | ⟨hq, hr, rfl⟩ | ⟨hq, rfl⟩ | ⟨hq, hp, t0, rate, h0, hrate, h⟩ |
    ⟨hq, hp, hready, rfl⟩ | ⟨hq, hp, hready, t0, rate, h0, hrate, h⟩ | ⟨hq, raw, gain, hraw, hgain, rfl⟩ :=
      blockStep_cases h
  · exact exec_move ⟨hq, hr, r, hl⟩ h
  · exact .hold (.inr ⟨hq, hr⟩)
  · exact .wait hq
  · obtain ⟨hw, rfl⟩ | ⟨_, rfl⟩ := h
    · exact resultRead_move hq (.inl ⟨hp, t0, rate, h0, hrate, by simpa [waited] using hw⟩)
    · exact .hold (.inl hq)
  · exact resultRead_move hq (.inr ⟨hp, hready⟩)
  · obtain ⟨hw, rfl⟩ | ⟨_, rfl⟩ := h
    · exact statusPoll_move hq ⟨hp, hready, t0, rate, h0, hrate, by simpa [waited] using hw⟩
    · exact .hold (.inl hq)
  · exact .deliver hq hraw hgain

end Sys2Proof.Machine
end

