-- ==== Sys2Proof/Laws/PerInstr.lean ====
section
/-! SUPPORT. One lemma for each instruction: decoding its encoding gives it back (30_encoding.md R63, R64). -/

namespace Sys2Proof.Laws

/-- The fields of a header. -/
theorem header_op (op : BitVec 4) (sel : BitVec 2) (o : Operands) : Request.op ⟨header op sel, o⟩ = op := by
  simp only [Request.op]
  revert op sel
  decide

theorem header_sel (op : BitVec 4) (sel : BitVec 2) (o : Operands) : Request.sel ⟨header op sel, o⟩ = sel := by
  simp only [Request.sel]
  revert op sel
  decide

/-- An `i16` survives its operand slot. -/
theorem toInt_ofInt {raw : Int} (h : InI16 raw) : (BitVec.ofInt 16 raw).toInt = raw := by
  simp only [InI16] at h
  rw [BitVec.toInt_ofInt, Int.bmod_eq_of_le] <;> omega

end Sys2Proof.Laws

namespace Sys2Proof.Laws.Encoding

/-- No bit of the instruction's request is lost. -/
def Statement (i : Instr) : Prop := i.wf = true → decode (encode i) = i

theorem wregConv (v : Word) : Statement (.wregConv v) := by
  intro _
  simp only [encode, decode, header_op, header_sel]
  rfl
theorem wregCfg (v : Word) : Statement (.wregCfg v) := by
  intro _
  simp only [encode, decode, header_op, header_sel]
  rfl
theorem wregLo (v : Word) : Statement (.wregLo v) := by
  intro _
  simp only [encode, decode, header_op, header_sel]
  rfl
theorem wregHi (v : Word) : Statement (.wregHi v) := by
  intro _
  simp only [encode, decode, header_op, header_sel]
  rfl
theorem rregConv : Statement .rregConv := fun _ => rfl
theorem rregCfg : Statement .rregCfg := fun _ => rfl
theorem rregLo : Statement .rregLo := fun _ => rfl
theorem rregHi : Statement .rregHi := fun _ => rfl
theorem buildConfig (sel : BitVec 2) (mux : MuxSelector) (gain : GainRange) (rate : DataRate) (mode : Mode)
    (start : Bool) : Statement (.buildConfig sel mux gain rate mode start) := by
  intro _
  simp only [encode, decode, header_op, header_sel]
  rfl
theorem decodeConfig (sel : BitVec 2) (word : Word) : Statement (.decodeConfig sel word) := by
  intro _
  simp only [encode, decode, header_op, header_sel]
  rfl
theorem readChannel (sel : BitVec 2) (channel : Channel) (gain : GainRange) (rate : DataRate) :
    Statement (.readChannel sel channel gain rate) := by
  intro _
  simp only [encode, decode, header_op, header_sel]
  rfl
theorem scale (sel : BitVec 2) (raw : Int) (gain : GainRange) : Statement (.scale sel raw gain) := by
  intro h
  simp only [Instr.wf, decide_eq_true_eq] at h
  simp only [encode, decode, header_op, header_sel]
  show Instr.scale _ _ _ = _
  rw [toInt_ofInt h]
theorem scaleFixed (sel : BitVec 2) (raw : Int) (gain : GainRange) : Statement (.scaleFixed sel raw gain) := by
  intro h
  simp only [Instr.wf, decide_eq_true_eq] at h
  simp only [encode, decode, header_op, header_sel]
  show Instr.scaleFixed _ _ _ = _
  rw [toInt_ofInt h]
theorem enc16 (sel : BitVec 2) (v : Word) : Statement (.enc16 sel v) := by
  intro _
  simp only [encode, decode, header_op, header_sel]
  rfl
theorem dec16 (sel : BitVec 2) (hi lo : Byte) : Statement (.dec16 sel hi lo) := by
  intro _
  simp only [encode, decode, header_op, header_sel]
  rfl
theorem sext16 (sel : BitVec 2) (w : Word) : Statement (.sext16 sel w) := by
  intro _
  simp only [encode, decode, header_op, header_sel]
  rfl
theorem reservedOp0 (sel : BitVec 2) : Statement (.reservedOp0 sel) := by
  intro _
  simp only [encode, decode, header_op, header_sel]
  rfl
theorem reservedOpB (sel : BitVec 2) : Statement (.reservedOpB sel) := by
  intro _
  simp only [encode, decode, header_op, header_sel]
  rfl
theorem reservedOpC (sel : BitVec 2) : Statement (.reservedOpC sel) := by
  intro _
  simp only [encode, decode, header_op, header_sel]
  rfl
theorem reservedOpD (sel : BitVec 2) : Statement (.reservedOpD sel) := by
  intro _
  simp only [encode, decode, header_op, header_sel]
  rfl
theorem reservedOpE (sel : BitVec 2) : Statement (.reservedOpE sel) := by
  intro _
  simp only [encode, decode, header_op, header_sel]
  rfl
theorem reservedOpF (sel : BitVec 2) : Statement (.reservedOpF sel) := by
  intro _
  simp only [encode, decode, header_op, header_sel]
  rfl

end Sys2Proof.Laws.Encoding
end

