-- ==== Sys2Proof/Tests/Slice0.lean ====
section
/-! SUPPORT. Small tests. Every expected value is one of spec/95_test_vectors.md or written out from the rule named;
the witnesses show, for each statement with hypotheses, a state and operands that meet them. -/

namespace Sys2Proof.Tests
open Sys2Proof Sys2Proof.Machine

/-! ## Helpers -/

/-- The next state, where there is one. -/
def after : Result → Option State
  | .next s => some s
  | _ => none

/-- The response the operation leaves. -/
def answer (o : Result) : Option Response := (after o).bind (·.resp)

/-- A handle with `ADDR_SEL = 0` and `WAIT_MARGIN_US = 1000` (95_test_vectors.md §4). -/
def dev : State := State.construct (Params.defaults 0 1000) ⟨0⟩

/-- The same handle, with these answers of the port. -/
def bus (ws : List WriteAnswer) (rs : List ReadAnswer) : State := { dev with writeAnswers := ws, readAnswers := rs }

/-- The same handle with a cache, in CONTINUOUS mode. -/
def cached (valid : Bool) (w : Word) : State :=
  { dev with params := { dev.params with cacheEnabled := true, seqMode := .continuous }, cacheValid := valid,
             cacheWord := w, writeAnswers := [.ok] }

/-- The latches of READ_CHANNEL SE_0, PGA_4_096V, DR_128, single-shot. -/
def lat (t0 : Option Nat) (ready : Option Bool) (raw : Option Int) : Latches :=
  { mux := some .se0, gain := some .pga4096, rate := some .dr128, word := some 0xC383, t0 := t0, ready := ready, raw := raw }

/-- A handle converting since `now = 0`. -/
def converting (now : Nat) (ready : Bool) (rs : List ReadAnswer) : State :=
  { dev with seq := .converting, lat := lat (some 0) (some ready) none, now := now, readAnswers := rs }

/-- The same under POLL_STATUS. -/
def polling (now : Nat) (ready : Bool) (rs : List ReadAnswer) : State :=
  { converting now ready rs with params := { dev.params with waitPolicy := .pollStatus } }

/-- The environment's quiet move: time passes. -/
def tick (elapsed : Nat) : Turn := ⟨elapsed, false, []⟩

/-- A request READ_CHANNEL SE_0, PGA_4_096V, DR_128. -/
def readSe0 : Request := ⟨0x14, { Operands.zero with channel := .se0, gain := .pga4096, rate := .dr128 }⟩

/-- The one value of `E` whose name is known (log 8). -/
def e0 : PortError := ⟨0, .inl rfl⟩

/-! ## WellFormed: the one check refuses an i16 operand out of range (00_scope.md R9) -/

theorem test_wf_scale_high : (Instr.scale 0 32768 .pga6144).wf = false := by decide
theorem test_wf_scale_low : (Instr.scale 0 (-32769) .pga6144).wf = false := by decide
theorem test_wf_scaleFixed_high : (Instr.scaleFixed 0 32768 .pga6144).wf = false := by decide
theorem test_wf_scaleFixed_low : (Instr.scaleFixed 0 (-32769) .pga6144).wf = false := by decide

/-! ## Decode: headers written out bit by bit from `{op[3:0], sel[1:0]}` (30_encoding.md R63 to R66) -/

theorem test_decode_wregConv : decodeTableWord 8 0b000100 = some (.wregConv 0) := by decide
theorem test_decode_wregCfg : decodeTableWord 8 0b000101 = some (.wregCfg 0) := by decide
theorem test_decode_wregLo : decodeTableWord 8 0b000110 = some (.wregLo 0) := by decide
theorem test_decode_wregHi : decodeTableWord 8 0b000111 = some (.wregHi 0) := by decide
theorem test_decode_rregConv : decodeTableWord 8 0b001000 = some .rregConv := by decide
theorem test_decode_rregCfg : decodeTableWord 8 0b001001 = some .rregCfg := by decide
theorem test_decode_rregLo : decodeTableWord 8 0b001010 = some .rregLo := by decide
theorem test_decode_rregHi : decodeTableWord 8 0b001011 = some .rregHi := by decide
theorem test_decode_buildConfig :
    decode ⟨0b001111, { Operands.zero with mux := .se3, gain := .pga0256, rate := .dr860, mode := .singleShot, start := true }⟩ =
      .buildConfig 3 .se3 .pga0256 .dr860 .singleShot true := by decide
theorem test_decode_decodeConfig : decode ⟨0b010000, { Operands.zero with word := 0x4280 }⟩ = .decodeConfig 0 0x4280 := by
  decide
theorem test_decode_readChannel : decode readSe0 = .readChannel 0 .se0 .pga4096 .dr128 := by decide
theorem test_decode_scale :
    decode ⟨0b011000, { Operands.zero with raw := 0x8000, gain := .pga2048 }⟩ = .scale 0 (-32768) .pga2048 := by decide
theorem test_decode_scaleFixed :
    decode ⟨0b011110, { Operands.zero with raw := 0xFFFF, gain := .pga0512 }⟩ = .scaleFixed 2 (-1) .pga0512 := by decide
theorem test_decode_enc16 : decode ⟨0b100011, { Operands.zero with value := 0xFFFF }⟩ = .enc16 3 0xFFFF := by decide
theorem test_decode_dec16 : decode ⟨0b100100, { Operands.zero with hi := 0x12, lo := 0x34 }⟩ = .dec16 0 0x12 0x34 := by decide
theorem test_decode_sext16 : decode ⟨0b101000, { Operands.zero with w := 0x8001 }⟩ = .sext16 0 0x8001 := by decide
theorem test_decode_reservedOp0 : decodeTableWord 8 0b000011 = some (.reservedOp0 3) := by decide
theorem test_decode_reservedOpB : decodeTableWord 8 0b101100 = some (.reservedOpB 0) := by decide
theorem test_decode_reservedOpC : decodeTableWord 8 0b110000 = some (.reservedOpC 0) := by decide
theorem test_decode_reservedOpD : decodeTableWord 8 0b110101 = some (.reservedOpD 1) := by decide
theorem test_decode_reservedOpE : decodeTableWord 8 0b111010 = some (.reservedOpE 2) := by decide
theorem test_decode_reservedOpF : decodeTableWord 8 0b111111 = some (.reservedOpF 3) := by decide
/-- A word with a bit above bit 5 is no header. -/
theorem test_decode_seven_bits : decodeHeader 64 Operands.zero = .error (.notSixBits 64) := by decide
theorem test_decode_seven_bits_none : decodeTableWord 8 64 = none := by decide

/-! ## Frames (95_test_vectors.md S7, S10; 30_encoding.md R61, R67) -/

theorem test_frame_write : (Frame.write .config 0x4280).bytes = [0x01, 0x42, 0x80] := by decide
theorem test_frame_read : (Frame.read .highThreshold).bytes = [0x03] := by decide
theorem test_frame_selector_out_of_range :
    decodeFrame .write [0x04, 0, 0] = .error (.selectorOutOfRange 0x04) := by rfl
theorem test_frame_wrong_length : decodeFrame .write [0x01, 0x42] = .error .wrongLength := by rfl
theorem test_frame_wrong_read_length : decodeFrame (.writeThenRead 3) [0x00] = .error (.wrongReadLength 3) := by rfl

/-! ## The request text and the pseudo-operations (30_encoding.md R68, R69) -/

theorem test_text : asmText (.scale 0 (-4660) .pga4096) = some "SCALE -4660, PGA_4_096V" := by decide
theorem test_pseudo_wcfg : pseudoSecond (.wcfg .se0 .pga4096 .dr128 .singleShot true) (.ok (.u16 0xC383)) =
    some (.wregCfg 0xC383) := by decide

/-! ## Register Codec (95_test_vectors.md §2.1, §2.2) -/

theorem test_enc16 : answer (exec (.enc16 0 0x4280) dev) = some (.ok (.bytes 0x42 0x80)) := by decide
theorem test_dec16 : answer (exec (.dec16 0 0x34 0x12) dev) = some (.ok (.u16 0x3412)) := by decide
theorem test_sext16_min : answer (exec (.sext16 0 0x8000) dev) = some (.ok (.i16 (-32768))) := by decide
theorem test_sext16_max : answer (exec (.sext16 0 0x7FFF) dev) = some (.ok (.i16 32767)) := by decide
theorem test_wregConv : (after (exec (.wregConv 0x1234) (bus [.ok] []))).map (fun s => (s.trace, s.resp)) =
    some ([.w 0x48 [0x00, 0x12, 0x34] .ok], some (.ok .none)) := by decide
theorem test_wregCfg : (after (exec (.wregCfg 0xC383) (bus [.err e0] []))).map (fun s => (s.trace, s.resp)) =
    some ([.w 0x48 [0x01, 0xC3, 0x83] (.err e0)], some (.errTransport (.port e0))) := by decide
theorem test_wregCfg_addr : (after (exec (.wregCfg 0x4280)
    { State.construct (Params.defaults 3 0) ⟨0⟩ with writeAnswers := [.ok] })).map (·.trace) =
    some [.w 0x4B [0x01, 0x42, 0x80] .ok] := by decide
theorem test_wregLo : (after (exec (.wregLo 0x8000) (bus [.ok] []))).map (·.trace) =
    some [.w 0x48 [0x02, 0x80, 0x00] .ok] := by decide
theorem test_wregHi : (after (exec (.wregHi 0x7FFF) (bus [.ok] []))).map (·.trace) =
    some [.w 0x48 [0x03, 0x7F, 0xFF] .ok] := by decide
theorem test_rregConv : (after (exec .rregConv (bus [] [.ok [0x80, 0x00]]))).map (fun s => (s.trace, s.resp)) =
    some ([.wr 0x48 [0x00] 2 (.ok [0x80, 0x00])], some (.ok (.u16 0x8000))) := by decide
theorem test_rregCfg : (after (exec .rregCfg (bus [] [.ok []]))).map (fun s => (s.trace, s.resp)) =
    some ([.wr 0x48 [0x01] 2 (.ok [])], some (.errTransport .shortTransfer)) := by decide
theorem test_rregLo : (after (exec .rregLo (bus [] [.err e0]))).map (fun s => (s.trace, s.resp)) =
    some ([.wr 0x48 [0x02] 2 (.err e0)], some (.errTransport (.port e0))) := by decide
theorem test_rregHi : (after (exec .rregHi (bus [] [.ok [0x7F, 0xFF, 0x00]]))).map (fun s => (s.trace, s.resp)) =
    some ([.wr 0x48 [0x03] 2 (.ok [0x7F, 0xFF, 0x00])], some (.errTransport .shortTransfer)) := by decide

/-! ## Configuration Builder (95_test_vectors.md §2.3, §2.4) -/

theorem test_buildConfig : answer (exec (.buildConfig 0 .diff23 .pga0512 .dr475 .continuous false) dev) =
    some (.ok (.u16 0x38C3)) := by decide
theorem test_buildConfig_all_ones : answer (exec (.buildConfig 0 .se3 .pga0256 .dr860 .singleShot true) dev) =
    some (.ok (.u16 0xFBE3)) := by decide
theorem test_decodeConfig : answer (exec (.decodeConfig 0 0xE6A3) dev) =
    some (.ok (.fields ⟨true, .se2, some .pga1024, .continuous, .dr250, 0b00011⟩)) := by decide
theorem test_decodeConfig_no_gain : answer (exec (.decodeConfig 0 0x0C00) dev) =
    some (.ok (.fields ⟨false, .diff01, none, .continuous, .dr8, 0b00000⟩)) := by decide

/-! ## Scaling Engine (95_test_vectors.md §2.5, §2.6) -/

theorem test_scale : answer (exec (.scale 0 32767 .pga2048) dev) = some (.ok (.f32 0x40031169)) := by decide
theorem test_scale_f64 : answer (exec (.scale 0 (-4660) .pga4096)
    { dev with params := { dev.params with scaleNumerics := .f64ThenF32 } }) = some (.ok (.f32 0xBF151EB8)) := by decide
theorem test_scaleFixed : answer (exec (.scaleFixed 0 (-32768) .pga6144) dev) = some (.ok (.fixed (-201326592))) := by decide
theorem test_scaleFixed_small : answer (exec (.scaleFixed 0 4660 .pga0256) dev) = some (.ok (.fixed 1192960)) := by decide

/-! ## READ_CHANNEL (95_test_vectors.md §2.7, §2.8, P1, P2) -/

theorem test_readChannel_accepted : (after (exec (.readChannel 0 .se0 .pga4096 .dr128) (bus [.ok] []))).map
    (fun s => (s.trace, s.seq, s.lat, s.resp)) =
    some ([.w 0x48 [0x01, 0xC3, 0x83] .ok], .configWritten, lat none none none, none) := by decide
theorem test_readChannel_write_fails : (after (exec (.readChannel 0 .se1 .pga2048 .dr860) (bus [.err e0] []))).map
    (fun s => (s.trace, s.seq, s.lat, s.resp)) =
    some ([.w 0x48 [0x01, 0xD5, 0xE3] (.err e0)], .idle, Latches.unwritten, some (.errTransport (.port e0))) := by decide
theorem test_configWritten : (after (blockStep { dev with seq := .configWritten, lat := lat none none none, now := 9 })).map
    (fun s => (s.seq, s.lat)) = some (.converting, lat (some 9) (some false) none) := by decide
theorem test_wait_holds : after (blockStep (converting 8812 false [.ok [0x12, 0x34]])) =
    some (converting 8812 false [.ok [0x12, 0x34]]) := by decide
theorem test_result_read : (after (blockStep (converting 8813 false [.ok [0xED, 0xCC]]))).map
    (fun s => (s.trace, s.seq, s.lat.raw)) =
    some ([.wr 0x48 [0x00] 2 (.ok [0xED, 0xCC])], .resultAvailable, some (-4660)) := by decide
theorem test_result_read_fails : (after (blockStep (converting 8813 false [.err e0]))).map
    (fun s => (s.seq, s.lat, s.resp)) = some (.idle, Latches.unwritten, some (.errTransport (.port e0))) := by decide
theorem test_poll_not_yet : after (blockStep (polling 7812 false [.ok [0xC3, 0x83]])) =
    some (polling 7812 false [.ok [0xC3, 0x83]]) := by decide
theorem test_poll_not_busy : (after (blockStep (polling 7813 false [.ok [0xC3, 0x83]]))).map (fun s => (s.trace, s.lat.ready)) =
    some ([.wr 0x48 [0x01] 2 (.ok [0xC3, 0x83])], some true) := by decide
theorem test_poll_busy : (after (blockStep (polling 7813 false [.ok [0x43, 0x83]]))).map (fun s => (s.seq, s.lat.ready)) =
    some (.converting, some false) := by decide
theorem test_result_scaled : (after (blockStep { dev with
      seq := .resultAvailable, lat := lat (some 0) (some false) (some 4660) })).map (fun s => (s.seq, s.lat, s.resp)) =
    some (.idle, Latches.unwritten, some (.ok (.f32 0x3F151EB9))) := by decide

/-! ## Reserved op codes, held requests, reset (95_test_vectors.md §2.9, §2.10) -/

theorem test_reservedOp0 : answer (exec (.reservedOp0 3) dev) = some (.refused (.reservedOp 0x0)) := by decide
theorem test_reservedOpB : answer (exec (.reservedOpB 0) dev) = some (.refused (.reservedOp 0xB)) := by decide
theorem test_reservedOpC : answer (exec (.reservedOpC 0) dev) = some (.refused (.reservedOp 0xC)) := by decide
theorem test_reservedOpD : answer (exec (.reservedOpD 0) dev) = some (.refused (.reservedOp 0xD)) := by decide
theorem test_reservedOpE : answer (exec (.reservedOpE 0) dev) = some (.refused (.reservedOp 0xE)) := by decide
theorem test_reservedOpF : answer (exec (.reservedOpF 0) dev) = some (.refused (.reservedOp 0xF)) := by decide
theorem test_request_held : (after (step { dev with resp := some (.ok .none), requests := [readSe0], turns := [tick 0] })).map
    (fun s => (s.requests, s.trace)) = some ([readSe0], []) := by decide
theorem test_reset : State.reset.seq = .idle ∧ State.reset.lat = Latches.unwritten ∧ State.reset.cacheValid = false ∧
    State.reset.resp = none ∧ State.reset.trace = [] := by decide

/-! ## Witnesses of the hypotheses of the statements -/

theorem witness_DecodeInvertsEncode : (Instr.scale 3 (-32768) .pga0256).wf = true ∧ (Instr.scaleFixed 0 32767 .pga6144).wf = true := by
  decide
theorem witness_EveryHeaderHasExactlyItsRow : ∃ row ∈ opcodeTable, row.covers 0x3F = true := by decide
theorem witness_FramesRoundTrip : decodeFrame .write [0x03, 0x7F, 0xFF] = .ok (.write .highThreshold 0x7FFF) ∧
    decodeFrame (.writeThenRead 2) [0x00] = .ok (.read .conversion) := ⟨rfl, rfl⟩
theorem witness_SelectorsNameFourRegisters : (0x04 : Byte) ≤ 0x04 ∧ (0x04 : Byte) ≤ 0xFF := by decide
theorem witness_IgnoredSelChangesNothing :
    let r : Request := ⟨0x0C, Operands.zero⟩
    let r' : Request := ⟨0x0F, Operands.zero⟩
    r ≠ r' ∧ r.op = r'.op ∧ r.ops = r'.ops ∧ r.op ≠ 0x1 ∧ r.op ≠ 0x2 := by decide
/-- A header of each op code that a statement decodes, with the least and the greatest `sel`. -/
theorem witness_ops :
    (⟨0x04, Operands.zero⟩ : Request).op = 0x1 ∧ (⟨0x07, Operands.zero⟩ : Request).op = 0x1 ∧
    (⟨0x08, Operands.zero⟩ : Request).op = 0x2 ∧ (⟨0x0B, Operands.zero⟩ : Request).op = 0x2 ∧
    (⟨0x0F, Operands.zero⟩ : Request).op = 0x3 ∧ (⟨0x13, Operands.zero⟩ : Request).op = 0x4 ∧
    (⟨0x17, Operands.zero⟩ : Request).op = 0x5 ∧ (⟨0x18, Operands.zero⟩ : Request).op = 0x6 ∧
    (⟨0x1C, Operands.zero⟩ : Request).op = 0x7 ∧ (⟨0x23, Operands.zero⟩ : Request).op = 0x8 ∧
    (⟨0x24, Operands.zero⟩ : Request).op = 0x9 ∧ (⟨0x2B, Operands.zero⟩ : Request).op = 0xA := by decide
theorem witness_WregWritesOnceAndResponds :
    (bus [.ok] []).writeAnswer [0x02, 0x80, 0x00] = .ok ∧ (bus [.err e0] []).writeAnswer [0x00, 0x12, 0x34] = .err e0 := by decide
theorem witness_RregReadsOnceAndResponds :
    (bus [] [.ok [0x80, 0x00]]).readAnswer [0x00] 2 = .ok [0x80, 0x00] ∧
    (bus [] [.ok [0x7F]]).readAnswer [0x03] 2 = .ok [0x7F] ∧ ([0x7F] : List Byte).length ≠ 2 ∧
    (bus [] [.err e0]).readAnswer [0x01] 2 = .err e0 := by decide
theorem witness_RregReadsOnce_accepting : Accepting (bus [] [.err e0]) ∧ ∃ t, exec .rregCfg (bus [] [.err e0]) = .next t :=
  ⟨⟨rfl, rfl, rfl⟩, _, rfl⟩
theorem witness_DefaultCodes : dev.params.DefaultCodes := by decide
/-- The default tables are injective, and so is another choice of the tables. -/
theorem witness_Injective :
    dev.params.Injective ∧ { dev.params with modeCode := ⟨1, 0⟩ }.Injective ∧ ¬ { dev.params with modeCode := ⟨1, 0⟩ }.DefaultCodes := by
  refine ⟨⟨?_, ?_, ?_, ?_⟩, ⟨?_, ?_, ?_, ?_⟩, by decide⟩ <;> intro a b <;> cases a <;> cases b <;> decide
theorem witness_DecodeConfigResponds : fPGA 0x0A00 ≤ 0b101 ∧ 0b101 < fPGA 0x0C00 := by decide
theorem witness_ReadChannelAccepted :
    cacheSkip 0xC283 (cached true 0x4283) = true ∧ (cached true 0x4283).params.seqMode = .continuous ∧
    cacheSkip 0xC283 (cached true 0xC303) = false ∧ (cached true 0xC303).writeAnswer [0x01, 0xC2, 0x83] = .ok ∧
    cacheSkip 0xC383 (bus [.err e0] []) = false ∧ (bus [.err e0] []).writeAnswer [0x01, 0xC3, 0x83] = .err e0 := by decide
theorem witness_ConfigWrittenStartsTheWait : { dev with seq := .configWritten }.seq = Seq.configWritten := rfl
/-- At the boundary of the guard, on both sides (95_test_vectors.md §2.7). -/
theorem witness_FixedDelayReadsWhenWaited :
    let s := converting 8813 false [.ok [0x12, 0x34]]
    s.seq = .converting ∧ s.params.waitPolicy = .fixedDelay ∧ s.lat.t0 = some 0 ∧ s.lat.rate = some .dr128 ∧
    s.params.waitUs .dr128 ≤ 8813 - 0 ∧ 8812 - 0 < s.params.waitUs .dr128 ∧ s.readAnswer [0x00] 2 = .ok [0x12, 0x34] := by
  decide
theorem witness_ResultReadFails :
    (converting 8813 false [.ok [0x12]]).readAnswer [0x00] 2 = .ok [0x12] ∧
    (converting 8813 false [.err e0]).readAnswer [0x00] 2 = .err e0 := by decide
theorem witness_StatusPollOnceMinimumPassed :
    let s := polling 7813 false [.ok [0xC3, 0x83]]
    s.seq = .converting ∧ s.params.waitPolicy = .pollStatus ∧ s.lat.ready = some false ∧ s.lat.t0 = some 0 ∧
    s.lat.rate = some .dr128 ∧ DataRate.minConvUs .dr128 ≤ 7813 - 0 ∧ 7812 - 0 < DataRate.minConvUs .dr128 ∧
    s.readAnswer [0x01] 2 = .ok [0xC3, 0x83] ∧ (0xC3 : Byte).getLsbD 7 = true ∧ (0x43 : Byte).getLsbD 7 = false := by decide
theorem witness_StatusPollFails :
    (polling 7813 false [.ok []]).readAnswer [0x01] 2 = .ok [] ∧ (polling 7813 false [.err e0]).readAnswer [0x01] 2 = .err e0 := by
  decide
theorem witness_ReadyPollReadsResult :
    let s := polling 7813 true [.ok [0x12, 0x34]]
    s.seq = .converting ∧ s.params.waitPolicy = .pollStatus ∧ s.lat.ready = some true ∧
    s.readAnswer [0x00] 2 = .ok [0x12, 0x34] := by decide
theorem witness_ResultIsScaledAndDelivered :
    let s := { dev with seq := .resultAvailable, lat := lat (some 0) (some false) (some (-32768)) }
    s.seq = .resultAvailable ∧ s.lat.raw = some (-32768) ∧ s.lat.gain = some .pga4096 := by decide
/-- A state for each clause: no run from a constructed handle reaches one. -/
theorem witness_UnwrittenLatchReadFaults :
    ({ dev with seq := .resultAvailable }.lat.raw = none) ∧
    ({ dev with seq := .resultAvailable, lat := { Latches.unwritten with raw := some 1 } }.lat.raw ≠ none ∧
      { dev with seq := .resultAvailable, lat := { Latches.unwritten with raw := some 1 } }.lat.gain = none) ∧
    ((polling 0 false []).params.waitPolicy = .pollStatus ∧ { polling 0 false [] with lat := Latches.unwritten }.lat.ready = none) ∧
    ((converting 0 false []).params.waitPolicy = .fixedDelay ∧ { converting 0 false [] with lat := Latches.unwritten }.lat.t0 = none) ∧
    ({ polling 0 false [] with lat := { Latches.unwritten with t0 := some 0, ready := some false } }.lat.ready = some false ∧
      { polling 0 false [] with lat := { Latches.unwritten with t0 := some 0, ready := some false } }.lat.t0 ≠ none ∧
      { polling 0 false [] with lat := { Latches.unwritten with t0 := some 0, ready := some false } }.lat.rate = none) := by
  decide

/-- An idle handle with the request, the moves and the answers of program P1 (95_test_vectors.md §4). -/
def p1 : State :=
  { bus [.ok] [.ok [0x12, 0x34]] with requests := [readSe0], turns := [tick 0, tick 0, tick 8813, tick 0] }
theorem witness_Accepting : Accepting p1 := ⟨rfl, rfl, rfl⟩
theorem witness_FixedDelayRunIsTheProcedure :
    p1.params.waitPolicy = .fixedDelay ∧ p1.requests = readSe0 :: [] ∧ decode readSe0 = .readChannel 0 .se0 .pga4096 .dr128 ∧
    p1.turns = tick 0 :: tick 0 :: tick 8813 :: tick 0 :: [] ∧ p1.params.waitUs .dr128 ≤ (tick 8813).elapsed ∧
    p1.writeAnswers = .ok :: [] ∧ p1.readAnswers = .ok [0x12, 0x34] :: [] := by decide
/-- The same with every move of the environment free, the requests of others included. -/
theorem witness_FixedDelayRun_free_moves :
    let s := { p1 with turns := [] }
    (s.seq = .idle ∧ s.resp = none ∧ s.lat = Latches.unwritten) ∧ s.params.waitPolicy = .fixedDelay ∧
    s.requests = readSe0 :: [] ∧ s.writeAnswers = .ok :: [] ∧ s.readAnswers = .ok [0x12, 0x34] :: [] := by decide
/-- The procedure on P1: four steps, two exchanges, the voltage. -/
theorem test_procedure : readChannelProcedure p1 .se0 .pga4096 .dr128 .ok (.ok [0x12, 0x34]) =
    { steps := 4, exchanges := [.w 0x48 [0x01, 0xC3, 0x83] .ok, .wr 0x48 [0x00] 2 (.ok [0x12, 0x34])],
      response := .ok (.f32 0x3F151EB9), cacheValid := false, cacheWord := 0 } := by decide

/-- The same under POLL_STATUS, with a device busy for one poll. -/
def p6 : State :=
  { p1 with params := { dev.params with waitPolicy := .pollStatus }, turns := [tick 0, tick 0, tick 7813],
            readAnswers := [.ok [0x43, 0x83], .ok [0xC3, 0x83], .ok [0x12, 0x34]] }
theorem witness_PollingRunDeliversTheVoltage :
    (p6.seq = .idle ∧ p6.resp = none ∧ p6.lat = Latches.unwritten) ∧ p6.params.waitPolicy = .pollStatus ∧
    p6.requests = readSe0 :: [] ∧ decode readSe0 = .readChannel 0 .se0 .pga4096 .dr128 ∧
    configWord p6.params .se0 .pga4096 .dr128 p6.params.seqMode true = 0xC383 ∧ cacheSkip 0xC383 p6 = false ∧
    p6.turns = tick 0 :: tick 0 :: tick 7813 :: [] ∧ DataRate.minConvUs .dr128 ≤ (tick 7813).elapsed ∧ p6.writeAnswers = .ok :: [] ∧
    p6.readAnswers = [((0x43 : Byte), (0x83 : Byte))].map (fun b => .ok [b.1, b.2]) ++ .ok [0xC3, 0x83] :: .ok [0x12, 0x34] :: [] ∧
    (0x43 : Byte).getLsbD 7 = false ∧ (0xC3 : Byte).getLsbD 7 = true := by decide
/-- A cache skip (the word but for its OS bit is cached), a result read that fails and a poll that fails. -/
theorem witness_PollingRun_cases :
    (let s := { p6 with params := { (cached true 0).params with waitPolicy := .pollStatus }, cacheValid := true,
                        cacheWord := 0x4283 }
     configWord s.params .se0 .pga4096 .dr128 s.params.seqMode true = 0xC283 ∧ cacheSkip 0xC283 s = true) ∧
    [((0x43 : Byte), (0x83 : Byte))].map (fun b => ReadAnswer.ok [b.1, b.2]) ++ .ok [0xC3, 0x83] :: .ok [0x12] :: [] =
      [.ok [0x43, 0x83], .ok [0xC3, 0x83], .ok [0x12]] ∧
    FailedWith (.wr p6.addr [0x00] 2 (.ok [0x12])) .shortTransfer ∧ FailedWith (.wr p6.addr [0x01] 2 (.err e0)) (.port e0) :=
  ⟨by decide, rfl, ⟨by decide, rfl⟩, rfl⟩
theorem witness_BusyDeviceKeepsTheBlockPolling :
    let s := polling 7813 false [.ok [0x43, 0x83], .ok [0x03, 0x83]]
    s.seq = .converting ∧ s.params.waitPolicy = .pollStatus ∧ s.lat.ready = some false ∧ s.lat.t0 = some 0 ∧
    s.lat.rate = some .dr128 ∧
    s.readAnswers = [((0x43 : Byte), (0x83 : Byte)), (0x03, 0x83)].map (fun b => .ok [b.1, b.2]) ++ [] ∧
    2 ≤ [((0x43 : Byte), (0x83 : Byte)), (0x03, 0x83)].length ∧ (0x43 : Byte).getLsbD 7 = false ∧ (0x03 : Byte).getLsbD 7 = false := by
  decide
/-- One microsecond before the minimum time, with a quiet environment, and at it. -/
theorem witness_BusyDevice_boundary :
    (polling 7812 false [.ok [0x43, 0x83]]).now - 0 < DataRate.minConvUs .dr128 ∧
    DataRate.minConvUs .dr128 ≤ (polling 7813 false [.ok [0x43, 0x83]]).now - 0 := by decide

/-- A state in the middle of a conversion that meets the invariant. -/
theorem witness_Inv_converting : Inv (converting 8813 false [.ok [0x12, 0x34]]) :=
  { addr := by decide
    waiting := by decide
    latches := ⟨.se0, .pga4096, .dr128, 0, false, by decide, by decide, by decide⟩
    cacheAbsent := by decide
    cacheBuilt := fun h => by cases h }
/-- That state's next step makes an exchange. -/
theorem witness_NoExchangeBeforeMinimumConversion : ∃ t, blockStep (converting 8813 false [.ok [0x12, 0x34]]) = .next t ∧
    t.trace ≠ (converting 8813 false [.ok [0x12, 0x34]]).trace := ⟨_, rfl, by decide⟩
theorem witness_StepKeepsInvariant : Inv p1 ∧ ∃ t, step p1 = .next t :=
  ⟨⟨rfl, fun h => absurd rfl h, rfl, fun _ => rfl, fun h => by cases h⟩, _, rfl⟩

theorem witness_SingleShotAlwaysWritesConfig : dev.params.seqMode = .singleShot := rfl
/-- Two handles that differ in the cache alone. -/
theorem witness_CacheInvisibleInSingleShot :
    let s := { dev with params := { dev.params with cacheEnabled := true }, cacheValid := true, cacheWord := 0xC383 }
    s.params.seqMode = .singleShot ∧ s.withoutCache = dev.withoutCache ∧ s ≠ dev := by decide
theorem witness_CacheFollowsConfigWrites :
    (∃ t, exec (.readChannel 0 .se0 .pga4096 .dr128) (cached false 0) = .next t) ∧
    (∃ t, blockStep (converting 0 false []) = .next t) := ⟨⟨_, rfl⟩, ⟨_, rfl⟩⟩
theorem witness_CacheFollowsConfigWrites_cases :
    (cached false 0).params.cacheEnabled = true ∧ cacheSkip 0xC283 (cached false 0) = false ∧
    (cached false 0).writeAnswer [0x01, 0xC2, 0x83] = .ok ∧
    { cached true 0xD283 with writeAnswers := [.err e0] }.writeAnswer [0x01, 0xC2, 0x83] ≠ .ok ∧
    cacheSkip 0xC283 { cached true 0xD283 with writeAnswers := [.err e0] } = false ∧
    cacheSkip 0xC283 (cached true 0x4283) = true ∧ dev.params.cacheEnabled = false ∧ (converting 0 false []).seq ≠ .idle := by decide
theorem witness_OnlyWregCfgAlsoTouchesTheCache : (cached true 0xC283).params.cacheEnabled = true ∧
    ∃ t, exec (.wregLo 0) (cached true 0xC283) = .next t := ⟨rfl, _, rfl⟩
theorem witness_FirstReadChannelWritesConfig : (cached false 0xC283).cacheValid = false ∧
    ∃ t, exec (.sext16 0 0) (cached false 0xC283) = .next t := ⟨rfl, _, rfl⟩

/-- Rounding: a normal value, the least subnormal, the largest finite value and a tie. -/
theorem witness_RoundingIsNearestTiesToEven :
    rne32 256 1000 = 0x3E83126F ∧ Finite32 (rne32 256 1000) ∧
    rne32 1 (2 ^ 149) = 0x00000001 ∧ Finite32 (rne32 1 (2 ^ 149)) ∧
    rne32 (2 ^ 128 - 2 ^ 104) 1 = 0x7F7FFFFF ∧ Finite32 (rne32 (2 ^ 128 - 2 ^ 104) 1) ∧
    rne32 16777217 1 = rne32 16777216 1 ∧ Finite32 (rne32 16777217 1) := by decide
/-- Finite factors: full scale, and the largest finite value; no infinity. -/
theorem witness_Finite32 : Finite32 (fs32 .pga6144) ∧ Finite32 0x7F7FFFFF ∧ Finite32 0xFF7FFFFF ∧ ¬ Finite32 0x7F800000 := by
  decide
theorem witness_Scale_numerics : dev.params.scaleNumerics = .f32 ∧
    { dev.params with scaleNumerics := .f64ThenF32 }.scaleNumerics = .f64ThenF32 := ⟨rfl, rfl⟩
/-- The ends of the range of a raw sample. -/
theorem witness_InI16 : InI16 (-32768) ∧ InI16 32767 ∧ InI16 0 ∧ (InI16 (-32767) ∧ (-32767 : Int) ≠ -32768 ∧ (-32767 : Int) ≠ 0) := by
  decide
theorem witness_ScaleIsStrictlyMonotone : InI16 32766 ∧ InI16 32767 ∧ (32766 : Int) < 32767 := by decide
theorem witness_ReservedOpIsRefused :
    (⟨0x03, Operands.zero⟩ : Request).op = 0x0 ∧ 0xB ≤ (⟨0x2C, Operands.zero⟩ : Request).op ∧
    0xB ≤ (⟨0x3F, Operands.zero⟩ : Request).op := by decide
theorem witness_ErrorEndsTheOperation : ∃ t, blockStep (converting 8813 false [.ok [0x12]]) = .next t ∧
    t.responses = [.errTransport .shortTransfer] ∧ (Response.errTransport .shortTransfer).status ≠ .ok := ⟨_, rfl, by decide, by decide⟩
theorem witness_TransportErrorIsTheFailedExchange : ∃ t, blockStep (converting 8813 false [.err e0]) = .next t ∧
    t.responses ≠ (converting 8813 false [.err e0]).responses ∧ t.resp = some (.errTransport (.port e0)) ∧
    t.trace = (converting 8813 false [.err e0]).trace ++ [.wr 0x48 [0x00] 2 (.err e0)] ∧
    FailedWith (.wr 0x48 [0x00] 2 (.err e0)) (.port e0) := ⟨_, rfl, by decide, by decide, by decide, rfl⟩
theorem witness_ResponseWaitsUntilTaken :
    let s := { dev with resp := some (.ok .none), turns := [tick 3] }
    s.seq = .idle ∧ s.resp = some (.ok .none) ∧ s.nextTurn.take = false := by decide
/-- The two ways to be free: no response waits, or the requester takes it. -/
theorem witness_StepRunsTheDecodedRequest :
    (p1.seq = .idle ∧ p1.resp = none ∧ p1.requests ++ p1.nextTurn.present = readSe0 :: []) ∧
    (let s := { dev with resp := some (.ok .none), turns := [⟨0, true, [readSe0]⟩] }
     s.seq = .idle ∧ s.nextTurn.take = true ∧ s.requests ++ s.nextTurn.present = readSe0 :: []) := by decide
theorem witness_RequestsAcceptedOnlyWhenFree : (∃ t, blockStep p1 = .next t) ∧ p1.seq = .idle ∧
    ∃ t, exec (.enc16 0 0) p1 = .next t := ⟨⟨_, rfl⟩, rfl, _, rfl⟩
theorem witness_TraceOfBlock : TraceOfBlock { dev with trace := [.w 0x48 [0x01, 0x42, 0x80] .ok] } := by
  intro e he
  cases List.mem_singleton.mp he
  exact ⟨rfl, .config, 0x4280, rfl⟩
theorem witness_step_next : ∃ t, step p1 = .next t ∧ t.trace ≠ p1.trace := ⟨_, rfl, by decide⟩

/-- A table word presented to the machine after reset is the next request and is run (log 3). -/
theorem test_withFetchWord : decodeTableWord 8 0x28 = some (.sext16 0 0) ∧
    (State.reset.withFetchWord 8 0x28).requests = [tableRequest 0x28] ∧ (State.reset.withFetchWord 8 0x28).seq = .idle ∧
    (State.reset.withFetchWord 8 0x28).resp = none := by decide

/-- After reset the very next step runs it (log 3): SEXT16 of 0 responds 0. -/
theorem test_step_runs_the_placed_word : ∃ t, step (State.reset.withFetchWord 8 0x28) = .next t ∧
    t.resp = some (.ok (.i16 0)) ∧ t.requests = (environment (State.reset.withFetchWord 8 0x28)).requests.tail :=
  ⟨_, rfl, rfl, rfl⟩

end Sys2Proof.Tests
end

section
/-! The Register Codec (40_register_codec.md R70 to R86): its requests, its pure operations, its two exchanges. -/

namespace Sys2Proof.Machine

/-! ## The codec's requests (30_encoding.md R63, R66) -/

theorem decode_of_op_enc16 {r : Request} (hop : r.op = 0x8) : decode r = .enc16 r.sel r.ops.value := by
  simp only [decode, hop]
  rfl

theorem decode_of_op_dec16 {r : Request} (hop : r.op = 0x9) : decode r = .dec16 r.sel r.ops.hi r.ops.lo := by
  simp only [decode, hop]
  rfl

theorem decode_of_op_sext16 {r : Request} (hop : r.op = 0xA) : decode r = .sext16 r.sel r.ops.w := by
  simp only [decode, hop]
  rfl

/-- Every `sel` names a register (30_encoding.md R60). -/
theorem exists_registerId_code (sel : BitVec 2) : ∃ reg : RegisterId, reg.code = sel := by
  have four : ∀ c : BitVec 2, c = 0b00 ∨ c = 0b01 ∨ c = 0b10 ∨ c = 0b11 := by decide
  obtain rfl | rfl | rfl | rfl := four sel
  · exact ⟨.conversion, rfl⟩
  · exact ⟨.config, rfl⟩
  · exact ⟨.lowThreshold, rfl⟩
  · exact ⟨.highThreshold, rfl⟩

theorem decode_of_op_wreg {r : Request} {reg : RegisterId} (hop : r.op = 0x1) (hsel : reg.code = r.sel) :
    decode r = wregOf reg r.ops.value := by
  simp only [decode, hop, ← hsel]
  cases reg <;> rfl

theorem decode_of_op_rreg {r : Request} {reg : RegisterId} (hop : r.op = 0x2) (hsel : reg.code = r.sel) :
    decode r = rregOf reg := by
  simp only [decode, hop, ← hsel]
  cases reg <;> rfl

/-! ## The pure operations (40_register_codec.md R70 to R72) -/

theorem exec_enc16 (sel : BitVec 2) (v : Word) (s : State) :
    exec (.enc16 sel v) s = .next (s.answered (.ok (.bytes (hiByte v) (loByte v)))) := rfl

theorem exec_dec16 (sel : BitVec 2) (hi lo : Byte) (s : State) :
    exec (.dec16 sel hi lo) s = .next (s.answered (.ok (.u16 (joinBytes hi lo)))) := rfl

theorem exec_sext16 (sel : BitVec 2) (w : Word) (s : State) :
    exec (.sext16 sel w) s = .next (s.answered (.ok (.i16 (toI16 w)))) := rfl

/-- The joined word as a number: the low byte fits under the shifted high byte, so the or is the sum. -/
theorem joinBytes_toNat (hi lo : Byte) : (joinBytes hi lo).toNat = hi.toNat * 256 + lo.toNat := by
  have h : (joinBytes hi lo).toNat = hi.toNat <<< 8 ||| lo.toNat := BitVec.toNat_append hi lo
  rw [h, ← Nat.shiftLeft_add_eq_or_of_lt lo.isLt, Nat.shiftLeft_eq]

/-- `to_i16` with its comparison in natural numbers (40_register_codec.md R72). -/
theorem toI16_eq_ite_toNat (w : Word) :
    toI16 w = if w.toNat < 0x8000 then (w.toNat : Int) else (w.toNat : Int) - 0x10000 :=
  if_congr Iff.rfl rfl rfl

/-! ## WREG (40_register_codec.md R74; 42_conversion_sequencer.md R113) -/

theorem cacheInvalidate_eq_validAfterWreg (s : State) :
    cacheInvalidate s = { s with cacheValid := validAfterWreg s .config } := by
  rw [cacheInvalidate_eq, validAfterWreg]
  cases s.params.cacheEnabled <;> simp

/-- A register write is its one exchange on the state whose cache it has invalidated, if it does. -/
theorem exec_wregOf (reg : RegisterId) (v : Word) (s : State) :
    exec (wregOf reg v) s = .next (wreg reg v { s with cacheValid := validAfterWreg s reg }) := by
  cases reg with
  | config =>
    rw [← cacheInvalidate_eq_validAfterWreg]
    rfl
  | conversion => rfl
  | lowThreshold => rfl
  | highThreshold => rfl

theorem writeRegister_of_answer {reg : RegisterId} {v : Word} {s : State} {a : WriteAnswer}
    (h : s.writeAnswer (Frame.write reg v).bytes = a) :
    writeRegister reg v s = s.written (Frame.write reg v).bytes a := by
  rw [← h]
  exact busWrite_eq_written s _

theorem wreg_of_ok {reg : RegisterId} {v : Word} {s : State} (h : s.writeAnswer (Frame.write reg v).bytes = .ok) :
    wreg reg v s = (s.written (Frame.write reg v).bytes .ok).answered (.ok .none) := by
  have ha : s.writeRegisterAnswer reg v = .ok := h
  simp only [wreg, ha, writeRegister_of_answer h, respond_eq_answered]

theorem wreg_of_err {reg : RegisterId} {v : Word} {s : State} {e : PortError}
    (h : s.writeAnswer (Frame.write reg v).bytes = .err e) :
    wreg reg v s = (s.written (Frame.write reg v).bytes (.err e)).failed (.errTransport (.port e)) := by
  have ha : s.writeRegisterAnswer reg v = .err e := h
  simp only [wreg, ha, writeRegister_of_answer h, raiseTransport_eq, raise_eq_failed]

/-! ## RREG (40_register_codec.md R79) -/

theorem exec_rregOf (reg : RegisterId) (s : State) : exec (rregOf reg) s = .next (rreg reg s) := by
  cases reg <;> rfl

theorem readRegister_of_answer {reg : RegisterId} {s : State} {a : ReadAnswer}
    (h : s.readAnswer [reg.selector] 2 = a) : readRegister reg s = s.readBack reg.selector a := by
  rw [← h]
  exact busWriteRead_eq_readBack s _

theorem rreg_of_word {reg : RegisterId} {s : State} {a : ReadAnswer} {w : Word}
    (h : s.readAnswer [reg.selector] 2 = a) (hw : readResult a = .ok w) :
    rreg reg s = (s.readBack reg.selector a).answered (.ok (.u16 w)) := by
  have hr : s.readWord reg = .ok w := by rw [readWord_eq, h, hw]
  simp only [rreg, hr, readRegister_of_answer h, respond_eq_answered]

theorem rreg_of_failure {reg : RegisterId} {s : State} {a : ReadAnswer} {e : TErr}
    (h : s.readAnswer [reg.selector] 2 = a) (he : readResult a = .error e) :
    rreg reg s = (s.readBack reg.selector a).failed (.errTransport e) := by
  have hr : s.readWord reg = .error e := by rw [readWord_eq, h, he]
  simp only [rreg, hr, readRegister_of_answer h, raiseTransport_eq, raise_eq_failed]

/-- Where the latches are unwritten and `seq` is IDLE, the error entry sets what is set already. -/
theorem rreg_keeps_sequencer_and_cache {s : State} (hs : Accepting s) (reg : RegisterId) :
    (rreg reg s).lat = s.lat ∧ (rreg reg s).seq = s.seq ∧
      (rreg reg s).cacheValid = s.cacheValid ∧ (rreg reg s).cacheWord = s.cacheWord := by
  obtain ⟨w, _, hw⟩ | ⟨e, _, he⟩ := rreg_cases reg s
  · simp [hw]
  · simp [he, hs.idle, hs.clean]

/-! ## The statements -/

/-- Settles O12: one exchange, on the state whose cache-valid element is already the one after the write. -/
theorem wregWritesOnceAndResponds : Obligations.WregWritesOnceAndResponds := by
  refine ⟨fun r hop => ?_, fun reg value s => ⟨fun hok => ?_, fun e herr => ?_⟩⟩
  · obtain ⟨reg, hsel⟩ := exists_registerId_code r.sel
    exact ⟨reg, hsel, decode_of_op_wreg hop hsel⟩
  · rw [exec_wregOf, wreg_of_ok (s := { s with cacheValid := validAfterWreg s reg }) hok]
    rfl
  · rw [exec_wregOf, wreg_of_err (s := { s with cacheValid := validAfterWreg s reg }) herr]
    rfl

/-- Settles O13, by the three answers of the port and, on a state that accepts requests, by what the read keeps. -/
theorem rregReadsOnceAndResponds : Obligations.RregReadsOnceAndResponds := by
  refine ⟨fun r hop => ?_, fun reg s => ⟨fun hi lo hok => ?_, fun bs hok hlen => ?_, fun e herr => ?_,
    fun t hs hnext => ?_⟩⟩
  · obtain ⟨reg, hsel⟩ := exists_registerId_code r.sel
    exact ⟨reg, hsel, decode_of_op_rreg hop hsel⟩
  · rw [exec_rregOf, rreg_of_word hok (readResult_two hi lo)]
    rfl
  · rw [exec_rregOf, rreg_of_failure hok (readResult_short hlen)]
    rfl
  · rw [exec_rregOf, rreg_of_failure herr (readResult_err e)]
    rfl
  · rw [exec_rregOf] at hnext
    injection hnext with ht
    subst ht
    exact rreg_keeps_sequencer_and_cache hs reg

/-- Settles O8: the two bytes of the response are `hiByte` and `loByte` of the value. -/
theorem enc16Responds : Obligations.Enc16Responds :=
  ⟨fun _ hop => decode_of_op_enc16 hop, exec_enc16⟩

/-- Settles O9: the word is the two bytes joined. -/
theorem dec16Responds : Obligations.Dec16Responds :=
  ⟨fun _ hop => decode_of_op_dec16 hop,
    fun sel hi lo s => ⟨joinBytes hi lo, joinBytes_toNat hi lo, exec_dec16 sel hi lo s⟩⟩

/-- Settles O10: `to_i16` compares the word with 0x8000, the statement its number. -/
theorem sext16Responds : Obligations.Sext16Responds := by
  refine ⟨fun _ hop => decode_of_op_sext16 hop, fun sel w s => ?_⟩
  rw [exec_sext16, toI16_eq_ite_toNat]

end Sys2Proof.Machine
end

section
/-! The Configuration Builder (41_config_builder.md R88, R89): BUILD_CONFIG, and its word as its six fields in a row. -/

namespace Sys2Proof.Machine

/-! ## The request and its response (30_encoding.md R63, R66; 41_config_builder.md R88) -/

theorem decode_of_op_buildConfig {r : Request} (hop : r.op = 0x3) :
    decode r = .buildConfig r.sel r.ops.mux r.ops.gain r.ops.rate r.ops.mode r.ops.start := by
  simp only [decode, hop]
  rfl

theorem exec_buildConfig (sel : BitVec 2) (mux : MuxSelector) (gain : GainRange) (rate : DataRate) (mode : Mode)
    (start : Bool) (s : State) :
    exec (.buildConfig sel mux gain rate mode start) s =
      .next (s.answered (.ok (.u16 (configWord s.params mux gain rate mode start)))) := rfl

/-! ## The word is its fields, one after the other (30_encoding.md R51, R52) -/

/-- A concatenation, widened or cut to `w` bits, is the or of its two parts, the high one at its place. -/
theorem setWidth_append_eq_or {m n : Nat} (hi : BitVec m) (lo : BitVec n) (w : Nat) :
    (hi ++ lo).setWidth w = hi.setWidth w <<< n ||| lo.setWidth w := by
  ext i hw
  by_cases inLo : i < n
  · simp [BitVec.getLsbD_append, inLo]
  · simp [BitVec.getLsbD_append, inLo, BitVec.getLsbD_of_ge lo i (Nat.le_of_not_lt inLo)]

/-- A concatenation as a number: the low part fits under the shifted high part, so the or is the sum. -/
theorem toNat_append_eq_add {m n : Nat} (hi : BitVec m) (lo : BitVec n) :
    (hi ++ lo).toNat = hi.toNat * 2 ^ n + lo.toNat := by
  rw [BitVec.toNat_append, ← Nat.shiftLeft_add_eq_or_of_lt lo.isLt, Nat.shiftLeft_eq]

/-- The fields cover the word and none reaches into another (30_encoding.md R52, 41_config_builder.md R89). -/
theorem configWord_eq_append (p : Params) (mux : MuxSelector) (gain : GainRange) (rate : DataRate) (mode : Mode)
    (start : Bool) :
    configWord p mux gain rate mode start =
      BitVec.ofBool start ++ p.muxCode.code mux ++ p.pgaCode.code gain ++ p.modeCode.code mode ++
        p.drCode.code rate ++ p.compBits := by
  have startBit : (if start then 1 else 0 : BitVec 1) = BitVec.ofBool start := by cases start <;> rfl
  refine .trans ?_ (BitVec.setWidth_eq _)
  rw [configWord, startBit]
  -- `rw`, one field at a time: `simp` does not see the width 16 as a sum.
  iterate 5 rw [setWidth_append_eq_or]
  simp only [BitVec.shiftLeft_or_distrib, ← BitVec.shiftLeft_add, Nat.reduceAdd]

/-! ## The statements -/

/-- Settles O16: the word is its fields one after the other, so it is the sum of the codes at their places. -/
theorem configWordIsTheSumOfItsFields : Obligations.ConfigWordIsTheSumOfItsFields := by
  refine ⟨fun sel mux gain rate mode start s => ⟨_, exec_buildConfig sel mux gain rate mode start s⟩,
    fun p mux gain rate mode start => ?_⟩
  have startBit : (BitVec.ofBool start).toNat = if start then 1 else 0 := by cases start <;> rfl
  rw [configWord_eq_append]
  simp only [toNat_append_eq_add, startBit]
  omega

/-- Settles O15: the start bit is the one term the statement writes as a word and `configWord` as a 1-bit field. -/
theorem buildConfigResponds : Obligations.BuildConfigResponds := by
  refine ⟨fun _ hop => decode_of_op_buildConfig hop, fun sel mux gain rate mode start s => ?_⟩
  have startTerm : (if start then 1 else 0 : Word) = (if start then 1 else 0 : BitVec 1).setWidth 16 := by
    cases start <;> rfl
  rw [exec_buildConfig, startTerm, configWord]

end Sys2Proof.Machine
end

section
/-! The Conversion Sequencer (42_conversion_sequencer.md R96 to R113): the step that accepts READ_CHANNEL, the steps
after it, the acceptance of a request, and the Channel State cache. -/

namespace Sys2Proof.Machine

/-! ## The step that accepts READ_CHANNEL (42_conversion_sequencer.md R99) -/

theorem decode_of_op_readChannel {r : Request} (hop : r.op = 0x5) :
    decode r = .readChannel r.sel r.ops.channel r.ops.gain r.ops.rate := by
  simp only [decode, hop]
  rfl

theorem exec_readChannel (sel : BitVec 2) (c : Channel) (g : GainRange) (r : DataRate) (s : State) :
    exec (.readChannel sel c g r) s = .next (startConversion c g r s) := rfl

theorem cacheUpdate_eq_ite (w : Word) (s : State) :
    cacheUpdate w s = { s with cacheValid := if s.params.cacheEnabled then true else s.cacheValid,
                               cacheWord := if s.params.cacheEnabled then w else s.cacheWord } := by
  rw [cacheUpdate]
  cases s.params.cacheEnabled <;> rfl

theorem cacheInvalidate_eq_ite (s : State) :
    cacheInvalidate s = { s with cacheValid := if s.params.cacheEnabled then false else s.cacheValid } := by
  rw [cacheInvalidate]
  cases s.params.cacheEnabled <;> rfl

section
variable {c : Channel} {g : GainRange} {r : DataRate} {s : State}

theorem startConversion_of_skip (hskip : cacheSkip (readChannelWord s.params c g r) s = true) :
    startConversion c g r s = { s with lat := operandLatches s c g r, seq := .configWritten } := by
  simp only [startConversion, cacheSkip_latchOperands, hskip, if_true]
  rfl

theorem startConversion_of_ok (hskip : cacheSkip (readChannelWord s.params c g r) s = false)
    (hok : s.writeAnswer (Frame.write .config (readChannelWord s.params c g r)).bytes = .ok) :
    startConversion c g r s =
      { s.written (Frame.write .config (readChannelWord s.params c g r)).bytes .ok with
        lat := operandLatches s c g r, seq := .configWritten,
        cacheValid := if s.params.cacheEnabled then true else s.cacheValid,
        cacheWord := if s.params.cacheEnabled then readChannelWord s.params c g r else s.cacheWord } := by
  have hanswer :
      (latchOperands c g r s).writeAnswer (Frame.write .config (readChannelWord s.params c g r)).bytes = .ok := hok
  have hregister : (latchOperands c g r s).writeRegisterAnswer .config (readChannelWord s.params c g r) = .ok := hok
  simp only [startConversion, cacheSkip_latchOperands, hskip, Bool.false_eq_true, if_false, hregister,
    writeRegister_of_answer hanswer, cacheUpdate_eq_ite]
  rfl

theorem startConversion_of_err {e : PortError} (hskip : cacheSkip (readChannelWord s.params c g r) s = false)
    (herr : s.writeAnswer (Frame.write .config (readChannelWord s.params c g r)).bytes = .err e) :
    startConversion c g r s =
      { s.written (Frame.write .config (readChannelWord s.params c g r)).bytes (.err e) with
        cacheValid := if s.params.cacheEnabled then false else s.cacheValid }.failed (.errTransport (.port e)) := by
  have hanswer :
      (latchOperands c g r s).writeAnswer (Frame.write .config (readChannelWord s.params c g r)).bytes = .err e := herr
  have hregister : (latchOperands c g r s).writeRegisterAnswer .config (readChannelWord s.params c g r) = .err e := herr
  simp only [startConversion, cacheSkip_latchOperands, hskip, Bool.false_eq_true, if_false, hregister,
    writeRegister_of_answer hanswer, cacheInvalidate_eq_ite]
  rfl

end

/-! ## The steps after it (42_conversion_sequencer.md R100, R102, R104, R105) -/

theorem blockStep_configWritten {s : State} (hseq : s.seq = .configWritten) :
    blockStep s = .next { s with lat := { s.lat with t0 := some s.now, ready := some false }, seq := .converting } := by
  simp only [blockStep, hseq, stepConfigWritten]

theorem blockStep_fixedDelay {s : State} {t0 : Nat} {rate : DataRate} (hseq : s.seq = .converting)
    (hpolicy : s.params.waitPolicy = .fixedDelay) (ht0 : s.lat.t0 = some t0) (hrate : s.lat.rate = some rate) :
    blockStep s = if s.params.waitUs rate ≤ s.now - t0 then .next (resultRead s) else .next s := by
  simp only [blockStep, hseq, stepConverting, hpolicy, stepFixedDelay, ht0, hrate, readLatch_some, waited,
    decide_eq_true_eq]

theorem blockStep_pollStatus_ready {s : State} (hseq : s.seq = .converting)
    (hpolicy : s.params.waitPolicy = .pollStatus) (hready : s.lat.ready = some true) :
    blockStep s = .next (resultRead s) := by
  simp only [blockStep, hseq, stepConverting, hpolicy, stepPollStatus, hready, readLatch_some, if_true]

theorem blockStep_resultAvailable {s : State} {raw : Int} {gain : GainRange} (hseq : s.seq = .resultAvailable)
    (hraw : s.lat.raw = some raw) (hgain : s.lat.gain = some gain) :
    blockStep s =
      .next { s.answered (.ok (.f32 (scaleVolts s.params raw gain))) with lat := Latches.unwritten, seq := .idle } := by
  simp only [blockStep, hseq, stepResultAvailable, hraw, hgain, readLatch_some]
  rfl

theorem resultRead_of_word {s : State} {a : ReadAnswer} {w : Word} (ha : s.readAnswer [0x00] 2 = a)
    (hw : readResult a = .ok w) :
    resultRead s = { s.readBack 0x00 a with lat := { s.lat with raw := some w.toInt }, seq := .resultAvailable } := by
  have hanswer : s.readAnswer [RegisterId.conversion.selector] 2 = a := ha
  have hword : s.readWord .conversion = .ok w := by rw [readWord_eq, hanswer, hw]
  simp only [resultRead, hword, readRegister_of_answer hanswer, toI16_eq]
  rfl

theorem resultRead_of_failure {s : State} {a : ReadAnswer} {e : TErr} (ha : s.readAnswer [0x00] 2 = a)
    (he : readResult a = .error e) : resultRead s = (s.readBack 0x00 a).failed (.errTransport e) := by
  have hanswer : s.readAnswer [RegisterId.conversion.selector] 2 = a := ha
  have hword : s.readWord .conversion = .error e := by rw [readWord_eq, hanswer, he]
  simp only [resultRead, hword, readRegister_of_answer hanswer, raiseTransport_eq, raise_eq_failed]
  rfl

/-- The body R102 and R104 share, for each answer of the port. -/
theorem readsResult_resultRead (s : State) : ReadsResult s (.next (resultRead s)) := by
  refine ⟨fun hi lo hok => ?_, fun bs hok hlen => ?_, fun e herr => ?_⟩
  · rw [resultRead_of_word hok (readResult_two hi lo)]
  · rw [resultRead_of_failure hok (readResult_short hlen)]
  · rw [resultRead_of_failure herr (readResult_err e)]

/-! ## The Channel State cache (42_conversion_sequencer.md R110, R112, R113) -/

/-- The mask of R110 leaves out bit 15, the start bit, and no other. -/
theorem and_0x7FFF_eq_iff (v w : Word) :
    v &&& 0x7FFF = w &&& 0x7FFF ↔ ∀ k < 15, v.getLsbD k = w.getLsbD k := by
  have mask : ∀ k < 16, (0x7FFF : Word).getLsbD k = decide (k < 15) := by decide
  constructor
  · intro h k hk
    have hbit := congrArg (·.getLsbD k) h
    simpa only [BitVec.getLsbD_and, mask k (by omega), hk, decide_true, Bool.and_true] using hbit
  · intro h
    refine BitVec.eq_of_getLsbD_eq fun k hk => ?_
    rw [BitVec.getLsbD_and, BitVec.getLsbD_and, mask k hk]
    by_cases low : k < 15
    · rw [h k low]
    · simp only [low, decide_false, Bool.and_false]

theorem cacheSkip_eq_false_of_disabled {s : State} (hoff : s.params.cacheEnabled = false) (w : Word) :
    cacheSkip w s = false := by
  simp only [cacheSkip, hoff, Bool.false_and]

theorem startConversion_keeps_cache_of_disabled {s : State} (hoff : s.params.cacheEnabled = false) (c : Channel)
    (g : GainRange) (r : DataRate) :
    (startConversion c g r s).cacheValid = s.cacheValid ∧ (startConversion c g r s).cacheWord = s.cacheWord := by
  have hskip := cacheSkip_eq_false_of_disabled hoff (readChannelWord s.params c g r)
  cases ha : s.writeAnswer (Frame.write .config (readChannelWord s.params c g r)).bytes with
  | ok => simp [startConversion_of_ok hskip ha, hoff]
  | err e => simp [startConversion_of_err hskip ha, hoff]

theorem wreg_keeps_cache (reg : RegisterId) (v : Word) (s : State) :
    (wreg reg v s).cacheValid = s.cacheValid ∧ (wreg reg v s).cacheWord = s.cacheWord := by
  obtain ⟨_, h⟩ | ⟨e, _, h⟩ := wreg_cases reg v s <;> simp [h]

theorem rreg_keeps_cache (reg : RegisterId) (s : State) :
    (rreg reg s).cacheValid = s.cacheValid ∧ (rreg reg s).cacheWord = s.cacheWord := by
  obtain ⟨w, _, h⟩ | ⟨e, _, h⟩ := rreg_cases reg s <;> simp [h]

/-- Only an accepting step touches the cache. -/
theorem Move.keeps_cache {s t : State} (h : Move s t) (hbusy : s.seq ≠ .idle) :
    t.cacheValid = s.cacheValid ∧ t.cacheWord = s.cacheWord := by
  cases h with
  | pure ha | refuse ha | wrote ha | wroteErr ha | read ha | readErr ha | startSkipped ha | startWrote ha
  | startErr ha => exact absurd ha.idle hbusy
  | hold | wait | sample | sampleErr | pollReady | pollBusy | pollErr | deliver => exact ⟨rfl, rfl⟩

/-! ## Acceptance and completion (42_conversion_sequencer.md R96) -/

theorem wreg_completes {s : State} (hidle : s.seq = .idle) (reg : RegisterId) (v : Word) :
    (wreg reg v s).seq = .idle ∧ (wreg reg v s).resp ≠ none := by
  obtain ⟨_, h⟩ | ⟨e, _, h⟩ := wreg_cases reg v s <;> simp [h, hidle]

theorem rreg_completes {s : State} (hidle : s.seq = .idle) (reg : RegisterId) :
    (rreg reg s).seq = .idle ∧ (rreg reg s).resp ≠ none := by
  obtain ⟨w, _, h⟩ | ⟨e, _, h⟩ := rreg_cases reg s <;> simp [h, hidle]

/-- A move takes the first request from a free block, or leaves the line of one that cannot accept. -/
theorem Move.accepts_or_keeps_requests {s t : State} (h : Move s t) :
    (s.seq = .idle ∧ s.resp = none ∧ ∃ r, s.requests = r :: t.requests) ∨
    (t.requests = s.requests ∧ ¬ (s.seq = .idle ∧ s.resp = none ∧ s.requests ≠ [])) := by
  cases h with
  | pure ha | refuse ha | wrote ha | wroteErr ha | read ha | readErr ha | startSkipped ha | startWrote ha
  | startErr ha => exact .inl ⟨ha.idle, ha.free, ha.line⟩
  | hold hwhy =>
    refine .inr ⟨rfl, fun ⟨hidle, hfree, hline⟩ => ?_⟩
    obtain hseq | ⟨_, hresp | hnone⟩ := hwhy
    · simp [hidle] at hseq
    · exact hresp hfree
    · exact hline hnone
  | wait hseq | sample hseq | sampleErr hseq | pollReady hseq | pollBusy hseq | pollErr hseq | deliver hseq =>
    exact .inr ⟨rfl, fun ⟨hidle, _⟩ => by simp [hidle] at hseq⟩

/-! ## The statements -/

/-- Settles O21, by the three things the accepting step can do. -/
theorem readChannelAccepted : Obligations.ReadChannelAccepted := by
  refine ⟨fun _ hop => decode_of_op_readChannel hop, fun sel c g r s =>
    ⟨fun hskip => ?_, fun hskip hok => ?_, fun e hskip herr => ?_⟩⟩
  · exact congrArg _ (startConversion_of_skip hskip)
  · exact congrArg _ (startConversion_of_ok hskip hok)
  · exact congrArg _ (startConversion_of_err hskip herr)

/-- Settles O23: the guard decides between the result read and the hold. -/
theorem fixedDelayReadsWhenWaited : Obligations.FixedDelayReadsWhenWaited := by
  intro s t0 rate hseq hpolicy ht0 hrate
  rw [blockStep_fixedDelay hseq hpolicy ht0 hrate]
  refine ⟨fun hwaited => ?_, fun hearly => if_neg (Nat.not_le_of_lt hearly)⟩
  rw [if_pos hwaited]
  exact readsResult_resultRead s

/-- Settles O25: the step is the result read, whatever the time. -/
theorem readyPollReadsResult : Obligations.ReadyPollReadsResult := by
  intro s hseq hpolicy hready
  rw [blockStep_pollStatus_ready hseq hpolicy hready]
  exact readsResult_resultRead s

/-- Settles O33: the two masked words are equal exactly when bits 14 to 0 agree. -/
theorem cacheSkipExactlyWhen : Obligations.CacheSkipExactlyWhen := by
  intro w s
  simp only [cacheSkip, Bool.and_eq_true, beq_iff_eq, and_0x7FFF_eq_iff, and_assoc]

/-- Settles O36: the first step by its outcome, the later ones by the moves of a block that is not idle. -/
theorem cacheFollowsConfigWrites : Obligations.CacheFollowsConfigWrites := by
  refine ⟨fun sel c g r s t hnext => ?_, fun s t hbusy hnext => (blockStep_move hnext).keeps_cache hbusy⟩
  rw [exec_readChannel] at hnext
  injection hnext with ht
  subst ht
  refine ⟨fun hon hskip hok => ?_, fun hon hskip hfail => ?_, fun hskip => ?_,
    fun hoff => startConversion_keeps_cache_of_disabled hoff c g r⟩
  · rw [startConversion_of_ok hskip hok]
    exact ⟨if_pos hon, if_pos hon⟩
  · cases ha : s.writeAnswer (Frame.write .config (readChannelWord s.params c g r)).bytes with
    | ok => exact absurd ha hfail
    | err e =>
      rw [startConversion_of_err hskip ha]
      exact ⟨if_pos hon, rfl⟩
  · rw [startConversion_of_skip hskip]
    exact ⟨rfl, rfl⟩

/-- Settles O37: a register write and a register read leave the cache as they find it; WREG.CFG alone finds it
invalidated. -/
theorem onlyWregCfgAlsoTouchesTheCache : Obligations.OnlyWregCfgAlsoTouchesTheCache := by
  refine ⟨fun v s hon => ?_, fun i s t hnext hnotCfg hnotRead => ?_⟩
  · obtain ⟨hvalid, hword⟩ := wreg_keeps_cache .config v (cacheInvalidate s)
    refine ⟨wreg .config v (cacheInvalidate s), rfl, ?_, ?_⟩
    · simp [hvalid, hon]
    · simp [hword]
  · obtain ⟨sel, c, g, r, rfl, _⟩ | ⟨reg, v, rfl, rfl⟩ | ⟨reg, _, rfl⟩ | ⟨d, rfl⟩ | ⟨op, rfl⟩ := exec_cases hnext
    · exact absurd rfl (hnotRead sel c g r)
    · have hreg : reg ≠ .config := fun h => hnotCfg v (by rw [h]; rfl)
      rw [if_neg hreg]
      exact wreg_keeps_cache reg v s
    · exact rreg_keeps_cache reg s
    · exact ⟨rfl, rfl⟩
    · exact ⟨rfl, rfl⟩

/-- Settles O54: a step of the block by its moves, an operation by its kind. -/
theorem requestsAcceptedOnlyWhenFree : Obligations.RequestsAcceptedOnlyWhenFree := by
  refine ⟨fun s t hnext => (blockStep_move hnext).accepts_or_keeps_requests, fun i s t hidle hnext hnotRead => ?_⟩
  obtain ⟨sel, c, g, r, rfl, _⟩ | ⟨reg, v, _, rfl⟩ | ⟨reg, _, rfl⟩ | ⟨d, rfl⟩ | ⟨op, rfl⟩ := exec_cases hnext
  · exact absurd rfl (hnotRead sel c g r)
  · refine wreg_completes ?_ reg v
    split
    · rw [cacheInvalidate_seq, hidle]
    · exact hidle
  · exact rreg_completes hidle reg
  · simp [hidle]
  · simp

/-- Settles O22: the step reads no latch, so it goes on from every state of CONFIG_WRITTEN. -/
theorem configWrittenStartsTheWait : Obligations.ConfigWrittenStartsTheWait :=
  fun _ hseq => blockStep_configWritten hseq

/-- Settles O26: both latches the step reads hold a value, so it responds. -/
theorem resultIsScaledAndDelivered : Obligations.ResultIsScaledAndDelivered :=
  fun _ _ _ hseq hraw hgain => blockStep_resultAvailable hseq hraw hgain

end Sys2Proof.Machine
end

section
/-! The Scaling Engine (43_scaling_engine.md R117, R121): SCALE under each `SCALE_NUMERICS`. -/

namespace Sys2Proof.Machine

/-! ## The request and its response (30_encoding.md R63, R66; 43_scaling_engine.md R117) -/

theorem decode_of_op_scale {r : Request} (hop : r.op = 0x6) :
    decode r = .scale r.sel r.ops.raw.toInt r.ops.gain := by
  simp only [decode, hop]
  rfl

theorem exec_scale (sel : BitVec 2) (raw : Int) (gain : GainRange) (s : State) :
    exec (.scale sel raw gain) s = .next (s.answered (.ok (.f32 (scaleVolts s.params raw gain)))) := rfl

/-! ## The voltage under each `SCALE_NUMERICS` (43_scaling_engine.md R117, R121) -/

section
variable {p : Params} (raw : Int) (gain : GainRange)

theorem scaleVolts_of_f32 (hnum : p.scaleNumerics = .f32) : scaleVolts p raw gain = scaleF32 raw gain := by
  rw [scaleVolts, hnum]

theorem scaleVolts_of_f64ThenF32 (hnum : p.scaleNumerics = .f64ThenF32) :
    scaleVolts p raw gain = scaleF64 raw gain := by
  rw [scaleVolts, hnum]

end

/-! ## The statements -/

/-- Settles O41: under F32 the voltage is `scaleF32`, one multiply of the sample and the LSB weight. -/
theorem scaleRespondsInBinary32 : Obligations.ScaleRespondsInBinary32 := by
  refine ⟨fun _ hop => decode_of_op_scale hop, fun sel raw gain s hnum => ?_⟩
  rw [exec_scale, scaleVolts_of_f32 raw gain hnum, scaleF32]

/-- Settles O42: under F64_THEN_F32 the voltage is `scaleF64`; at 4660 and 4.096 V its last bit is not that of
`scaleF32`. -/
theorem scaleRespondsInBinary64 : Obligations.ScaleRespondsInBinary64 := by
  have lastBitDiffers : scaleF64 4660 .pga4096 = 0x3F151EB8 ∧ scaleF32 4660 .pga4096 = 0x3F151EB9 := by decide
  refine ⟨fun sel raw gain s hnum => ?_, lastBitDiffers⟩
  rw [exec_scale, scaleVolts_of_f64ThenF32 raw gain hnum, scaleF64]

end Sys2Proof.Machine
end

section
/-! The error entry (60_exceptions.md R129, R130): what a step may have done when it ends in an error, and the response
each move places. -/

namespace Sys2Proof.Machine

/-! ## Before the error response (60_exceptions.md R130) -/

/-- `u` is `s` after what a step does before it places an error response: at most one exchange, and the cache at most
invalidated, then by a write to Config (60_exceptions.md R130 items 1 and 4). -/
structure ReadyToFail (s u : State) : Prop where
  responses : u.responses = s.responses
  exchange : ∃ l, u.trace = s.trace ++ l ∧ l.length ≤ 1
  cacheWord : u.cacheWord = s.cacheWord
  cacheValid : u.cacheValid = s.cacheValid ∨
    (s.params.cacheEnabled = true ∧ u.cacheValid = false ∧
      ∃ hi lo a, u.trace = s.trace ++ [.w s.addr [0x01, hi, lo] a])

/-- A refused request makes no exchange. -/
theorem readyToFail_accepted (s : State) (rs : List Request) : ReadyToFail s { s with requests := rs } where
  responses := rfl
  exchange := ⟨[], (List.append_nil s.trace).symm, Nat.zero_le 1⟩
  cacheWord := rfl
  cacheValid := .inl rfl

/-- A register read makes one exchange and leaves the cache. -/
theorem readyToFail_readBack (s : State) (rs : List Request) (sel : Byte) (a : ReadAnswer) :
    ReadyToFail s ({ s with requests := rs }.readBack sel a) where
  responses := rfl
  exchange := ⟨_, rfl, Nat.le_refl 1⟩
  cacheWord := rfl
  cacheValid := .inl rfl

theorem validAfterWreg_config (s : State) : validAfterWreg s .config = (!s.params.cacheEnabled && s.cacheValid) := by
  cases hon : s.params.cacheEnabled <;> simp [validAfterWreg, hon]

/-- A register write makes one exchange; only one to Config invalidates a cache. -/
theorem readyToFail_written (s : State) (rs : List Request) (reg : RegisterId) (v : Word) (a : WriteAnswer) :
    ReadyToFail s
      ({ s with requests := rs, cacheValid := validAfterWreg s reg }.written (Frame.write reg v).bytes a) where
  responses := rfl
  exchange := ⟨_, rfl, Nat.le_refl 1⟩
  cacheWord := rfl
  cacheValid := by
    by_cases hcfg : reg = .config ∧ s.params.cacheEnabled = true
    · obtain ⟨rfl, hon⟩ := hcfg
      exact .inr ⟨hon, if_pos ⟨rfl, hon⟩, hiByte v, loByte v, a, rfl⟩
    · exact .inl (if_neg hcfg)

/-! ## The response a move places (60_exceptions.md R129, R130) -/

/-- A move places no response, an OK response, or through the error entry one more. -/
theorem Move.response_cases {s t : State} (h : Move s t) :
    t.responses = s.responses ∨
    (∃ d, t.responses = s.responses ++ [.ok d] ∧ t.resp = some (.ok d)) ∨
    (∃ u r, ReadyToFail s u ∧ t = u.failed r) := by
  cases h with
  | hold | startSkipped | startWrote | wait | sample | pollReady | pollBusy => exact .inl rfl
  | pure | wrote | read | deliver => exact .inr (.inl ⟨_, rfl, rfl⟩)
  | @refuse rs _ op => exact .inr (.inr ⟨_, _, readyToFail_accepted s rs, rfl⟩)
  | @wroteErr rs _ reg v e => exact .inr (.inr ⟨_, _, readyToFail_written s rs reg v (.err e), rfl⟩)
  | @startErr rs _ c g r e =>
    rw [← validAfterWreg_config]
    exact .inr (.inr ⟨_, _, readyToFail_written s rs .config (readChannelWord s.params c g r) (.err e), rfl⟩)
  | @readErr rs _ reg a => exact .inr (.inr ⟨_, _, readyToFail_readBack s rs reg.selector a, rfl⟩)
  | sampleErr _ _ a => exact .inr (.inr ⟨_, _, readyToFail_readBack s s.requests 0x00 a, rfl⟩)
  | pollErr _ _ a => exact .inr (.inr ⟨_, _, readyToFail_readBack s s.requests 0x01 a, rfl⟩)

/-! ## The statement -/

/-- Settles O50: by the response the move places; an error response comes of the error entry alone. -/
theorem errorEndsTheOperation : Obligations.ErrorEndsTheOperation := by
  intro s t hnext
  obtain hnone | ⟨d, hplaced, hresp⟩ | ⟨u, r, hu, rfl⟩ := (blockStep_move hnext).response_cases
  · exact .inl hnone
  · exact .inr ⟨.ok d, hplaced, hresp, fun herr => absurd rfl herr⟩
  · exact .inr ⟨r, congrArg (· ++ [r]) hu.responses, rfl, fun _ =>
      ⟨rfl, rfl, hu.exchange, hu.cacheWord, hu.cacheValid⟩⟩

end Sys2Proof.Machine
end

section
/-! Requests and frames (30_encoding.md): decoding inverts encoding, each header has its row, a frame's bytes read back,
and what the operations that ignore `sel` do. -/

namespace Sys2Proof.Machine

/-! ## Requests (30_encoding.md R63 to R66) -/

/-- The operand decoded for an `i16` slot is in range; no other operand is checked. -/
theorem decode_wf (r : Request) : (decode r).wf = true := by
  have inRange := inI16_toInt r.ops.raw
  unfold decode
  split
  case h_7 | h_8 => exact decide_eq_true inRange
  case h_2 | h_3 => split <;> rfl
  all_goals rfl

/-- The mnemonic is the header's alone. -/
theorem decode_mnemonic_eq_of_hdr (hdr : BitVec 6) (ops ops' : Operands) :
    (decode ⟨hdr, ops⟩).mnemonic = (decode ⟨hdr, ops'⟩).mnemonic := by
  unfold decode
  simp only [Request.op, Request.sel]
  split
  case h_2 | h_3 => split <;> simp only [Instr.mnemonic]
  all_goals simp only [Instr.mnemonic]

/-- Exactly one row of the table covers a header, the one with the instruction's mnemonic. -/
theorem rows_covering (hdr : BitVec 6) (ops : Operands) :
    ∃ row, opcodeTable.filter (·.covers hdr) = [row] ∧ row.mnemonic = (decode ⟨hdr, ops⟩).mnemonic := by
  have oneRow : ∀ h : BitVec 6, (opcodeTable.filter (·.covers h)).map (·.mnemonic) =
      [(decode ⟨h, Operands.zero⟩).mnemonic] := by decide
  obtain ⟨row, hrow, hname⟩ := List.map_eq_singleton_iff.mp (oneRow hdr)
  exact ⟨row, hrow, hname.trans (decode_mnemonic_eq_of_hdr hdr _ ops)⟩

/-- Settles O1, constructor by constructor. -/
theorem decodeInvertsEncode : Obligations.DecodeInvertsEncode := by
  intro i
  cases i with
  | wregConv v => exact Laws.Encoding.wregConv v
  | wregCfg v => exact Laws.Encoding.wregCfg v
  | wregLo v => exact Laws.Encoding.wregLo v
  | wregHi v => exact Laws.Encoding.wregHi v
  | rregConv => exact Laws.Encoding.rregConv
  | rregCfg => exact Laws.Encoding.rregCfg
  | rregLo => exact Laws.Encoding.rregLo
  | rregHi => exact Laws.Encoding.rregHi
  | buildConfig sel mux gain rate mode start => exact Laws.Encoding.buildConfig sel mux gain rate mode start
  | decodeConfig sel word => exact Laws.Encoding.decodeConfig sel word
  | readChannel sel channel gain rate => exact Laws.Encoding.readChannel sel channel gain rate
  | scale sel raw gain => exact Laws.Encoding.scale sel raw gain
  | scaleFixed sel raw gain => exact Laws.Encoding.scaleFixed sel raw gain
  | enc16 sel v => exact Laws.Encoding.enc16 sel v
  | dec16 sel hi lo => exact Laws.Encoding.dec16 sel hi lo
  | sext16 sel w => exact Laws.Encoding.sext16 sel w
  | reservedOp0 sel => exact Laws.Encoding.reservedOp0 sel
  | reservedOpB sel => exact Laws.Encoding.reservedOpB sel
  | reservedOpC sel => exact Laws.Encoding.reservedOpC sel
  | reservedOpD sel => exact Laws.Encoding.reservedOpD sel
  | reservedOpE sel => exact Laws.Encoding.reservedOpE sel
  | reservedOpF sel => exact Laws.Encoding.reservedOpF sel

/-- Settles O2: the rows that cover a header are a list of one. -/
theorem everyHeaderHasExactlyItsRow : Obligations.EveryHeaderHasExactlyItsRow := by
  intro r
  obtain ⟨row, hrows, hname⟩ := rows_covering r.hdr r.ops
  have covering : ∀ other, other ∈ opcodeTable ∧ other.covers r.hdr = true ↔ other = row := fun other => by
    rw [← List.mem_filter (p := fun row : OpcodeRow => row.covers r.hdr), hrows, List.mem_singleton]
  obtain ⟨hmem, hcovers⟩ := (covering row).mpr rfl
  exact ⟨decode_wf r, row, hmem, hcovers, hname, fun other hother hcov => (covering other).mp ⟨hother, hcov⟩⟩

/-- Settles O3: the op and the sel of each header are numerals, its operands are free. -/
theorem sampleHeadersDecode : Obligations.SampleHeadersDecode := by
  intro ops
  refine ⟨?_, ?_, ?_, ?_, ?_, ?_, ?_, ?_⟩ <;> simp [decode, Request.op, Request.sel]

/-- Settles O6: the two instructions differ at most in a `sel`, which no arm of `exec` reads. -/
theorem ignoredSelChangesNothing : Obligations.IgnoredSelChangesNothing := by
  intro r r' s hop hops hnotWreg hnotRreg
  unfold decode
  rw [← hop, ← hops]
  split
  case h_2 h => exact absurd (BitVec.eq_of_toNat_eq h) hnotWreg
  case h_3 h => exact absurd (BitVec.eq_of_toNat_eq h) hnotRreg
  all_goals rfl

/-- Settles O7: each expansion is one arm of `pseudoFirst` and of `pseudoSecond`. -/
theorem pseudoOperationsExpand : Obligations.PseudoOperationsExpand :=
  ⟨fun _ _ _ _ _ _ => ⟨rfl, rfl⟩, fun _ => ⟨rfl, rfl⟩, fun _ => ⟨rfl, rfl, rfl⟩⟩

/-! ## Frames (30_encoding.md R49, R50, R60, R61) -/

theorem joinBytes_hiByte_loByte (v : Word) : joinBytes (hiByte v) (loByte v) = v :=
  BitVec.eq_of_toNat_eq (by
    simp only [joinBytes_toNat, hiByte, loByte, BitVec.extractLsb'_toNat, Nat.shiftRight_eq_div_pow]
    have := v.isLt
    omega)

theorem hiByte_joinBytes (hi lo : Byte) : hiByte (joinBytes hi lo) = hi :=
  BitVec.eq_of_toNat_eq (by
    simp only [hiByte, BitVec.extractLsb'_toNat, joinBytes_toNat, Nat.shiftRight_eq_div_pow]
    have := hi.isLt
    have := lo.isLt
    omega)

theorem loByte_joinBytes (hi lo : Byte) : loByte (joinBytes hi lo) = lo :=
  BitVec.eq_of_toNat_eq (by
    simp only [loByte, BitVec.extractLsb'_toNat, joinBytes_toNat, Nat.shiftRight_eq_div_pow]
    have := lo.isLt
    omega)

theorem decodeSelector_selector (reg : RegisterId) : decodeSelector reg.selector = .ok reg := by
  cases reg <;> rfl

theorem selector_of_decodeSelector {sel : Byte} {reg : RegisterId} (h : decodeSelector sel = .ok reg) :
    reg.selector = sel := by
  unfold decodeSelector at h
  split_ifs at h with h0 h1 h2 h3
  all_goals
    injection h with h
    subst h
    exact Eq.symm ‹sel = _›

theorem decodeFrame_bytes (f : Frame) : decodeFrame f.call f.bytes = .ok f := by
  cases f with
  | write reg v => simp only [Frame.call, Frame.bytes, decodeFrame, decodeSelector_selector, joinBytes_hiByte_loByte]
  | read reg => simp only [Frame.call, Frame.bytes, decodeFrame, decodeSelector_selector, if_true]

/-- Three bytes written, of which the first is a selector, or one selector written and two bytes read, and no other
call reads as a frame. -/
theorem call_and_bytes_of_decodeFrame {call : PortCall} {bytes : List Byte} {f : Frame}
    (h : decodeFrame call bytes = .ok f) : f.call = call ∧ f.bytes = bytes := by
  unfold decodeFrame at h
  split at h
  case h_1 =>
    split at h
    case h_2 => cases h
    case h_1 sel hi lo =>
      cases hsel : decodeSelector sel with
      | error e => simp only [hsel] at h; cases h
      | ok reg =>
        simp only [hsel] at h
        injection h with h
        subst h
        exact ⟨rfl, by rw [Frame.bytes, selector_of_decodeSelector hsel, hiByte_joinBytes, loByte_joinBytes]⟩
  case h_2 n =>
    split at h
    case h_2 => cases h
    case h_1 sel =>
      cases hsel : decodeSelector sel with
      | error e => simp only [hsel] at h; cases h
      | ok reg =>
        simp only [hsel] at h
        split_ifs at h with hn
        injection h with h
        subst h hn
        exact ⟨rfl, by rw [Frame.bytes, selector_of_decodeSelector hsel]⟩

/-- Settles O4, one direction by the frame's format, the other by what reads as a frame. -/
theorem framesRoundTrip : Obligations.FramesRoundTrip :=
  ⟨decodeFrame_bytes, fun _ _ _ => call_and_bytes_of_decodeFrame⟩

/-- Settles O5: a byte of at least 0x04 is none of the four selectors. -/
theorem selectorsNameFourRegisters : Obligations.SelectorsNameFourRegisters := by
  refine ⟨rfl, rfl, rfl, rfl, fun _ => rfl, fun sel hsel => ?_⟩
  have other : ∀ small : Byte, small < 0x04 → sel ≠ small := fun small hsmall heq =>
    absurd hsel (BitVec.not_le.mpr (heq ▸ hsmall))
  simp only [decodeSelector, other 0x00 (by decide), other 0x01 (by decide), other 0x02 (by decide),
    other 0x03 (by decide), if_false]

end Sys2Proof.Machine
end

section
/-! What every step keeps (10_state.md R16 to R20; 42_conversion_sequencer.md R96 to R114): the handle, the latches, the
cache, the trace, and that a run goes on and time with it. Each fact is said of the moves of the block first. -/

namespace Sys2Proof.Machine

/-! ## The handle and the environment's inputs (10_state.md R16; 60_exceptions.md R135) -/

theorem Move.keeps_handle {s t : State} (h : Move s t) :
    t.params = s.params ∧ t.addr = s.addr ∧ t.port = s.port := by
  cases h <;> exact ⟨rfl, rfl, rfl⟩

/-- Time and the listed moves are the environment's; an exchange alone uses up a draw. -/
theorem Move.keeps_time_and_turns {s t : State} (h : Move s t) :
    t.now = s.now ∧ t.turns = s.turns ∧ s.drawn ≤ t.drawn := by
  cases h <;> exact ⟨rfl, rfl, by simp⟩

/-- A step is the environment's move, then one of the block. -/
theorem step_move {s t : State} (h : step s = .next t) : Move (environment s) t := blockStep_move h

/-! ## A response waits only in IDLE (42_conversion_sequencer.md R96) -/

theorem Move.waits_only_in_idle {s t : State} (h : Move s t) (hs : s.resp ≠ none → s.seq = .idle)
    (hresp : t.resp ≠ none) : t.seq = .idle := by
  cases h with
  | hold => exact hs hresp
  | pure ha | wrote ha | read ha => exact ha.idle
  | refuse | wroteErr | readErr | startErr | sampleErr | pollErr | deliver => rfl
  | startSkipped ha | startWrote ha => exact absurd ha.free hresp
  | wait hq | sample hq | pollReady hq | pollBusy hq => exact absurd (hs hresp) (by simp [hq])

/-! ## The latches (10_state.md R18) -/

theorem latchesFit_of_idle {s : State} (hq : s.seq = .idle) (hl : s.lat = Latches.unwritten) : LatchesFit s := by
  rw [LatchesFit, hq]
  exact hl

theorem LatchesFit.unwritten_of_idle {s : State} (h : LatchesFit s) (hq : s.seq = .idle) :
    s.lat = Latches.unwritten := by
  rw [LatchesFit, hq] at h
  exact h

/-- The latches of READ_CHANNEL in CONVERTING (42_conversion_sequencer.md R99, R100, R103). -/
theorem LatchesFit.converting {s : State} (h : LatchesFit s) (hq : s.seq = .converting) :
    ∃ channel gain rate t0 ready,
      s.lat = { mux := some (muxOf channel), gain := some gain, rate := some rate,
                word := some (readChannelWord s.params channel gain rate), t0 := some t0, ready := some ready,
                raw := none } ∧
      t0 ≤ s.now ∧ (ready = true → s.params.waitPolicy = .pollStatus ∧ rate.minConvUs ≤ s.now - t0) := by
  rw [LatchesFit, hq] at h
  exact h

/-- The latches fit as well at a later time. -/
theorem LatchesFit.later {s t : State} (h : LatchesFit s) (hseq : t.seq = s.seq) (hlat : t.lat = s.lat)
    (hparams : t.params = s.params) (hnow : s.now ≤ t.now) : LatchesFit t := by
  unfold LatchesFit at h ⊢
  rw [hseq, hlat, hparams]
  cases hq : s.seq with
  | idle | configWritten => simpa only [hq] using h
  | converting =>
    simp only [hq] at h
    obtain ⟨channel, gain, rate, t0, ready, hl, ht0, hready⟩ := h
    exact ⟨channel, gain, rate, t0, ready, hl, ht0.trans hnow, fun hr =>
      ⟨(hready hr).1, (hready hr).2.trans (Nat.sub_le_sub_right hnow t0)⟩⟩
  | resultAvailable =>
    simp only [hq] at h
    obtain ⟨channel, gain, rate, t0, ready, raw, hl, ht0, hmin, hraw⟩ := h
    exact ⟨channel, gain, rate, t0, ready, raw, hl, ht0.trans hnow, hmin.trans (Nat.sub_le_sub_right hnow t0), hraw⟩

/-- A result read finds the minimum conversion time passed, under either policy (70_reset_and_hazards.md R149). -/
theorem MayRead.minConvUs_le {s : State} (h : MayRead s) {t0 : Nat} {rate : DataRate} {ready : Bool}
    (ht0 : s.lat.t0 = some t0) (hrate : s.lat.rate = some rate) (hlat : s.lat.ready = some ready)
    (hready : ready = true → s.params.waitPolicy = .pollStatus ∧ rate.minConvUs ≤ s.now - t0) :
    rate.minConvUs ≤ s.now - t0 := by
  obtain ⟨_, t0', rate', ht0', hrate', hwaited⟩ | ⟨_, hlat'⟩ := h
  · cases ht0.symm.trans ht0'
    cases hrate.symm.trans hrate'
    exact (Nat.le_add_right _ _).trans hwaited
  · cases hlat.symm.trans hlat'
    exact (hready rfl).2

/-- A status poll finds the minimum conversion time passed (42_conversion_sequencer.md R103). -/
theorem MayPoll.minConvUs_le {s : State} (h : MayPoll s) {t0 : Nat} {rate : DataRate}
    (ht0 : s.lat.t0 = some t0) (hrate : s.lat.rate = some rate) : rate.minConvUs ≤ s.now - t0 := by
  obtain ⟨_, _, t0', rate', ht0', hrate', hwaited⟩ := h
  cases ht0.symm.trans ht0'
  cases hrate.symm.trans hrate'
  exact hwaited

theorem Move.keeps_latchesFit {s t : State} (h : Move s t) (hs : LatchesFit s) : LatchesFit t := by
  cases h with
  | hold => exact hs
  | pure ha | wrote ha | read ha => exact latchesFit_of_idle ha.idle (hs.unwritten_of_idle ha.idle)
  | refuse | wroteErr | readErr | startErr | sampleErr | pollErr | deliver => exact latchesFit_of_idle rfl rfl
  | startSkipped ha c g r | startWrote ha c g r =>
    have hl : operandLatches s c g r = { Latches.unwritten with
        mux := some (muxOf c), gain := some g, rate := some r, word := some (readChannelWord s.params c g r) } := by
      rw [operandLatches, hs.unwritten_of_idle ha.idle]
    exact ⟨c, g, r, hl⟩
  | wait hq =>
    rw [LatchesFit, hq] at hs
    obtain ⟨c, g, r, hl⟩ := hs
    exact ⟨c, g, r, s.now, false, by rw [hl], Nat.le_refl _, fun h => nomatch h⟩
  | sample hq hg hi lo =>
    obtain ⟨c, g, r, t0, ready, hl, ht0, hready⟩ := hs.converting hq
    have hmin := hg.minConvUs_le (by rw [hl]) (by rw [hl]) (by rw [hl]) hready
    exact ⟨c, g, r, t0, ready, _, by rw [hl]; rfl, ht0, hmin, inI16_toInt _⟩
  | pollReady hq hg =>
    obtain ⟨c, g, r, t0, ready, hl, ht0, _⟩ := hs.converting hq
    have hmin : r.minConvUs ≤ s.now - t0 := hg.minConvUs_le (by rw [hl]) (by rw [hl])
    simp only [LatchesFit, readBack_seq, hq]
    exact ⟨c, g, r, t0, true, by rw [hl]; rfl, ht0, fun _ => ⟨hg.1, hmin⟩⟩
  | pollBusy => exact hs.later rfl rfl rfl (Nat.le_refl _)

/-! ## The cache (10_state.md R19; 42_conversion_sequencer.md R112, R113) -/

theorem validAfterWreg_le {s : State} {reg : RegisterId} (h : validAfterWreg s reg = true) : s.cacheValid = true := by
  unfold validAfterWreg at h
  split at h
  · cases h
  · exact h

/-- A move validates nothing but a word READ_CHANNEL built, and that only where there is a cache. -/
theorem Move.cache_cases {s t : State} (h : Move s t) :
    (t.cacheWord = s.cacheWord ∧ (t.cacheValid = true → s.cacheValid = true)) ∨
    (s.params.cacheEnabled = true ∧ ∃ c g r, t.cacheWord = readChannelWord s.params c g r) := by
  cases h with
  | startWrote _ c g r =>
    cases hon : s.params.cacheEnabled with
    | true => exact .inr ⟨rfl, c, g, r, by simp⟩
    | false => exact .inl ⟨by simp, fun h => by simpa using h⟩
  | startErr => exact .inl ⟨rfl, fun h => (Bool.and_eq_true_iff.mp h).2⟩
  | wrote _ reg | wroteErr _ reg => exact .inl ⟨rfl, validAfterWreg_le⟩
  | hold | pure | refuse | read | readErr | startSkipped | wait | sample | sampleErr | pollReady | pollBusy | pollErr
  | deliver => exact .inl ⟨rfl, id⟩

/-! ## The invariant -/

theorem environment_keeps_inv {s : State} (h : Inv s) : Inv (environment s) where
  addr := h.addr
  waiting hresp := h.waiting fun hnone => hresp (by simp [hnone])
  latches := h.latches.later rfl rfl rfl (environment_now_le s)
  cacheAbsent := h.cacheAbsent
  cacheBuilt := h.cacheBuilt

theorem Move.keeps_inv {s t : State} (h : Move s t) (hs : Inv s) : Inv t := by
  obtain ⟨hparams, haddr, _⟩ := h.keeps_handle
  refine ⟨by rw [haddr, hparams, hs.addr], h.waits_only_in_idle hs.waiting, h.keeps_latchesFit hs.latches, ?_, ?_⟩
  · rw [hparams]
    intro hoff
    obtain ⟨_, hvalid⟩ | ⟨hon, _⟩ := h.cache_cases
    · exact Bool.eq_false_iff.mpr fun ht => by simp [hs.cacheAbsent hoff] at hvalid; simp [hvalid] at ht
    · simp [hoff] at hon
  · rw [hparams]
    intro ht
    obtain ⟨hword, hvalid⟩ | ⟨_, hbuilt⟩ := h.cache_cases
    · rw [hword]
      exact hs.cacheBuilt (hvalid ht)
    · exact hbuilt

theorem construct_inv (p : Params) (port : PortBinding) : Inv (State.construct p port) where
  addr := rfl
  waiting h := absurd rfl h
  latches := latchesFit_of_idle rfl rfl
  cacheAbsent _ := rfl
  cacheBuilt h := nomatch h

/-- Settles O57: the environment's move keeps the invariant, and every move of the block does. -/
theorem stepKeepsInvariant : Obligations.StepKeepsInvariant :=
  fun _ _ hs hnext => (step_move hnext).keeps_inv (environment_keeps_inv hs)

/-- Settles O56: reset is a construction. -/
theorem constructedHandleMeetsInvariant : Obligations.ConstructedHandleMeetsInvariant :=
  ⟨construct_inv, construct_inv _ _⟩

/-- Settles O55: a construction is what it says. -/
theorem constructedHandleState : Obligations.ConstructedHandleState :=
  ⟨fun _ _ => ⟨rfl, rfl, rfl, rfl, rfl, rfl, rfl, rfl⟩, _, _, _, rfl⟩

/-- Settles O59: the block keeps the handle and the time, and the environment only lets time pass. -/
theorem handleIsImmutableAndTimeMonotone : Obligations.HandleIsImmutableAndTimeMonotone := by
  intro s t hnext
  obtain ⟨hparams, haddr, hport⟩ := (step_move hnext).keeps_handle
  obtain ⟨hnow, _, _⟩ := (step_move hnext).keeps_time_and_turns
  exact ⟨haddr, hport, hparams, (environment_now_le s).trans_eq hnow.symm⟩

/-! ## The exchanges of a step (20_memory.md R28, R32; 60_exceptions.md R125, R127) -/

/-- An exchange fails with one payload at most. -/
theorem FailedWith.unique {e : TraceEntry} {p p' : TErr} (h : FailedWith e p) (h' : FailedWith e p') : p = p' := by
  match e, h, h' with
  | .w _ _ (.err _), h, h' => exact Eq.trans h (Eq.symm h')
  | .wr _ _ _ (.ok _), ⟨_, h⟩, ⟨_, h'⟩ => exact h.trans h'.symm
  | .wr _ _ _ (.err _), h, h' => exact Eq.trans h (Eq.symm h')

theorem not_failedWith_write_ok (a : BusAddr) (bytes : List Byte) (p : TErr) : ¬ FailedWith (.w a bytes .ok) p := id

theorem not_failedWith_two_bytes (a : BusAddr) (sel hi lo : Byte) (p : TErr) :
    ¬ FailedWith (.wr a [sel] 2 (.ok [hi, lo])) p := fun h => h.1 rfl

theorem isBlockExchange_write (a : BusAddr) (reg : RegisterId) (v : Word) (answer : WriteAnswer) :
    IsBlockExchange a (.w a (Frame.write reg v).bytes answer) := ⟨rfl, reg, v, rfl⟩

theorem isBlockExchange_read (a : BusAddr) (reg : RegisterId) (answer : ReadAnswer) :
    IsBlockExchange a (.wr a [reg.selector] 2 answer) := ⟨rfl, rfl, reg, rfl⟩

/-- No transport error is among the responses a move places. -/
def PlacesNoError (s t : State) : Prop := ∀ p, t.resp = some (.errTransport p) → t.responses = s.responses

/-- A move makes no exchange, one that succeeds, or one that fails and is reported. -/
theorem Move.exchange_cases {s t : State} (h : Move s t) :
    (t.trace = s.trace ∧ PlacesNoError s t) ∨
    (∃ e, t.trace = s.trace ++ [e] ∧ IsBlockExchange s.addr e ∧ (∀ p, ¬ FailedWith e p) ∧ PlacesNoError s t) ∨
    (∃ e p, t.trace = s.trace ++ [e] ∧ IsBlockExchange s.addr e ∧ FailedWith e p ∧
      t.resp = some (.errTransport p) ∧ t.responses = s.responses ++ [.errTransport p]) := by
  cases h with
  | hold | wait | startSkipped => exact .inl ⟨rfl, fun _ _ => rfl⟩
  | pure | refuse | deliver => exact .inl ⟨rfl, fun _ h => nomatch h⟩
  | wrote _ reg v =>
    exact .inr (.inl ⟨_, rfl, isBlockExchange_write _ reg v _, not_failedWith_write_ok _ _, fun _ h => nomatch h⟩)
  | read _ reg hi lo =>
    exact .inr (.inl ⟨_, rfl, isBlockExchange_read _ reg _, not_failedWith_two_bytes _ _ hi lo, fun _ h => nomatch h⟩)
  | startWrote _ c g r =>
    exact .inr (.inl ⟨_, rfl, isBlockExchange_write _ .config _ _, not_failedWith_write_ok _ _, fun _ _ => rfl⟩)
  | sample _ _ hi lo =>
    exact .inr (.inl ⟨_, rfl, isBlockExchange_read _ .conversion _, not_failedWith_two_bytes _ _ hi lo, fun _ _ => rfl⟩)
  | pollReady _ _ hi lo | pollBusy _ _ hi lo =>
    exact .inr (.inl ⟨_, rfl, isBlockExchange_read _ .config _, not_failedWith_two_bytes _ _ hi lo, fun _ _ => rfl⟩)
  | wroteErr _ reg v e => exact .inr (.inr ⟨_, _, rfl, isBlockExchange_write _ reg v _, rfl, rfl, rfl⟩)
  | startErr _ c g r e => exact .inr (.inr ⟨_, _, rfl, isBlockExchange_write _ .config _ _, rfl, rfl, rfl⟩)
  | readErr _ reg a e hf => exact .inr (.inr ⟨_, _, rfl, isBlockExchange_read _ reg a, hf, rfl, rfl⟩)
  | sampleErr _ _ a e hf => exact .inr (.inr ⟨_, _, rfl, isBlockExchange_read _ .conversion a, hf, rfl, rfl⟩)
  | pollErr _ _ a e hf => exact .inr (.inr ⟨_, _, rfl, isBlockExchange_read _ .config a, hf, rfl, rfl⟩)

/-- A step makes no exchange or one of the block's. -/
theorem step_trace {s t : State} (h : step s = .next t) :
    t.trace = s.trace ∨ ∃ e, t.trace = s.trace ++ [e] ∧ IsBlockExchange s.addr e := by
  obtain ⟨hsame, _⟩ | ⟨e, hmore, hblock, _⟩ | ⟨e, p, hmore, hblock, _⟩ := (step_move h).exchange_cases
  · exact .inl hsame
  · exact .inr ⟨e, hmore, hblock⟩
  · exact .inr ⟨e, hmore, hblock⟩

theorem traceOfBlock_construct (p : Params) (port : PortBinding) : TraceOfBlock (State.construct p port) :=
  fun _ he => nomatch he

theorem step_keeps_traceOfBlock {s t : State} (hs : TraceOfBlock s) (h : step s = .next t) : TraceOfBlock t := by
  obtain ⟨haddr, _⟩ := handleIsImmutableAndTimeMonotone s t h
  unfold TraceOfBlock at hs ⊢
  rw [haddr]
  obtain hsame | ⟨e, hmore, hblock⟩ := step_trace h
  · rwa [hsame]
  · rw [hmore]
    intro x hx
    obtain hold | hnew := List.mem_append.mp hx
    · exact hs x hold
    · rwa [List.mem_singleton.mp hnew]

/-- Settles O60, by what becomes of the trace in one step. -/
theorem stepMakesAtMostOneBlockExchange : Obligations.StepMakesAtMostOneBlockExchange :=
  ⟨fun _ _ => step_trace, traceOfBlock_construct, fun _ _ => step_keeps_traceOfBlock⟩

/-- Settles O51: a transport error is placed by the moves whose exchange failed, and by no other. -/
theorem transportErrorIsTheFailedExchange : Obligations.TransportErrorIsTheFailedExchange := by
  refine ⟨fun s t payload hnext hplaced hresp => ?_, fun s t e payload hnext hmore hfailed => ?_⟩
  · obtain ⟨_, hquiet⟩ | ⟨_, _, _, _, hquiet⟩ | ⟨e, p, hmore, _, hf, hr, _⟩ := (blockStep_move hnext).exchange_cases
    · exact absurd (hquiet payload hresp) hplaced
    · exact absurd (hquiet payload hresp) hplaced
    · cases hr.symm.trans hresp
      exact ⟨e, hmore, hf⟩
  · have same : ∀ e', t.trace = s.trace ++ [e'] → e' = e := fun e' h => by
      simpa using h.symm.trans hmore
    obtain ⟨hsame, _⟩ | ⟨e', hmore', _, hok, _⟩ | ⟨e', p, hmore', _, hf, hr, hrs⟩ :=
      (blockStep_move hnext).exchange_cases
    · simp [hsame] at hmore
    · exact absurd (same e' hmore' ▸ hfailed) (hok payload)
    · obtain rfl := same e' hmore'
      obtain rfl := hf.unique hfailed
      exact ⟨hr, hrs⟩

/-- Settles O32: each exchange in CONVERTING is a result read or a status poll, and both are guarded. -/
theorem noExchangeBeforeMinimumConversion : Obligations.NoExchangeBeforeMinimumConversion := by
  intro s t hs hq hnext hmore
  obtain ⟨c, g, r, t0, ready, hl, ht0, hready⟩ := hs.latches.converting hq
  have ht : s.lat.t0 = some t0 := by rw [hl]
  have hr : s.lat.rate = some r := by rw [hl]
  refine ⟨t0, r, ht, hr, ht0, ?_⟩
  have read : MayRead s → r.minConvUs ≤ s.now - t0 ∧
      (s.params.waitPolicy = .fixedDelay → s.params.waitUs r ≤ s.now - t0) := fun hg => by
    refine ⟨hg.minConvUs_le ht hr (by rw [hl]) hready, fun hfixed => ?_⟩
    obtain ⟨_, t0', r', ht', hr', hwaited⟩ | ⟨hpoll, _⟩ := hg
    · cases ht.symm.trans ht'
      cases hr.symm.trans hr'
      exact hwaited
    · simp [hfixed] at hpoll
  have poll : MayPoll s → r.minConvUs ≤ s.now - t0 ∧
      (s.params.waitPolicy = .fixedDelay → s.params.waitUs r ≤ s.now - t0) := fun hg =>
    ⟨hg.minConvUs_le ht hr, fun hfixed => by simp [MayPoll, hfixed] at hg⟩
  cases blockStep_move hnext with
  | pure ha | refuse ha | wrote ha | wroteErr ha | read ha | readErr ha | startSkipped ha | startWrote ha
  | startErr ha => simp [ha.idle] at hq
  | hold => exact absurd rfl hmore
  | wait hq' | deliver hq' => simp [hq'] at hq
  | sample _ hg | sampleErr _ hg => exact read hg
  | pollReady _ hg | pollBusy _ hg | pollErr _ hg => exact poll hg

end Sys2Proof.Machine
end

section
/-! Single steps (42_conversion_sequencer.md R96 to R103; 00_scope.md R12): the wait table, the status poll, the reads of
an unwritten latch, the acceptance of a request, the refusal of a reserved op code, and the Config write no cache can
skip. -/

namespace Sys2Proof.Machine

/-! ## The wait table (42_conversion_sequencer.md R101) -/

/-- The least whole number of microseconds that is at least the reciprocal of the rate. -/
theorem minConvUs_le_iff (rate : DataRate) (n : Nat) : rate.minConvUs ≤ n ↔ 1000000 ≤ n * rate.sps := by
  cases rate <;> simp only [DataRate.minConvUs, DataRate.sps] <;> omega

/-- Settles O28: the table computed, and each entry against its rate. -/
theorem waitTableIsTheReciprocalRoundedUp : Obligations.WaitTableIsTheReciprocalRoundedUp :=
  ⟨by decide, minConvUs_le_iff, fun _ _ => rfl⟩

/-! ## The status poll (42_conversion_sequencer.md R103) -/

theorem blockStep_pollStatus_notReady {s : State} {t0 : Nat} {rate : DataRate} (hseq : s.seq = .converting)
    (hpolicy : s.params.waitPolicy = .pollStatus) (hready : s.lat.ready = some false) (ht0 : s.lat.t0 = some t0)
    (hrate : s.lat.rate = some rate) :
    blockStep s = if rate.minConvUs ≤ s.now - t0 then .next (statusPoll s) else .next s := by
  simp only [blockStep, hseq, stepConverting, hpolicy, stepPollStatus, hready, ht0, hrate, readLatch_some, waited,
    Bool.false_eq_true, if_false, decide_eq_true_eq]

theorem statusPoll_of_bytes {s : State} {hi lo : Byte} (ha : s.readAnswer [0x01] 2 = .ok [hi, lo]) :
    statusPoll s = if hi.getLsbD 7 = true
      then { s.readBack 0x01 (.ok [hi, lo]) with lat := { s.lat with ready := some true } }
      else s.readBack 0x01 (.ok [hi, lo]) := by
  have hanswer : s.readAnswer [RegisterId.config.selector] 2 = .ok [hi, lo] := ha
  have hword : s.readWord .config = .ok (hi ++ lo) := by rw [readWord_eq, hanswer, readResult_two]
  simp only [statusPoll, hword, readRegister_of_answer hanswer, osNotBusy_join]
  rfl

theorem statusPoll_of_failure {s : State} {a : ReadAnswer} {e : TErr} (ha : s.readAnswer [0x01] 2 = a)
    (he : readResult a = .error e) : statusPoll s = (s.readBack 0x01 a).failed (.errTransport e) := by
  have hanswer : s.readAnswer [RegisterId.config.selector] 2 = a := ha
  have hword : s.readWord .config = .error e := by rw [readWord_eq, hanswer, he]
  simp only [statusPoll, hword, readRegister_of_answer hanswer, raiseTransport_eq, raise_eq_failed]
  rfl

/-- Settles O24: the guard decides between the hold and the poll, the answer between the poll's four outcomes. -/
theorem statusPollOnceMinimumPassed : Obligations.StatusPollOnceMinimumPassed := by
  intro s t0 rate hseq hpolicy hready ht0 hrate
  rw [blockStep_pollStatus_notReady hseq hpolicy hready ht0 hrate]
  refine ⟨fun hearly => if_neg (Nat.not_le_of_lt hearly), fun hwaited => ?_⟩
  rw [if_pos hwaited]
  refine ⟨fun hi lo ha hidle => ?_, fun hi lo ha hbusy => ?_, fun bs ha hlen => ?_, fun e ha => ?_⟩
  · rw [statusPoll_of_bytes ha, if_pos hidle]
  · rw [statusPoll_of_bytes ha, if_neg (Bool.eq_false_iff.mp hbusy)]
  · rw [statusPoll_of_failure ha (readResult_short hlen)]
  · rw [statusPoll_of_failure ha (readResult_err e)]

/-! ## Unwritten latches (00_scope.md R12) -/

theorem stepResultAvailable_eq {s : State} (hseq : s.seq = .resultAvailable) : blockStep s = stepResultAvailable s := by
  simp only [blockStep, hseq]

theorem stepPollStatus_eq {s : State} (hseq : s.seq = .converting) (hpolicy : s.params.waitPolicy = .pollStatus) :
    blockStep s = stepPollStatus s := by
  simp only [blockStep, hseq, stepConverting, hpolicy]

/-- Past its first latch a poll reads `lat_t0` and `lat_rate`, as the step under FIXED_DELAY does at once. -/
theorem blockStep_reads_time {s : State} (hseq : s.seq = .converting)
    (hwait : s.params.waitPolicy = .fixedDelay ∨ s.lat.ready = some false) :
    ∃ use : Nat → DataRate → Result,
      blockStep s = readLatch .latT0 s.lat.t0 fun t0 => readLatch .latRate s.lat.rate (use t0) := by
  cases hpolicy : s.params.waitPolicy with
  | fixedDelay => exact ⟨_, by simp only [blockStep, hseq, stepConverting, hpolicy, stepFixedDelay]; rfl⟩
  | pollStatus =>
    have hready : s.lat.ready = some false := hwait.resolve_left (by simp [hpolicy])
    exact ⟨_, by
      simp only [stepPollStatus_eq hseq hpolicy, stepPollStatus, hready, readLatch_some, Bool.false_eq_true, if_false]
      rfl⟩

/-- Settles O27, latch by latch, in the order each step reads them. -/
theorem unwrittenLatchReadFaults : Obligations.UnwrittenLatchReadFaults := by
  refine ⟨fun s hseq hraw => ?_, fun s hseq hraw hgain => ?_, fun s hseq hpolicy hready => ?_,
    fun s hseq hwait ht0 => ?_, fun s hseq hwait ht0 hrate => ?_⟩
  · rw [stepResultAvailable_eq hseq, stepResultAvailable, hraw, readLatch_none]
  · obtain ⟨raw, hraw⟩ := Option.ne_none_iff_exists'.mp hraw
    rw [stepResultAvailable_eq hseq, stepResultAvailable, hraw, readLatch_some, hgain, readLatch_none]
  · rw [stepPollStatus_eq hseq hpolicy, stepPollStatus, hready, readLatch_none]
  · obtain ⟨use, hstep⟩ := blockStep_reads_time hseq hwait
    rw [hstep, ht0, readLatch_none]
  · obtain ⟨t0, ht0⟩ := Option.ne_none_iff_exists'.mp ht0
    obtain ⟨use, hstep⟩ := blockStep_reads_time hseq hwait
    rw [hstep, ht0, readLatch_some, hrate, readLatch_none]

/-! ## Acceptance (42_conversion_sequencer.md R96) -/

theorem blockStep_accepts {s : State} {r : Request} {rs : List Request} (hseq : s.seq = .idle) (hfree : s.resp = none)
    (hline : s.requests = r :: rs) : blockStep s = exec (decode r) { s with requests := rs } := by
  simp only [blockStep, hseq, accept, hfree, hline]

theorem blockStep_waits {s : State} {r : Response} (hseq : s.seq = .idle) (hresp : s.resp = some r) :
    blockStep s = .next s := by
  simp only [blockStep, hseq, accept, hresp]

theorem blockStep_no_request {s : State} (hseq : s.seq = .idle) (hfree : s.resp = none) (hline : s.requests = []) :
    blockStep s = .next s := by
  simp only [blockStep, hseq, accept, hfree, hline]

/-- A taken response leaves the port free. -/
theorem takeResponse_true (o : Option Response) : takeResponse true o = none := by
  cases o <;> rfl

/-- Settles O53: after the environment's move the port is free and the request first in line. -/
theorem stepRunsTheDecodedRequest : Obligations.StepRunsTheDecodedRequest := by
  intro s r rs hseq hfree hline
  have hnone : (environment s).resp = none := by
    obtain hnone | htaken := hfree
    · rw [environment_resp, hnone, takeResponse_none]
    · rw [environment_resp, htaken, takeResponse_true]
  have hstep : step s = exec (decode r) { environment s with requests := rs } :=
    blockStep_accepts (s := environment s) hseq hnone hline
  rw [hstep, ← hnone]
  rfl

/-- Settles O52: a response not taken is still there when the block looks at the line. -/
theorem responseWaitsUntilTaken : Obligations.ResponseWaitsUntilTaken := by
  intro s r hseq hresp hkeep
  have hstill : (environment s).resp = some r := by rw [environment_resp, hresp, hkeep]; rfl
  exact ⟨environment s, blockStep_waits hseq hstill, hstill, rfl, rfl, hseq, rfl⟩

/-! ## Reserved op codes (30_encoding.md R66; 60_exceptions.md R125) -/

/-- A request with a reserved op code is refused with that op code. -/
theorem exec_of_op_reserved {r : Request} (hop : r.op = 0x0 ∨ 0xB ≤ r.op) (s : State) :
    exec (decode r) s = .next (s.failed (.refused (.reservedOp r.op))) := by
  have reserved : ∀ op : BitVec 4, (op = 0x0 ∨ 0xB ≤ op) →
      op = 0x0 ∨ op = 0xB ∨ op = 0xC ∨ op = 0xD ∨ op = 0xE ∨ op = 0xF := by decide
  obtain h | h | h | h | h | h := reserved r.op hop
  all_goals
    simp only [decode, h]
    rfl

/-- In a block that accepts requests the error entry changes the response alone. -/
theorem failed_eq_answered {s : State} (hs : Accepting s) (r : Response) : s.failed r = s.answered r := by
  rw [State.failed, ← hs.clean, ← hs.idle]
  rfl

/-- Settles O48: every refusal is the error entry with the op code refused. -/
theorem reservedOpIsRefused : Obligations.ReservedOpIsRefused :=
  ⟨fun _ _ => ⟨rfl, rfl, rfl, rfl, rfl, rfl⟩, fun _ s hop => exec_of_op_reserved hop s,
    fun _ r hs => failed_eq_answered hs r⟩

/-- Settles O49: a status is one of three, and so is its code. -/
theorem statusCodesOfResponses : Obligations.StatusCodesOfResponses := by
  refine ⟨rfl, rfl, rfl, fun r => ?_, fun _ => rfl, fun _ => rfl, fun _ => rfl⟩
  cases r.status <;> decide

/-! ## The Config write (42_conversion_sequencer.md R111; 70_reset_and_hazards.md R145) -/

theorem cacheSkip_eq_false_of_singleShot {s : State} (hmode : s.params.seqMode = .singleShot) (w : Word) :
    cacheSkip w s = false := by
  simp [cacheSkip, hmode]

theorem cacheSkip_eq_false_of_invalid {s : State} (hinvalid : s.cacheValid = false) (w : Word) :
    cacheSkip w s = false := by
  simp [cacheSkip, hinvalid]

/-- A READ_CHANNEL the cache does not skip writes the Config register, whatever the answer. -/
theorem startConversion_trace {c : Channel} {g : GainRange} {r : DataRate} {s : State}
    (hskip : cacheSkip (readChannelWord s.params c g r) s = false) :
    ∃ a, (startConversion c g r s).trace =
      s.trace ++ [.w s.addr (Frame.write .config (readChannelWord s.params c g r)).bytes a] := by
  cases ha : s.writeAnswer (Frame.write .config (readChannelWord s.params c g r)).bytes with
  | ok => exact ⟨_, by rw [startConversion_of_ok hskip ha]; rfl⟩
  | err e => exact ⟨_, by rw [startConversion_of_err hskip ha]; rfl⟩

/-- Settles O34: the cache skips nothing in SINGLE_SHOT mode. -/
theorem singleShotAlwaysWritesConfig : Obligations.SingleShotAlwaysWritesConfig := by
  intro sel c g r s hmode
  have hskip : cacheSkip (readChannelWord s.params c g r) s = false := cacheSkip_eq_false_of_singleShot hmode _
  obtain ⟨a, htrace⟩ := startConversion_trace hskip
  exact ⟨hskip, _, a, exec_readChannel sel c g r s, htrace⟩

/-- Settles O38: a register write at most invalidates the cache, and an invalid one skips nothing. -/
theorem firstReadChannelWritesConfig : Obligations.FirstReadChannelWritesConfig := by
  refine ⟨construct_cacheValid, fun i s t hnext hinvalid hnotRead => ?_, fun sel c g r s hinvalid => ?_⟩
  · obtain ⟨sel, c, g, r, rfl, _⟩ | ⟨reg, v, _, rfl⟩ | ⟨reg, _, rfl⟩ | ⟨d, rfl⟩ | ⟨op, rfl⟩ := exec_cases hnext
    · exact absurd rfl (hnotRead sel c g r)
    · rw [(wreg_keeps_cache reg v _).1]
      split
      · rw [cacheInvalidate_cacheValid, hinvalid, Bool.and_false]
      · exact hinvalid
    · rw [(rreg_keeps_cache reg s).1, hinvalid]
    · exact hinvalid
    · exact hinvalid
  · have hskip : cacheSkip (readChannelWord s.params c g r) s = false := cacheSkip_eq_false_of_invalid hinvalid _
    obtain ⟨a, htrace⟩ := startConversion_trace hskip
    exact ⟨_, a, exec_readChannel sel c g r s, htrace⟩

end Sys2Proof.Machine
end

section
/-! Runs (42_conversion_sequencer.md R97 to R105; 60_exceptions.md R135): no run stops and time reaches every bound; a
READ_CHANNEL from its request to its response under FIXED_DELAY. -/

namespace Sys2Proof.Machine

/-! ## Runs, step by step -/

theorem runSteps_succ_inv {n : Nat} {s t : State} (h : runSteps (n + 1) s = .next t) :
    ∃ u, step s = .next u ∧ runSteps n u = .next t := by
  cases hstep : step s with
  | next u => exact ⟨u, rfl, (runSteps_next hstep).symm.trans h⟩
  | fault f => exact nomatch (runSteps_fault hstep).symm.trans h
  | refused x => exact absurd hstep (blockStep_ne_refused (environment s) x)

theorem runSteps_add {m n : Nat} {s t : State} (h : runSteps m s = .next t) : runSteps (m + n) s = runSteps n t := by
  induction m generalizing s with
  | zero =>
    injection h with h
    subst h
    rw [Nat.zero_add]
  | succ m ih =>
    obtain ⟨u, hstep, hrest⟩ := runSteps_succ_inv h
    rw [Nat.succ_add, runSteps_next hstep, ih hrest]

theorem runSteps_one {s t : State} (h : step s = .next t) : runSteps 1 s = .next t := by
  rw [runSteps_next h, runSteps_zero]

/-- The reading before the next step grows along a run. -/
theorem environment_now_le_of_run {n : Nat} {s t : State} (h : runSteps n s = .next t) :
    (environment s).now ≤ (environment t).now := by
  induction n generalizing s with
  | zero =>
    injection h with h
    subst h
    exact Nat.le_refl _
  | succ n ih =>
    obtain ⟨u, hstep, hrest⟩ := runSteps_succ_inv h
    obtain ⟨hnow, _, _⟩ := (step_move hstep).keeps_time_and_turns
    calc (environment s).now = u.now := hnow.symm
      _ ≤ (environment u).now := environment_now_le u
      _ ≤ (environment t).now := ih hrest

theorem now_le_of_run {n : Nat} {s t : State} (h : runSteps n s = .next t) : s.now ≤ t.now := by
  induction n generalizing s with
  | zero =>
    injection h with h
    subst h
    exact Nat.le_refl _
  | succ n ih =>
    obtain ⟨u, hstep, hrest⟩ := runSteps_succ_inv h
    obtain ⟨_, _, _, hnow⟩ := handleIsImmutableAndTimeMonotone s u hstep
    exact hnow.trans (ih hrest)

/-! ## No run stops, and time reaches every bound (60_exceptions.md R135, R141) -/

/-- Where the latches fit, every latch a step reads holds a value. -/
theorem blockStep_goes_on {s : State} (hs : LatchesFit s) : ∃ t, blockStep s = .next t := by
  cases hseq : s.seq with
  | idle =>
    cases hresp : s.resp with
    | some r => exact ⟨s, blockStep_waits hseq hresp⟩
    | none =>
      cases hline : s.requests with
      | nil => exact ⟨s, blockStep_no_request hseq hresp hline⟩
      | cons r rs =>
        rw [blockStep_accepts hseq hresp hline]
        exact exec_next _ _
  | configWritten => exact ⟨_, blockStep_configWritten hseq⟩
  | converting =>
    obtain ⟨c, g, r, t0, ready, hl, _⟩ := hs.converting hseq
    have ht0 : s.lat.t0 = some t0 := by rw [hl]
    have hrate : s.lat.rate = some r := by rw [hl]
    have hready : s.lat.ready = some ready := by rw [hl]
    cases hpolicy : s.params.waitPolicy with
    | fixedDelay =>
      rw [blockStep_fixedDelay hseq hpolicy ht0 hrate]
      split <;> exact ⟨_, rfl⟩
    | pollStatus =>
      cases ready with
      | true => exact ⟨_, blockStep_pollStatus_ready hseq hpolicy hready⟩
      | false =>
        rw [blockStep_pollStatus_notReady hseq hpolicy hready ht0 hrate]
        split <;> exact ⟨_, rfl⟩
  | resultAvailable =>
    rw [LatchesFit, hseq] at hs
    obtain ⟨c, g, r, t0, ready, raw, hl, _⟩ := hs
    exact ⟨_, blockStep_resultAvailable hseq (raw := raw) (gain := g) (by rw [hl]) (by rw [hl])⟩

/-- The state after a step, and where the machine stops, after the environment's move alone. -/
def stepped (s : State) : State :=
  match step s with
  | .next t => t
  | _ => environment s

theorem stepped_of_next {s t : State} (h : step s = .next t) : stepped s = t := by
  rw [stepped, h]

/-- Whether or not the machine stops, `stepped` uses up a move and takes time on as the environment does. -/
theorem stepped_keeps_environment (s : State) :
    (stepped s).now = (environment s).now ∧ (stepped s).turns = (environment s).turns ∧
      (environment s).drawn ≤ (stepped s).drawn := by
  cases hstep : step s with
  | next t =>
    rw [stepped_of_next hstep]
    exact (step_move hstep).keeps_time_and_turns
  | fault f => simp only [stepped, hstep, le_refl, and_self]
  | refused x => simp only [stepped, hstep, le_refl, and_self]

theorem step_eq_stepped {s : State} (hs : Inv s) : step s = .next (stepped s) := by
  obtain ⟨t, hstep⟩ := blockStep_goes_on (environment_keeps_inv hs).latches
  rw [stepped_of_next hstep]
  exact hstep

theorem runSteps_eq_stepped {s : State} (hs : Inv s) (n : Nat) : runSteps n s = .next (stepped^[n] s) := by
  induction n generalizing s with
  | zero => rfl
  | succ n ih => rw [runSteps_next (step_eq_stepped hs), ih (stepKeepsInvariant s _ hs (step_eq_stepped hs))]; rfl

/-- Settles O58: from the invariant the run is `stepped` iterated, and time reaches every bound along that. -/
theorem invariantRunsNeverStop : Obligations.InvariantRunsNeverStop := by
  refine fun s hs => ⟨fun n => ⟨_, runSteps_eq_stepped hs n⟩, fun bound => ?_⟩
  obtain ⟨n, hbound⟩ := time_reaches stepped (fun s => (stepped_keeps_environment s).2.1)
    (fun s => (Nat.lt_succ_self _).trans_le (stepped_keeps_environment s).2.2)
    (fun s => (stepped_keeps_environment s).1) bound s
  exact ⟨n, _, runSteps_eq_stepped hs n, hbound⟩

/-! ## A READ_CHANNEL under way -/

/-- `t` comes of `s` by these exchanges, no response and no change of the handle; its cache is the one given. -/
structure Progress (s t : State) (exchanges : List TraceEntry) (valid : Bool) (word : Word) : Prop where
  trace : t.trace = s.trace ++ exchanges
  responses : t.responses = s.responses
  cacheValid : t.cacheValid = valid
  cacheWord : t.cacheWord = word
  params : t.params = s.params
  addr : t.addr = s.addr
  port : t.port = s.port

theorem progress_environment (s : State) : Progress s (environment s) [] s.cacheValid s.cacheWord :=
  ⟨(List.append_nil _).symm, rfl, rfl, rfl, rfl, rfl, rfl⟩

section
variable {s t u : State} {ex ex' : List TraceEntry} {valid valid' : Bool} {word word' : Word}

theorem Progress.trans (h : Progress s t ex valid word) (h' : Progress t u ex' t.cacheValid t.cacheWord) :
    Progress s u (ex ++ ex') valid word where
  trace := by rw [h'.trace, h.trace, List.append_assoc]
  responses := h'.responses.trans h.responses
  cacheValid := h'.cacheValid.trans h.cacheValid
  cacheWord := h'.cacheWord.trans h.cacheWord
  params := h'.params.trans h.params
  addr := h'.addr.trans h.addr
  port := h'.port.trans h.port

theorem Progress.environment (h : Progress s t ex valid word) : Progress s (environment t) ex valid word := by
  simpa using h.trans (progress_environment t)

theorem Progress.readBack (h : Progress s t ex valid word) (sel : Byte) (a : ReadAnswer) :
    Progress s (t.readBack sel a) (ex ++ [.wr s.addr [sel] 2 a]) valid word :=
  h.trans ⟨by rw [readBack_trace, h.addr], rfl, rfl, rfl, rfl, rfl, rfl⟩

/-- The latches and the sequencer are no part of it. -/
theorem Progress.with_lat_seq (h : Progress s t ex valid word) (l : Latches) (q : Seq) :
    Progress s { t with lat := l, seq := q } ex valid word :=
  ⟨h.trace, h.responses, h.cacheValid, h.cacheWord, h.params, h.addr, h.port⟩

/-- The operation ends as the error entry ends it, whatever the response. -/
theorem Progress.completes (h : Progress s t ex valid word) (n : Nat) (r : Response) :
    CompletesWith s ⟨n, ex, r, valid, word⟩ (.next (t.failed r)) :=
  ⟨_, rfl, h.trace, rfl, congrArg (· ++ [r]) h.responses, h.cacheValid, h.cacheWord, rfl, rfl, h.params, h.addr, h.port⟩

end

/-! ## From the request to CONVERTING (42_conversion_sequencer.md R99, R100) -/

/-- The block is converting since `t0`, at this rate. -/
structure Converting (s : State) (t0 : Nat) (rate : DataRate) (ready : Bool) : Prop where
  seq : s.seq = .converting
  t0 : s.lat.t0 = some t0
  rate : s.lat.rate = some rate
  ready : s.lat.ready = some ready

/-- A READ_CHANNEL accepted from `s` has come to CONVERTING in `u`, at this very reading of the time. -/
structure Started (s u : State) (gain : GainRange) (rate : DataRate) (exchanges : List TraceEntry) (valid : Bool)
    (word : Word) : Prop where
  run : runSteps 2 s = .next u
  converting : Converting u u.now rate false
  gain : u.lat.gain = some gain
  progress : Progress s u exchanges valid word
  readAnswers : u.readAnswers = s.readAnswers
  turns : u.turns = s.turns.tail.tail

/-- The answer of the port to the Config write of the coming step. -/
def startAnswer (s : State) (c : Channel) (g : GainRange) (rate : DataRate) : WriteAnswer :=
  (environment s).writeAnswer (Frame.write .config (readChannelWord s.params c g rate)).bytes

theorem startAnswer_listed {s : State} {a : WriteAnswer} {as : List WriteAnswer} (h : s.writeAnswers = a :: as)
    (c : Channel) (g : GainRange) (rate : DataRate) : startAnswer s c g rate = a := by
  simp only [startAnswer, State.writeAnswer, environment_writeAnswers, h]

/-- CONFIG_WRITTEN lasts one step. -/
theorem started_of_configWritten {s v : State} {g : GainRange} {rate : DataRate} {ex : List TraceEntry} {valid : Bool}
    {word : Word} (hstep : step s = .next v) (hseq : v.seq = .configWritten) (hgain : v.lat.gain = some g)
    (hrate : v.lat.rate = some rate) (hprogress : Progress s v ex valid word) (hreads : v.readAnswers = s.readAnswers) :
    ∃ u, Started s u g rate ex valid word := by
  have hwait : step v = _ := blockStep_configWritten (s := environment v) hseq
  refine ⟨_, (runSteps_next hstep).trans (runSteps_one hwait), ⟨rfl, rfl, hrate, rfl⟩, hgain,
    hprogress.environment.with_lat_seq _ _, hreads, ?_⟩
  have hturns := (step_move hstep).keeps_time_and_turns.2.1
  exact congrArg List.tail hturns

section
variable {s : State} {r : Request} {rs : List Request} {sel : BitVec 2} {c : Channel} {g : GainRange} {rate : DataRate}
  (hs : Accepting s) (hline : s.requests = r :: rs) (hdec : decode r = .readChannel sel c g rate)
include hs hline hdec

theorem step_readChannel :
    step s = .next (startConversion c g rate { environment s with requests := rs ++ s.nextTurn.present }) := by
  have hlined : s.requests ++ s.nextTurn.present = r :: (rs ++ s.nextTurn.present) := by rw [hline]; rfl
  have hnone : (environment s).resp = none := by rw [environment_resp, hs.free, takeResponse_none]
  rw [stepRunsTheDecodedRequest s r _ hs.idle (.inl hs.free) hlined, hdec, exec_readChannel, ← hnone]
  rfl

theorem started_of_skip (hskip : cacheSkip (readChannelWord s.params c g rate) s = true) :
    ∃ u, Started s u g rate [] s.cacheValid s.cacheWord := by
  have hstep := step_readChannel hs hline hdec
  rw [startConversion_of_skip (s := { environment s with requests := rs ++ s.nextTurn.present }) hskip] at hstep
  exact started_of_configWritten hstep rfl rfl rfl ⟨(List.append_nil _).symm, rfl, rfl, rfl, rfl, rfl, rfl⟩ rfl

theorem started_of_ok (hskip : cacheSkip (readChannelWord s.params c g rate) s = false)
    (hok : startAnswer s c g rate = .ok) :
    ∃ u, Started s u g rate [.w s.addr (Frame.write .config (readChannelWord s.params c g rate)).bytes .ok]
      (if s.params.cacheEnabled then true else s.cacheValid)
      (if s.params.cacheEnabled then readChannelWord s.params c g rate else s.cacheWord) := by
  have hstep := step_readChannel hs hline hdec
  rw [startConversion_of_ok (s := { environment s with requests := rs ++ s.nextTurn.present }) hskip hok] at hstep
  exact started_of_configWritten hstep rfl rfl rfl ⟨rfl, rfl, rfl, rfl, rfl, rfl, rfl⟩ rfl

theorem completes_of_startErr {e : PortError} (hskip : cacheSkip (readChannelWord s.params c g rate) s = false)
    (herr : startAnswer s c g rate = .err e) :
    CompletesWith s
      ⟨1, [.w s.addr (Frame.write .config (readChannelWord s.params c g rate)).bytes (.err e)], .errTransport (.port e),
        if s.params.cacheEnabled then false else s.cacheValid, s.cacheWord⟩ (runSteps 1 s) := by
  have hstep := step_readChannel hs hline hdec
  rw [startConversion_of_err (s := { environment s with requests := rs ++ s.nextTurn.present }) hskip herr] at hstep
  rw [runSteps_one hstep]
  refine Progress.completes ?_ 1 _
  exact ⟨rfl, rfl, rfl, rfl, rfl, rfl, rfl⟩

end

/-! ## The result read and the delivery (42_conversion_sequencer.md R102, R104, R105) -/

/-- A failed two-byte read is what the codec calls one. -/
theorem readResult_of_failedWith {a : BusAddr} {bytes : List Byte} {ra : ReadAnswer} {p : TErr}
    (h : FailedWith (.wr a bytes 2 ra) p) : readResult ra = .error p := by
  cases ra with
  | err e =>
    cases h
    exact readResult_err e
  | ok bs =>
    obtain ⟨hlen, rfl⟩ := h
    exact readResult_short hlen

theorem two_bytes_or_failedWith (ra : ReadAnswer) (a : BusAddr) (bytes : List Byte) :
    (∃ hi lo, ra = .ok [hi, lo]) ∨ ∃ p, FailedWith (.wr a bytes 2 ra) p := by
  obtain ⟨hi, lo, rfl, _⟩ | ⟨bs, rfl, hlen, _⟩ | ⟨e, rfl, _⟩ := readResult_cases ra
  · exact .inl ⟨hi, lo, rfl⟩
  · exact .inr ⟨_, hlen, rfl⟩
  · exact .inr ⟨_, rfl⟩

theorem readAnswer_listed {s : State} {a : ReadAnswer} {as : List ReadAnswer} (h : s.readAnswers = a :: as)
    (bytes : List Byte) (n : Nat) : (environment s).readAnswer bytes n = a := by
  simp only [State.readAnswer, environment_readAnswers, h]

section
variable {s u : State} {ex : List TraceEntry} {valid : Bool} {word : Word} {g : GainRange}
  (hprogress : Progress s u ex valid word) (hread : step u = .next (resultRead (environment u)))
include hprogress hread

/-- Two bytes: the sample in one step, the voltage in the next. -/
theorem completes_of_sample (hgain : u.lat.gain = some g) {hi lo : Byte}
    (ha : (environment u).readAnswer [0x00] 2 = .ok [hi, lo]) (n : Nat) :
    CompletesWith s
      ⟨n, ex ++ [.wr s.addr [0x00] 2 (.ok [hi, lo])], .ok (.f32 (scaleVolts s.params (toI16 (hi ++ lo)) g)), valid, word⟩
      (runSteps 2 u) := by
  rw [resultRead_of_word ha (readResult_two hi lo), ← toI16_eq] at hread
  have sampled := (hprogress.environment.readBack 0x00 (.ok [hi, lo])).with_lat_seq
    { (environment u).lat with raw := some (toI16 (hi ++ lo)) } .resultAvailable
  have hdeliver := blockStep_resultAvailable (raw := toI16 (hi ++ lo)) (gain := g) (s := environment
    { (environment u).readBack 0x00 (.ok [hi, lo]) with
      lat := { (environment u).lat with raw := some (toI16 (hi ++ lo)) }, seq := .resultAvailable }) rfl rfl hgain
  rw [runSteps_next hread, runSteps_one hdeliver, environment_params, sampled.params]
  exact sampled.environment.completes n _

theorem completes_of_sampleErr {ra : ReadAnswer} {p : TErr} (ha : (environment u).readAnswer [0x00] 2 = ra)
    (hf : FailedWith (.wr s.addr [0x00] 2 ra) p) (n : Nat) :
    CompletesWith s ⟨n, ex ++ [.wr s.addr [0x00] 2 ra], .errTransport p, valid, word⟩ (runSteps 1 u) := by
  rw [resultRead_of_failure ha (readResult_of_failedWith hf)] at hread
  rw [runSteps_one hread]
  exact (hprogress.environment.readBack 0x00 ra).completes n _

end

/-! ## FIXED_DELAY (42_conversion_sequencer.md R97, R102) -/

theorem procedureRead_of_failedWith {ra : ReadAnswer} {p : TErr} {a : BusAddr} {bytes : List Byte}
    (hf : FailedWith (.wr a bytes 2 ra) p) (s : State) (g : GainRange) (ex : List TraceEntry) (valid : Bool) (word : Word) :
    procedureRead s g ra ex valid word = ⟨3, ex ++ [.wr s.addr [0x00] 2 ra], .errTransport p, valid, word⟩ := by
  match ra, hf with
  | .err e, hf => cases hf; rfl
  | .ok [], ⟨_, hp⟩ => cases hp; rfl
  | .ok [_], ⟨_, hp⟩ => cases hp; rfl
  | .ok [_, _], ⟨hlen, _⟩ => exact absurd rfl hlen
  | .ok (_ :: _ :: _ :: _), ⟨_, hp⟩ => cases hp; rfl

/-- Once the wait is over the rest of the procedure takes one step or two. -/
theorem completes_of_waited {s u : State} {ex : List TraceEntry} {valid : Bool} {word : Word} {g : GainRange} {t0 : Nat}
    {rate : DataRate} {ready : Bool} (hprogress : Progress s u ex valid word) (hconv : Converting u t0 rate ready)
    (hgain : u.lat.gain = some g) (hpolicy : s.params.waitPolicy = .fixedDelay)
    (hwaited : s.params.waitUs rate ≤ (environment u).now - t0) {ra : ReadAnswer}
    (ha : (environment u).readAnswer [0x00] 2 = ra) :
    ∃ m, (procedureRead s g ra ex valid word).steps = 2 + m ∧
      CompletesWith s (procedureRead s g ra ex valid word) (runSteps m u) := by
  have hread : step u = .next (resultRead (environment u)) := by
    rw [← hprogress.params] at hpolicy hwaited
    rw [step, blockStep_fixedDelay (s := environment u) hconv.seq hpolicy hconv.t0 hconv.rate]
    exact if_pos hwaited
  obtain ⟨hi, lo, rfl⟩ | ⟨p, hf⟩ := two_bytes_or_failedWith ra s.addr [0x00]
  · exact ⟨2, rfl, completes_of_sample hprogress hread hgain ha 4⟩
  · rw [procedureRead_of_failedWith hf]
    exact ⟨1, rfl, completes_of_sampleErr hprogress hread ha hf 3⟩

/-- Until the wait is over each step is a hold, in which the environment alone moves. -/
theorem holds_until_waited {s : State} {t0 : Nat} {rate : DataRate} {ready : Bool} (hconv : Converting s t0 rate ready)
    (hpolicy : s.params.waitPolicy = .fixedDelay) (n : Nat)
    (hreached : s.params.waitUs rate ≤ (environment^[n] s).now - t0) :
    ∃ k u, runSteps k s = .next u ∧ s.params.waitUs rate ≤ (environment u).now - t0 ∧ u.seq = s.seq ∧ u.lat = s.lat ∧
      u.readAnswers = s.readAnswers ∧ Progress s u [] s.cacheValid s.cacheWord := by
  by_cases hnow : s.params.waitUs rate ≤ (environment s).now - t0
  · exact ⟨0, s, rfl, hnow, rfl, rfl, rfl, (List.append_nil _).symm, rfl, rfl, rfl, rfl, rfl, rfl⟩
  induction n generalizing s with
  | zero => exact absurd (hreached.trans (Nat.sub_le_sub_right (environment_now_le s) t0)) hnow
  | succ n ih =>
    have hhold : step s = .next (environment s) := by
      rw [step, blockStep_fixedDelay (s := environment s) hconv.seq hpolicy hconv.t0 hconv.rate]
      exact if_neg hnow
    by_cases hnext : s.params.waitUs rate ≤ (environment (environment s)).now - t0
    · exact ⟨1, environment s, runSteps_one hhold, hnext, rfl, rfl, rfl, progress_environment s⟩
    · obtain ⟨k, u, hrun, hwaited, hseq, hlat, hreads, hprogress⟩ :=
        ih (s := environment s) ⟨hconv.seq, hconv.t0, hconv.rate, hconv.ready⟩ hpolicy hreached hnext
      exact ⟨k + 1, u, (runSteps_next hhold).trans hrun, hwaited, hseq, hlat, hreads,
        (progress_environment s).trans hprogress⟩

theorem readChannelProcedure_of_skip {s : State} {c : Channel} {g : GainRange} {rate : DataRate}
    (hskip : cacheSkip (readChannelWord s.params c g rate) s = true) (wa : WriteAnswer) (ra : ReadAnswer) :
    readChannelProcedure s c g rate wa ra = procedureRead s g ra [] s.cacheValid s.cacheWord :=
  if_pos hskip

theorem readChannelProcedure_of_noSkip {s : State} {c : Channel} {g : GainRange} {rate : DataRate}
    (hskip : cacheSkip (readChannelWord s.params c g rate) s = false) (wa : WriteAnswer) (ra : ReadAnswer) :
    readChannelProcedure s c g rate wa ra = match wa with
      | .err e =>
        ⟨1, [.w s.addr (Frame.write .config (readChannelWord s.params c g rate)).bytes (.err e)], .errTransport (.port e),
          if s.params.cacheEnabled then false else s.cacheValid, s.cacheWord⟩
      | .ok =>
        procedureRead s g ra [.w s.addr (Frame.write .config (readChannelWord s.params c g rate)).bytes .ok]
          (if s.params.cacheEnabled then true else s.cacheValid)
          (if s.params.cacheEnabled then readChannelWord s.params c g rate else s.cacheWord) :=
  if_neg (Bool.eq_false_iff.mp hskip)

/-- The procedure's first half: over after the Config write that failed, or come to CONVERTING. -/
theorem procedure_start {s : State} {r : Request} {rs : List Request} {sel : BitVec 2} {c : Channel} {g : GainRange}
    {rate : DataRate} (hs : Accepting s) (hline : s.requests = r :: rs) (hdec : decode r = .readChannel sel c g rate)
    {wa : WriteAnswer} (hwa : startAnswer s c g rate = wa) :
    (∀ ra, (readChannelProcedure s c g rate wa ra).steps = 1 ∧
      CompletesWith s (readChannelProcedure s c g rate wa ra) (runSteps 1 s)) ∨
    (∃ u ex valid word, Started s u g rate ex valid word ∧
      ∀ ra, readChannelProcedure s c g rate wa ra = procedureRead s g ra ex valid word) := by
  cases hskip : cacheSkip (readChannelWord s.params c g rate) s with
  | true =>
    obtain ⟨u, hu⟩ := started_of_skip hs hline hdec hskip
    exact .inr ⟨u, _, _, _, hu, readChannelProcedure_of_skip hskip wa⟩
  | false =>
    cases wa with
    | ok =>
      obtain ⟨u, hu⟩ := started_of_ok hs hline hdec hskip hwa
      exact .inr ⟨u, _, _, _, hu, readChannelProcedure_of_noSkip hskip .ok⟩
    | err e =>
      refine .inl fun ra => ?_
      rw [readChannelProcedure_of_noSkip hskip]
      exact ⟨rfl, completes_of_startErr hs hline hdec hskip hwa⟩

/-- Settles O29: after the procedure's first half, the third listed move ends the wait, or time does after some holds. -/
theorem fixedDelayRunIsTheProcedure : Obligations.FixedDelayRunIsTheProcedure := by
  refine ⟨fun s r rs sel c g rate wa was ra ras t1 t2 t3 t4 ts hs hpolicy hline hdec hturns hwait hwrites hreads => ?_,
    fun s r rs sel c g rate hs hpolicy hline hdec => ?_⟩
  · obtain hfailed | ⟨u, ex, valid, word, hu, hproc⟩ := procedure_start hs hline hdec (startAnswer_listed hwrites c g rate)
    · obtain ⟨hsteps, hdone⟩ := hfailed ra
      simpa only [hsteps] using hdone
    · have hturn : u.nextTurn = t3 := nextTurn_listed (by rw [hu.turns, hturns]; rfl)
      have hwaited : s.params.waitUs rate ≤ (environment u).now - u.now := by
        rw [environment_now, hturn, Nat.add_sub_cancel_left]
        exact hwait
      obtain ⟨m, hsteps, hdone⟩ := completes_of_waited hu.progress hu.converting hu.gain hpolicy hwaited
        (readAnswer_listed (hu.readAnswers.trans hreads) [0x00] 2)
      simp only [hproc, hsteps, runSteps_add hu.run]
      exact hdone
  · obtain hfailed | ⟨u, ex, valid, word, hu, hproc⟩ := procedure_start hs hline hdec rfl
    · obtain ⟨ra, hra⟩ : ∃ ra, ∀ a as, s.readAnswers = a :: as → ra = a := by
        cases s.readAnswers with
        | nil => exact ⟨.ok [], fun _ _ h => nomatch h⟩
        | cons a as => exact ⟨a, fun _ _ h => (List.cons.inj h).1⟩
      obtain ⟨hsteps, hdone⟩ := hfailed ra
      exact ⟨1, _, ra, fun _ _ h => startAnswer_listed h c g rate, hra, hsteps.le, hdone⟩
    · obtain ⟨n, hreached⟩ := time_reaches environment (fun _ => rfl) (fun _ => Nat.lt_succ_self _) (fun _ => rfl)
        (s.params.waitUs rate + u.now) u
      rw [← hu.progress.params] at hpolicy hreached
      obtain ⟨k, v, hrun, hwaited, hseq, hlat, hreads, hheld⟩ :=
        holds_until_waited hu.converting hpolicy n (Nat.le_sub_of_add_le hreached)
      rw [hu.progress.params] at hpolicy hwaited
      have hconv : Converting v u.now rate false :=
        ⟨hseq.trans hu.converting.seq, hlat ▸ hu.converting.t0, hlat ▸ hu.converting.rate, hlat ▸ hu.converting.ready⟩
      have hprogress : Progress s v ex valid word := by simpa using hu.progress.trans hheld
      obtain ⟨m, hsteps, hdone⟩ := completes_of_waited hprogress hconv (hlat ▸ hu.gain) hpolicy hwaited rfl
      refine ⟨2 + (k + m), startAnswer s c g rate, (environment v).readAnswer [0x00] 2,
        fun _ _ h => startAnswer_listed h c g rate,
        fun _ _ h => readAnswer_listed ((hreads.trans hu.readAnswers).trans h) [0x00] 2, ?_⟩
      simp only [hproc, hsteps, runSteps_add hu.run, runSteps_add hrun]
      exact ⟨by omega, hdone⟩

end Sys2Proof.Machine
end

section
/-! Runs under POLL_STATUS (42_conversion_sequencer.md R103, R104, R108; 70_reset_and_hazards.md R152): any number of
busy polls, then the sample, and what a poll or a result read that fails does. -/

namespace Sys2Proof.Machine

/-! ## Busy polls (42_conversion_sequencer.md R103) -/

/-- The answer of a device that shows these two bytes, and the status poll it answers. -/
def busyAnswer (b : Byte × Byte) : ReadAnswer := .ok [b.1, b.2]
def busyPoll (s : State) (b : Byte × Byte) : TraceEntry := .wr s.addr [0x01] 2 (busyAnswer b)

/-- `t` comes of `s` by the first `k` of these polls and any number of holds. -/
structure Polled (s t : State) (busy : List (Byte × Byte)) (ras : List ReadAnswer) (k : Nat) : Prop where
  seq : t.seq = s.seq
  lat : t.lat = s.lat
  requests : ∃ more, t.requests = s.requests ++ more
  readAnswers : t.readAnswers = (busy.drop k).map busyAnswer ++ ras
  progress : Progress s t ((busy.take k).map (busyPoll s)) s.cacheValid s.cacheWord

section
variable {s t u : State} {busy : List (Byte × Byte)} {ras : List ReadAnswer} {j k : Nat}

theorem polled_refl (hreads : s.readAnswers = busy.map busyAnswer ++ ras) : Polled s s busy ras 0 where
  seq := rfl
  lat := rfl
  requests := ⟨[], (List.append_nil _).symm⟩
  readAnswers := hreads
  progress := ⟨(List.append_nil _).symm, rfl, rfl, rfl, rfl, rfl, rfl⟩

theorem polled_hold (hreads : s.readAnswers = busy.map busyAnswer ++ ras) : Polled s (environment s) busy ras 0 where
  seq := rfl
  lat := rfl
  requests := ⟨_, rfl⟩
  readAnswers := hreads
  progress := progress_environment s

theorem polled_once {b : Byte × Byte} (hreads : s.readAnswers = (b :: busy).map busyAnswer ++ ras) :
    Polled s ((environment s).readBack 0x01 (busyAnswer b)) (b :: busy) ras 1 where
  seq := rfl
  lat := rfl
  requests := ⟨_, rfl⟩
  readAnswers := congrArg List.tail hreads
  progress := (progress_environment s).readBack 0x01 (busyAnswer b)

theorem Polled.trans (h : Polled s t busy ras j) (h' : Polled t u (busy.drop j) ras k) : Polled s u busy ras (j + k) where
  seq := h'.seq.trans h.seq
  lat := h'.lat.trans h.lat
  requests := by
    obtain ⟨more, hmore⟩ := h.requests
    obtain ⟨more', hmore'⟩ := h'.requests
    exact ⟨more ++ more', by rw [hmore', hmore, List.append_assoc]⟩
  readAnswers := by rw [h'.readAnswers, List.drop_drop]
  progress := by
    have samePoll : busyPoll t = busyPoll s := by
      funext b
      rw [busyPoll, h.progress.addr]
      rfl
    rw [List.take_add, List.map_append]
    exact h.progress.trans (samePoll ▸ h'.progress)

end

theorem Polled.converting {s t : State} {busy : List (Byte × Byte)} {ras : List ReadAnswer} {k t0 : Nat} {rate : DataRate}
    {ready : Bool} (h : Polled s t busy ras k) (hconv : Converting s t0 rate ready) : Converting t t0 rate ready :=
  ⟨h.seq.trans hconv.seq, h.lat ▸ hconv.t0, h.lat ▸ hconv.rate, h.lat ▸ hconv.ready⟩

/-- A step of a block whose device is busy is a poll or, before the minimum time, a hold. -/
theorem step_of_busy {s : State} {t0 : Nat} {rate : DataRate} (hconv : Converting s t0 rate false)
    (hpolicy : s.params.waitPolicy = .pollStatus) {b : Byte × Byte} {as : List ReadAnswer}
    (hreads : s.readAnswers = busyAnswer b :: as) (hb : b.1.getLsbD 7 = false) :
    step s = if rate.minConvUs ≤ (environment s).now - t0 then .next ((environment s).readBack 0x01 (busyAnswer b))
      else .next (environment s) := by
  rw [step, blockStep_pollStatus_notReady (s := environment s) hconv.seq hpolicy hconv.ready hconv.t0 hconv.rate,
    statusPoll_of_bytes (readAnswer_listed hreads [0x01] 2), if_neg (Bool.eq_false_iff.mp hb)]
  rfl

/-- As many steps as the device answers busy: each a poll once the minimum time has passed, and no poll before. -/
theorem busy_run {t0 : Nat} {rate : DataRate} {ras : List ReadAnswer} (n : Nat) :
    ∀ (s : State) (busy : List (Byte × Byte)), Converting s t0 rate false → s.params.waitPolicy = .pollStatus →
      s.readAnswers = busy.map busyAnswer ++ ras → n ≤ busy.length → (∀ b ∈ busy, b.1.getLsbD 7 = false) →
      ∃ t k, runSteps n s = .next t ∧ Polled s t busy ras k ∧ k ≤ n ∧
        (rate.minConvUs ≤ (environment s).now - t0 → k = n) ∧ (t.now - t0 < rate.minConvUs → k = 0) := by
  induction n with
  | zero => exact fun s busy _ _ hreads _ _ => ⟨s, 0, rfl, polled_refl hreads, le_rfl, fun _ => rfl, fun _ => rfl⟩
  | succ n ih =>
    intro s busy hconv hpolicy hreads hn hbusy
    cases busy with
    | nil => exact absurd hn (Nat.not_succ_le_zero n)
    | cons b busy =>
      have hstep := step_of_busy hconv hpolicy hreads (hbusy b List.mem_cons_self)
      by_cases hmin : rate.minConvUs ≤ (environment s).now - t0
      · have once := polled_once hreads
        rw [if_pos hmin] at hstep
        obtain ⟨t, k, hrun, hpolled, hk, hall, _⟩ := ih _ busy (once.converting hconv) hpolicy once.readAnswers
          (Nat.le_of_succ_le_succ hn) (fun b hb => hbusy b (List.mem_cons_of_mem _ hb))
        have hnow := now_le_of_run hrun
        have hlater := environment_now_le ((environment s).readBack 0x01 (busyAnswer b))
        rw [readBack_now] at hnow hlater
        refine ⟨t, 1 + k, (runSteps_next hstep).trans hrun, once.trans hpolled, by omega, fun _ => ?_, fun hearly => ?_⟩
        · rw [hall (by omega)]
          omega
        · omega
      · have held := polled_hold hreads
        rw [if_neg hmin] at hstep
        obtain ⟨t, k, hrun, hpolled, hk, _, hnone⟩ := ih _ (b :: busy) (held.converting hconv) hpolicy held.readAnswers
          (Nat.le_of_succ_le hn) hbusy
        refine ⟨t, k, (runSteps_next hstep).trans hrun, ?_, by omega, fun h => absurd h hmin, hnone⟩
        simpa using held.trans hpolled

/-- Settles O31, by `busy_run`: a reading past the minimum is past it at the first step. -/
theorem busyDeviceKeepsTheBlockPolling : Obligations.BusyDeviceKeepsTheBlockPolling := by
  intro n s t0 rate busy ras hseq hpolicy hready ht0 hrate hreads hn hbusy
  obtain ⟨t, k, hrun, h, hk, hall, hnone⟩ := busy_run n s busy ⟨hseq, ht0, hrate, hready⟩ hpolicy hreads hn hbusy
  exact ⟨t, k, hrun, h.seq.trans hseq, h.lat, h.progress.responses, h.requests, h.progress.trace, h.readAnswers, hk,
    fun hmin => hall (hmin.trans (Nat.sub_le_sub_right (environment_now_le s) t0)), hnone⟩

/-! ## The last poll (42_conversion_sequencer.md R103, R104) -/

section
variable {s u : State} {t0 : Nat} {rate : DataRate} {ex : List TraceEntry} {valid : Bool} {word : Word}
  (hpolicy : s.params.waitPolicy = .pollStatus) (hprogress : Progress s u ex valid word)
  (hconv : Converting u t0 rate false) (hmin : rate.minConvUs ≤ (environment u).now - t0)
include hpolicy hprogress hconv hmin

theorem step_poll : step u = .next (statusPoll (environment u)) := by
  rw [← hprogress.params] at hpolicy
  rw [step, blockStep_pollStatus_notReady (s := environment u) hconv.seq hpolicy hconv.ready hconv.t0 hconv.rate]
  exact if_pos hmin

theorem completes_of_pollErr {pa : ReadAnswer} {p : TErr} (ha : (environment u).readAnswer [0x01] 2 = pa)
    (hf : FailedWith (.wr s.addr [0x01] 2 pa) p) (n : Nat) :
    CompletesWith s ⟨n, ex ++ [.wr s.addr [0x01] 2 pa], .errTransport p, valid, word⟩ (runSteps 1 u) := by
  have hstep := step_poll hpolicy hprogress hconv hmin
  rw [statusPoll_of_failure ha (readResult_of_failedWith hf)] at hstep
  rw [runSteps_one hstep]
  exact (hprogress.environment.readBack 0x01 pa).completes n _

/-- A poll that sees not busy is followed by the result read at once. -/
theorem ready_of_poll {ph pl : Byte} {as : List ReadAnswer} (hreads : u.readAnswers = .ok [ph, pl] :: as)
    (hidle : ph.getLsbD 7 = true) :
    ∃ v, runSteps 1 u = .next v ∧ step v = .next (resultRead (environment v)) ∧ v.lat.gain = u.lat.gain ∧
      v.readAnswers = as ∧ Progress s v (ex ++ [.wr s.addr [0x01] 2 (.ok [ph, pl])]) valid word := by
  have hstep := step_poll hpolicy hprogress hconv hmin
  rw [statusPoll_of_bytes (readAnswer_listed hreads [0x01] 2), if_pos hidle] at hstep
  have polled := hprogress.environment.readBack 0x01 (.ok [ph, pl])
  refine ⟨_, runSteps_one hstep, ?_, rfl, congrArg List.tail hreads,
    polled.with_lat_seq { (environment u).lat with ready := some true } (environment u).seq⟩
  rw [← polled.params] at hpolicy
  exact blockStep_pollStatus_ready hconv.seq hpolicy rfl

end

section
variable {s u : State} {g : GainRange} {rate : DataRate} {ex : List TraceEntry} {valid : Bool} {word : Word}
  {busy : List (Byte × Byte)} {ras : List ReadAnswer}
  (hpolicy : s.params.waitPolicy = .pollStatus) (hu : Started s u g rate ex valid word)
  (hmin : rate.minConvUs ≤ (environment u).now - u.now) (hbusy : ∀ b ∈ busy, b.1.getLsbD 7 = false)
include hpolicy hu hmin hbusy

/-- A started READ_CHANNEL after its busy polls: one step each. -/
theorem polled_of_started (hreads : s.readAnswers = busy.map busyAnswer ++ ras) :
    ∃ v, runSteps (2 + busy.length) s = .next v ∧ Converting v u.now rate false ∧ v.lat.gain = some g ∧
      rate.minConvUs ≤ (environment v).now - u.now ∧ v.readAnswers = ras ∧
      Progress s v (ex ++ busy.map (busyPoll s)) valid word := by
  obtain ⟨v, k, hrun, hv, _, hall, _⟩ := busy_run busy.length u busy hu.converting (hu.progress.params ▸ hpolicy)
    (hu.readAnswers.trans hreads) le_rfl hbusy
  have samePoll : busyPoll u = busyPoll s := by
    funext b
    rw [busyPoll, hu.progress.addr]
    rfl
  have hprogress := hu.progress.trans hv.progress
  have hrest := hv.readAnswers
  rw [hall hmin, List.take_length, samePoll] at hprogress
  rw [hall hmin, List.drop_length] at hrest
  exact ⟨v, (runSteps_add hu.run).trans hrun, hv.converting hu.converting, hv.lat ▸ hu.gain,
    hmin.trans (Nat.sub_le_sub_right (environment_now_le_of_run hrun) _), hrest, hprogress⟩

/-- The same after the poll that sees not busy: the result read is next. -/
theorem sampling_of_started {ph pl : Byte} (hidle : ph.getLsbD 7 = true)
    (hreads : s.readAnswers = busy.map busyAnswer ++ .ok [ph, pl] :: ras) :
    ∃ v, runSteps (2 + busy.length + 1) s = .next v ∧ step v = .next (resultRead (environment v)) ∧
      v.lat.gain = some g ∧ v.readAnswers = ras ∧
      Progress s v (ex ++ busy.map (busyPoll s) ++ [.wr s.addr [0x01] 2 (.ok [ph, pl])]) valid word := by
  obtain ⟨v, hrun, hconv, hgain, hpast, hrest, hprogress⟩ := polled_of_started hpolicy hu hmin hbusy hreads
  obtain ⟨v', hrun', hread, hgain', hrest', hprogress'⟩ := ready_of_poll hpolicy hprogress hconv hpast hrest hidle
  exact ⟨v', (runSteps_add hrun).trans hrun', hread, hgain'.trans hgain, hrest', hprogress'⟩

end

/-- Settles O30: the Config write or its skip, the busy polls, then the last poll and the result read. -/
theorem pollingRunDeliversTheVoltage : Obligations.PollingRunDeliversTheVoltage := by
  intro s r rs sel c g rate was busy t1 t2 t3 ts hs hpolicy hline hdec hturns hwait hbusy w hconfig wrote write answers
    polls effect
  obtain ⟨u, hu⟩ : ∃ u, Started s u g rate write (if wrote && s.params.cacheEnabled then true else s.cacheValid)
      (if wrote && s.params.cacheEnabled then w else s.cacheWord) := by
    cases hskip : cacheSkip w s with
    | true =>
      simp only [write, wrote, hskip, Bool.not_true, Bool.false_and, Bool.false_eq_true, if_false]
      exact started_of_skip hs hline hdec hskip
    | false =>
      have hok : startAnswer s c g rate = .ok := startAnswer_listed (hconfig.resolve_left (by simp [hskip])) c g rate
      simp only [write, wrote, hskip, Bool.not_false, Bool.true_and, if_true]
      exact started_of_ok hs hline hdec hskip hok
  have hmin : rate.minConvUs ≤ (environment u).now - u.now := by
    have hturn : u.nextTurn = t3 := nextTurn_listed (by rw [hu.turns, hturns]; rfl)
    rw [environment_now, hturn, Nat.add_sub_cancel_left]
    exact hwait
  refine ⟨fun ph pl hi lo ras hidle hreads => ⟨?_, ?_⟩, fun ph pl ra ras payload hidle hf hreads => ?_,
    fun pa ras payload hf hreads => ?_⟩
  · have hpolls : polls.length = busy.length := List.length_map _
    cases hwrote : wrote <;> simp [effect, write, hwrote, hpolls] <;> omega
  · obtain ⟨v, hrun, hread, hgain, hrest, hprogress⟩ := sampling_of_started hpolicy hu hmin hbusy hidle hreads
    have hdone := completes_of_sample hprogress hread hgain (readAnswer_listed hrest [0x00] 2) (busy.length + 5)
    rw [← runSteps_add hrun, List.append_assoc, show 2 + busy.length + 1 + 2 = busy.length + 5 by omega] at hdone
    exact hdone
  · obtain ⟨v, hrun, hread, _, hrest, hprogress⟩ := sampling_of_started hpolicy hu hmin hbusy hidle hreads
    have hdone := completes_of_sampleErr hprogress hread (readAnswer_listed hrest [0x00] 2) hf (busy.length + 4)
    rw [← runSteps_add hrun, List.append_assoc, show 2 + busy.length + 1 + 1 = busy.length + 4 by omega] at hdone
    exact hdone
  · obtain ⟨v, hrun, hconv, _, hpast, hrest, hprogress⟩ := polled_of_started hpolicy hu hmin hbusy hreads
    have hdone := completes_of_pollErr hpolicy hprogress hconv hpast (readAnswer_listed hrest [0x01] 2) hf
      (busy.length + 3)
    rw [← runSteps_add hrun, show 2 + busy.length + 1 = busy.length + 3 by omega] at hdone
    exact hdone

end Sys2Proof.Machine
end

section
/-! The cache that SINGLE_SHOT hides (42_conversion_sequencer.md R111): every operation commutes with leaving the cache
out of the state, so a run with a cache is the run without one. -/

namespace Sys2Proof.Machine


/-- An outcome as an observer sees it who cannot see the cache. -/
def withoutCacheIn : Result → Result
  | .next s => .next s.withoutCache
  | .fault f => .fault f
  | .refused x => .refused x

theorem alikeButCache_iff (a b : Result) : AlikeButCache a b ↔ withoutCacheIn a = withoutCacheIn b := by
  cases a <;> cases b <;> simp [AlikeButCache, withoutCacheIn]

theorem withoutCache_cacheInvalidate (s : State) : (cacheInvalidate s).withoutCache = s.withoutCache := by
  rw [cacheInvalidate_eq]
  rfl

theorem wreg_withoutCache (reg : RegisterId) (v : Word) (s : State) :
    wreg reg v s.withoutCache = (wreg reg v s).withoutCache := by
  have sameAnswer : s.withoutCache.writeRegisterAnswer reg v = s.writeRegisterAnswer reg v := rfl
  simp only [wreg, sameAnswer]
  cases s.writeRegisterAnswer reg v <;> rfl

theorem rreg_withoutCache (reg : RegisterId) (s : State) : rreg reg s.withoutCache = (rreg reg s).withoutCache := by
  have sameWord : s.withoutCache.readWord reg = s.readWord reg := rfl
  simp only [rreg, sameWord]
  cases s.readWord reg <;> rfl

/-- In SINGLE_SHOT mode the Config write is made with a cache or without. -/
theorem startConversion_withoutCache {s : State} (hmode : s.params.seqMode = .singleShot) (c : Channel) (g : GainRange)
    (r : DataRate) : startConversion c g r s.withoutCache = (startConversion c g r s).withoutCache := by
  have hskip := cacheSkip_eq_false_of_singleShot hmode (readChannelWord s.params c g r)
  have hskip' : cacheSkip (readChannelWord s.withoutCache.params c g r) s.withoutCache = false :=
    cacheSkip_eq_false_of_singleShot (s := s.withoutCache) hmode _
  cases ha : s.writeAnswer (Frame.write .config (readChannelWord s.params c g r)).bytes with
  | ok =>
    rw [startConversion_of_ok hskip ha, startConversion_of_ok (s := s.withoutCache) hskip' ha]
    rfl
  | err e =>
    rw [startConversion_of_err hskip ha, startConversion_of_err (s := s.withoutCache) hskip' ha]
    rfl

theorem exec_withoutCache {s : State} (hmode : s.params.seqMode = .singleShot) (i : Instr) :
    exec i s.withoutCache = withoutCacheIn (exec i s) := by
  cases i with
  | wregConv v => exact congrArg _ (wreg_withoutCache .conversion v s)
  | wregCfg v =>
    refine congrArg Host.Outcome.next ?_
    rw [← wreg_withoutCache, withoutCache_cacheInvalidate]
    rfl
  | wregLo v => exact congrArg _ (wreg_withoutCache .lowThreshold v s)
  | wregHi v => exact congrArg _ (wreg_withoutCache .highThreshold v s)
  | rregConv => exact congrArg _ (rreg_withoutCache .conversion s)
  | rregCfg => exact congrArg _ (rreg_withoutCache .config s)
  | rregLo => exact congrArg _ (rreg_withoutCache .lowThreshold s)
  | rregHi => exact congrArg _ (rreg_withoutCache .highThreshold s)
  | readChannel sel c g r => exact congrArg _ (startConversion_withoutCache hmode c g r)
  | buildConfig | decodeConfig | scale | scaleFixed | enc16 | dec16 | sext16 | reservedOp0 | reservedOpB | reservedOpC
  | reservedOpD | reservedOpE | reservedOpF => rfl

theorem resultRead_withoutCache (s : State) : resultRead s.withoutCache = (resultRead s).withoutCache := by
  have sameWord : s.withoutCache.readWord .conversion = s.readWord .conversion := rfl
  simp only [resultRead, sameWord]
  cases s.readWord .conversion <;> rfl

theorem statusPoll_withoutCache (s : State) : statusPoll s.withoutCache = (statusPoll s).withoutCache := by
  have sameWord : s.withoutCache.readWord .config = s.readWord .config := rfl
  simp only [statusPoll, sameWord]
  cases s.readWord .config with
  | error e => rfl
  | ok w => cases hw : osNotBusy w <;> simp only [hw] <;> rfl

theorem readLatch_withoutCache {α : Type} (n : LatchName) (l : Option α) {use use' : α → Result}
    (h : ∀ v, use' v = withoutCacheIn (use v)) : readLatch n l use' = withoutCacheIn (readLatch n l use) := by
  cases l with
  | none => rfl
  | some v => exact h v

theorem stepConverting_withoutCache (s : State) : stepConverting s.withoutCache = withoutCacheIn (stepConverting s) := by
  have samePolicy : s.withoutCache.params.waitPolicy = s.params.waitPolicy := rfl
  simp only [stepConverting, samePolicy]
  cases s.params.waitPolicy with
  | fixedDelay =>
    refine readLatch_withoutCache _ _ fun t0 => readLatch_withoutCache _ _ fun rate => ?_
    have sameGuard : waited s.withoutCache t0 (s.withoutCache.params.waitUs rate) = waited s t0 (s.params.waitUs rate) := rfl
    rw [sameGuard, resultRead_withoutCache]
    split <;> rfl
  | pollStatus =>
    refine readLatch_withoutCache _ _ fun ready => ?_
    cases ready with
    | true => exact congrArg _ (resultRead_withoutCache s)
    | false =>
      refine readLatch_withoutCache _ _ fun t0 => readLatch_withoutCache _ _ fun rate => ?_
      have sameGuard : waited s.withoutCache t0 rate.minConvUs = waited s t0 rate.minConvUs := rfl
      rw [sameGuard, statusPoll_withoutCache]
      split <;> rfl

theorem blockStep_withoutCache {s : State} (hmode : s.params.seqMode = .singleShot) :
    blockStep s.withoutCache = withoutCacheIn (blockStep s) := by
  cases hseq : s.seq with
  | idle =>
    cases hresp : s.resp with
    | some r =>
      rw [blockStep_waits hseq hresp, blockStep_waits (s := s.withoutCache) hseq hresp]
      rfl
    | none =>
      cases hline : s.requests with
      | nil =>
        rw [blockStep_no_request hseq hresp hline, blockStep_no_request (s := s.withoutCache) hseq hresp hline]
        rfl
      | cons r rs =>
        rw [blockStep_accepts hseq hresp hline, blockStep_accepts (s := s.withoutCache) hseq hresp hline]
        exact exec_withoutCache (s := { s with requests := rs }) hmode (decode r)
  | configWritten =>
    rw [blockStep_configWritten hseq, blockStep_configWritten (s := s.withoutCache) hseq]
    rfl
  | converting =>
    have sameSeq : s.withoutCache.seq = .converting := hseq
    simp only [blockStep, hseq, sameSeq]
    exact stepConverting_withoutCache s
  | resultAvailable =>
    rw [stepResultAvailable_eq hseq, stepResultAvailable_eq (s := s.withoutCache) hseq]
    exact readLatch_withoutCache _ _ fun raw => readLatch_withoutCache _ _ fun gain => rfl

theorem runSteps_withoutCache (n : Nat) {s : State} (hmode : s.params.seqMode = .singleShot) :
    runSteps n s.withoutCache = withoutCacheIn (runSteps n s) := by
  induction n generalizing s with
  | zero => rfl
  | succ n ih =>
    have hstep' : step s.withoutCache = withoutCacheIn (step s) := blockStep_withoutCache (s := environment s) hmode
    cases hstep : step s with
    | next t =>
      obtain ⟨_, _, hparams, _⟩ := handleIsImmutableAndTimeMonotone s t hstep
      rw [hstep] at hstep'
      rw [runSteps_next hstep, runSteps_next hstep', ih (hparams ▸ hmode)]
    | fault f =>
      rw [hstep] at hstep'
      rw [runSteps_fault hstep, runSteps_fault hstep']
      rfl
    | refused x => exact absurd hstep (blockStep_ne_refused (environment s) x)

/-- Settles O35: both runs are the run of the one state without a cache. -/
theorem cacheInvisibleInSingleShot : Obligations.CacheInvisibleInSingleShot := by
  intro n s s' hmode halike
  have hmode' : s'.params.seqMode = .singleShot := (congrArg (·.params.seqMode) halike).symm.trans hmode
  rw [alikeButCache_iff, ← runSteps_withoutCache n hmode, ← runSteps_withoutCache n hmode', halike]

end Sys2Proof.Machine
end

section
/-! The laws of the codec's pure operations (40_register_codec.md R73) and of the Config word: its fields, the inverse of
a code table, and DECODE_CONFIG as the inverse of BUILD_CONFIG (41_config_builder.md R87 to R94). -/

namespace Sys2Proof.Machine

/-! ## The pure codec (40_register_codec.md R73) -/

theorem toI16_injective : Function.Injective toI16 := fun v w h =>
  BitVec.toInt_inj.mp (by rwa [toI16_eq, toI16_eq] at h)

theorem toI16_ofInt {raw : Int} (h : InI16 raw) : toI16 (BitVec.ofInt 16 raw) = raw := by
  rw [toI16_eq, Laws.toInt_ofInt h]

/-- The sign of a sample is bit 15. -/
theorem toI16_neg_iff (w : Word) : toI16 w < 0 ↔ w.getLsbD 15 = true := by
  have msb : w.msb = w.getLsbD 15 := rfl
  rw [toI16_eq, ← msb, BitVec.msb_eq_toInt, decide_eq_true_eq]

/-- Settles O11: the bytes are the word's digits to the base 256, the sample its two's-complement value. -/
theorem pureCodecLaws : Obligations.PureCodecLaws := by
  refine ⟨joinBytes_hiByte_loByte, fun hi lo => ⟨hiByte_joinBytes hi lo, loByte_joinBytes hi lo⟩,
    fun _ _ h => toI16_injective h, fun raw => ⟨fun h => ⟨_, toI16_ofInt h⟩, ?_⟩, toI16_neg_iff⟩
  rintro ⟨w, rfl⟩
  exact inI16_toI16 w

/-! ## The field extractors (41_config_builder.md R87) -/

/-- Cutting out `len` bits at `start` is masking them and shifting the rest away. -/
theorem extract_eq_mask_shift {start len : Nat} {mask : Word}
    (hmask : ∀ i < 16, mask.getLsbD (start + i) = decide (i < len)) (w : Word) :
    (w.extractLsb' start len).setWidth 16 = (w &&& mask) >>> start := by
  refine BitVec.eq_of_getLsbD_eq fun i hi => ?_
  rw [BitVec.getLsbD_setWidth, BitVec.getLsbD_extractLsb', BitVec.getLsbD_ushiftRight, BitVec.getLsbD_and, hmask i hi]
  simp only [hi, decide_true, Bool.true_and, Bool.and_comm]

/-- Settles O14, each extractor by the bits of its mask. -/
theorem extractorsMaskAndShift : Obligations.ExtractorsMaskAndShift := by
  refine ⟨fun w => ⟨extract_eq_mask_shift (by decide) w, extract_eq_mask_shift (by decide) w,
    extract_eq_mask_shift (by decide) w, extract_eq_mask_shift (by decide) w, extract_eq_mask_shift (by decide) w, ?_⟩,
    by decide, by decide⟩
  have hcomp := extract_eq_mask_shift (start := 0) (len := 5) (mask := 0x001F) (by decide) w
  rwa [BitVec.ushiftRight_zero] at hcomp

/-! ## The fields of a word (30_encoding.md R51; 41_config_builder.md R90) -/

/-- The word of six fields in a row. -/
def fieldWord (os : BitVec 1) (mux pga : BitVec 3) (mode : BitVec 1) (dr : BitVec 3) (comp : BitVec 5) : Word :=
  os ++ mux ++ pga ++ mode ++ dr ++ comp

section
variable (os : BitVec 1) (mux pga : BitVec 3) (mode : BitVec 1) (dr : BitVec 3) (comp : BitVec 5)

theorem fieldWord_toNat : (fieldWord os mux pga mode dr comp).toNat =
    ((((os.toNat * 8 + mux.toNat) * 8 + pga.toNat) * 2 + mode.toNat) * 8 + dr.toNat) * 32 + comp.toNat := by
  simp only [fieldWord, toNat_append_eq_add]
  rfl

theorem fields_of_fieldWord :
    fOS (fieldWord os mux pga mode dr comp) = os ∧ fMUX (fieldWord os mux pga mode dr comp) = mux ∧
    fPGA (fieldWord os mux pga mode dr comp) = pga ∧ fMODE (fieldWord os mux pga mode dr comp) = mode ∧
    fDR (fieldWord os mux pga mode dr comp) = dr ∧ fCOMP (fieldWord os mux pga mode dr comp) = comp := by
  have := os.isLt
  have := mux.isLt
  have := pga.isLt
  have := mode.isLt
  have := dr.isLt
  have := comp.isLt
  refine ⟨?_, ?_, ?_, ?_, ?_, ?_⟩ <;> apply BitVec.eq_of_toNat_eq <;>
    simp only [fOS, fMUX, fPGA, fMODE, fDR, fCOMP, BitVec.extractLsb'_toNat, fieldWord_toNat,
      Nat.shiftRight_eq_div_pow] <;>
    omega

end

/-- A word is its fields. -/
theorem fieldWord_of_fields (w : Word) : fieldWord (fOS w) (fMUX w) (fPGA w) (fMODE w) (fDR w) (fCOMP w) = w := by
  apply BitVec.eq_of_toNat_eq
  have := w.isLt
  simp only [fieldWord_toNat, fOS, fMUX, fPGA, fMODE, fDR, fCOMP, BitVec.extractLsb'_toNat, Nat.shiftRight_eq_div_pow]
  omega

section
variable (p : Params) (mux : MuxSelector) (gain : GainRange) (rate : DataRate) (mode : Mode) (start : Bool)

theorem configWord_eq_fieldWord : configWord p mux gain rate mode start =
    fieldWord (BitVec.ofBool start) (p.muxCode.code mux) (p.pgaCode.code gain) (p.modeCode.code mode)
      (p.drCode.code rate) p.compBits :=
  configWord_eq_append p mux gain rate mode start

theorem fields_of_configWord :
    fOS (configWord p mux gain rate mode start) = BitVec.ofBool start ∧
    fMUX (configWord p mux gain rate mode start) = p.muxCode.code mux ∧
    fPGA (configWord p mux gain rate mode start) = p.pgaCode.code gain ∧
    fMODE (configWord p mux gain rate mode start) = p.modeCode.code mode ∧
    fDR (configWord p mux gain rate mode start) = p.drCode.code rate ∧
    fCOMP (configWord p mux gain rate mode start) = p.compBits := by
  rw [configWord_eq_fieldWord]
  exact fields_of_fieldWord _ _ _ _ _ _

end

/-! ## The code tables and their inverses (41_config_builder.md R92, R93; log 13) -/

/-- As many names as codes: where no two have one code, every code is used. -/
theorem exists_code_of_injective {α : Type} {n : Nat} (names : Fin (2 ^ n) → α) (hnames : Function.Injective names)
    {code : α → BitVec n} (hcode : Function.Injective code) (c : BitVec n) : ∃ a, code a = c := by
  have hinj : Function.Injective fun i => (code (names i)).toFin := fun i j h =>
    hnames (hcode (BitVec.toFin_injective h))
  obtain ⟨i, hi⟩ := Finite.surjective_of_injective hinj c.toFin
  exact ⟨names i, BitVec.toFin_injective hi⟩

/-- The variants in the spec's order. -/
def muxNames : Fin (2 ^ 3) → MuxSelector := ![.diff01, .diff03, .diff13, .diff23, .se0, .se1, .se2, .se3]
def modeNames : Fin (2 ^ 1) → Mode := ![.continuous, .singleShot]
def rateNames : Fin (2 ^ 3) → DataRate := ![.dr8, .dr16, .dr32, .dr64, .dr128, .dr250, .dr475, .dr860]

theorem MuxTable.code_variant {t : MuxTable} (ht : Function.Injective t.code) (c : BitVec 3) :
    t.code (t.variant c) = c := by
  obtain ⟨m, rfl⟩ := exists_code_of_injective muxNames (by decide) ht c
  unfold MuxTable.variant
  split_ifs with h0 h1 h2 h3 h4 h5 h6
  case neg =>
    cases m with
    | diff01 => exact absurd rfl h0
    | diff03 => exact absurd rfl h1
    | diff13 => exact absurd rfl h2
    | diff23 => exact absurd rfl h3
    | se0 => exact absurd rfl h4
    | se1 => exact absurd rfl h5
    | se2 => exact absurd rfl h6
    | se3 => rfl
  all_goals exact Eq.symm ‹_›

theorem ModeTable.code_variant {t : ModeTable} (ht : Function.Injective t.code) (c : BitVec 1) :
    t.code (t.variant c) = c := by
  obtain ⟨m, rfl⟩ := exists_code_of_injective modeNames (by decide) ht c
  unfold ModeTable.variant
  split_ifs with h
  · exact h.symm
  · cases m with
    | continuous => exact absurd rfl h
    | singleShot => rfl

theorem DrTable.code_variant {t : DrTable} (ht : Function.Injective t.code) (c : BitVec 3) :
    t.code (t.variant c) = c := by
  obtain ⟨r, rfl⟩ := exists_code_of_injective rateNames (by decide) ht c
  unfold DrTable.variant
  split_ifs with h0 h1 h2 h3 h4 h5 h6
  case neg =>
    cases r with
    | dr8 => exact absurd rfl h0
    | dr16 => exact absurd rfl h1
    | dr32 => exact absurd rfl h2
    | dr64 => exact absurd rfl h3
    | dr128 => exact absurd rfl h4
    | dr250 => exact absurd rfl h5
    | dr475 => exact absurd rfl h6
    | dr860 => rfl
  all_goals exact Eq.symm ‹_›

/-- The look-up gives a gain of the code, or there is none. -/
theorem PgaTable.variant_eq_some_iff {t : PgaTable} (ht : Function.Injective t.code) (c : BitVec 3) (g : GainRange) :
    t.variant c = some g ↔ t.code g = c := by
  have found : ∀ g', t.variant c = some g' → t.code g' = c := by
    intro g' h
    unfold PgaTable.variant at h
    split_ifs at h
    all_goals
      injection h with h
      subst h
      exact Eq.symm ‹_›
  refine ⟨found g, ?_⟩
  rintro rfl
  cases hv : t.variant (t.code g) with
  | some g' => rw [ht (found g' hv)]
  | none =>
    unfold PgaTable.variant at hv
    split_ifs at hv with h0 h1 h2 h3 h4 h5
    cases g with
    | pga6144 => exact absurd rfl h0
    | pga4096 => exact absurd rfl h1
    | pga2048 => exact absurd rfl h2
    | pga1024 => exact absurd rfl h3
    | pga0512 => exact absurd rfl h4
    | pga0256 => exact absurd rfl h5

theorem injective_of_defaultCodes {p : Params} (h : p.DefaultCodes) : p.Injective := by
  obtain ⟨hmux, hpga, hmode, hdr⟩ := h
  rw [Params.Injective, hmux, hpga, hmode, hdr]
  refine ⟨?_, ?_, ?_, ?_⟩ <;> intro a b <;> cases a <;> cases b <;> decide

/-- Under the default table the codes of a variant are those up to 0b101 (30_encoding.md R56). -/
theorem default_pga_code_iff (c : BitVec 3) : (∃ g, PgaTable.default.code g = c) ↔ c ≤ 0b101 := by
  constructor
  · rintro ⟨g, rfl⟩
    cases g <;> decide
  · intro h
    have codes : ∀ c : BitVec 3, c ≤ 0b101 → (PgaTable.default.variant c).isSome ∧
        ∀ g ∈ PgaTable.default.variant c, PgaTable.default.code g = c := by decide
    obtain ⟨hsome, hcode⟩ := codes c h
    obtain ⟨g, hg⟩ := Option.isSome_iff_exists.mp hsome
    exact ⟨g, hcode g hg⟩

/-! ## The statements -/

/-- A name is the only one with its code. -/
theorem existsUnique_code {α : Type} {n : Nat} {code : α → BitVec n} (h : Function.Injective code) (a : α) :
    ∃! b, code b = code a := ⟨a, rfl, fun _ hb => h hb⟩

/-- Settles O17: each field of a built word is the code of the operand. -/
theorem builtWordHoldsOneVariantPerField : Obligations.BuiltWordHoldsOneVariantPerField := by
  intro p mux gain rate mode start w
  obtain ⟨_, hmux, hpga, hmode, hdr, hcomp⟩ := fields_of_configWord p mux gain rate mode start
  simp only [w, hmux, hpga, hmode, hdr]
  refine ⟨hcomp, fun ⟨imux, ipga, imode, idr⟩ =>
    ⟨existsUnique_code imux mux, existsUnique_code ipga gain, existsUnique_code imode mode, existsUnique_code idr rate⟩,
    fun ⟨_, hdefault, _⟩ => ?_⟩
  rw [hdefault]
  cases gain <;> decide

theorem configFields_configWord {p : Params} (h : p.Injective) (mux : MuxSelector) (gain : GainRange) (rate : DataRate)
    (mode : Mode) (start : Bool) : configFields p (configWord p mux gain rate mode start) =
      { os := start, mux := mux, gain := some gain, mode := mode, rate := rate, comp := p.compBits } := by
  obtain ⟨imux, ipga, imode, idr⟩ := h
  obtain ⟨hos, hmux, hpga, hmode, hdr, hcomp⟩ := fields_of_configWord p mux gain rate mode start
  have hstart : decide (BitVec.ofBool start = 1) = start := by cases start <;> rfl
  simp only [configFields, hos, hmux, hpga, hmode, hdr, hcomp, hstart, imux (MuxTable.code_variant imux _),
    imode (ModeTable.code_variant imode _), idr (DrTable.code_variant idr _),
    (PgaTable.variant_eq_some_iff ipga _ gain).mpr rfl]

/-- Settles O18: each look-up inverts its table, and the default tables are injective. -/
theorem decodeConfigInvertsBuildConfig : Obligations.DecodeConfigInvertsBuildConfig :=
  ⟨fun _ mux gain rate mode start h => configFields_configWord h mux gain rate mode start,
    fun _ => injective_of_defaultCodes⟩

/-- Settles O19: the fields give the operands back; a word whose PGA and COMP fields are a built word's is the one built
of its own fields. -/
theorem buildConfigInjectiveWithItsImage : Obligations.BuildConfigInjectiveWithItsImage := by
  refine ⟨fun p mux gain rate mode start mux' gain' rate' mode' start' hinj heq => ?_, fun p w hdefault => ⟨?_, ?_⟩⟩
  · have hfields := congrArg (configFields p) heq
    rw [configFields_configWord hinj, configFields_configWord hinj] at hfields
    injection hfields with hstart hmux hgain hmode hrate
    injection hgain with hgain
    exact ⟨hmux, hgain, hrate, hmode, hstart⟩
  · rintro ⟨mux, gain, rate, mode, start, rfl⟩
    obtain ⟨_, _, hpga, _, _, hcomp⟩ := fields_of_configWord p mux gain rate mode start
    rw [hpga, hdefault.2.1, ← default_pga_code_iff]
    exact ⟨⟨gain, rfl⟩, hcomp⟩
  · rintro ⟨hpga, hcomp⟩
    obtain ⟨imux, _, imode, idr⟩ := injective_of_defaultCodes hdefault
    obtain ⟨gain, hgain⟩ := (default_pga_code_iff _).mpr hpga
    have hos : ∀ c : BitVec 1, BitVec.ofBool (decide (c = 1)) = c := by decide
    refine ⟨p.muxCode.variant (fMUX w), gain, p.drCode.variant (fDR w), p.modeCode.variant (fMODE w),
      decide (fOS w = 1), ?_⟩
    rw [configWord_eq_fieldWord, hos, MuxTable.code_variant imux, hdefault.2.1, hgain, ModeTable.code_variant imode,
      DrTable.code_variant idr, ← hcomp, fieldWord_of_fields]

theorem decode_of_op_decodeConfig {r : Request} (hop : r.op = 0x4) : decode r = .decodeConfig r.sel r.ops.word := by
  simp only [decode, hop]
  rfl

theorem exec_decodeConfig (sel : BitVec 2) (word : Word) (s : State) :
    exec (.decodeConfig sel word) s = .next (s.answered (.ok (.fields (configFields s.params word)))) := rfl

/-- The OS field is bit 15. -/
theorem configFields_os_iff (p : Params) (word : Word) : (configFields p word).os = true ↔ word.getLsbD 15 = true := by
  have bit : ∀ b : BitVec 1, b = 1 ↔ b.getLsbD 0 = true := by decide
  rw [configFields, decide_eq_true_eq, bit, fOS, BitVec.getLsbD_extractLsb']
  rfl

/-- Settles O20: the fields are the variants of the codes; under the default tables a gain is missing over 0b101. -/
theorem decodeConfigResponds : Obligations.DecodeConfigResponds := by
  refine ⟨fun _ hop => decode_of_op_decodeConfig hop, fun sel word s => ⟨_, exec_decodeConfig sel word s⟩,
    fun sel word s hinj => ?_, fun sel word s hdefault => ?_⟩
  · obtain ⟨imux, ipga, imode, idr⟩ := hinj
    exact ⟨_, exec_decodeConfig sel word s, configFields_os_iff s.params word, MuxTable.code_variant imux _,
      PgaTable.variant_eq_some_iff ipga _, ModeTable.code_variant imode _, DrTable.code_variant idr _, rfl⟩
  · obtain ⟨imux, ipga, imode, idr⟩ := injective_of_defaultCodes hdefault
    obtain ⟨hmux, hpga, hmode, hdr⟩ := hdefault
    have gainOf := PgaTable.variant_eq_some_iff ipga (fPGA word)
    have codes := default_pga_code_iff (fPGA word)
    rw [← hpga] at codes ⊢
    rw [← hmux, ← hmode, ← hdr]
    refine ⟨_, exec_decodeConfig sel word s, configFields_os_iff s.params word, MuxTable.code_variant imux _,
      fun hcode => ?_, fun hcode => ?_, ModeTable.code_variant imode _, DrTable.code_variant idr _, rfl⟩
    · obtain ⟨g, hg⟩ := codes.mpr hcode
      exact ⟨g, (gainOf g).mpr hg, hg⟩
    · refine Option.eq_none_iff_forall_ne_some.mpr fun g hg => ?_
      exact BitVec.not_le.mpr hcode (codes.mp ⟨g, (gainOf g).mp hg⟩)

end Sys2Proof.Machine
end

section
/-! Rounding against every finite value (00_scope.md R10), and the Scaling Engine's errors (43_scaling_engine.md R115 to
R123): each rounding is off by a relative error, and the errors of a chain of roundings add up. -/

namespace Sys2Proof.Machine

/-! ## The sign of a quotient -/

/-- The sign a rounding puts on the bits. -/
def signOf (num : Int) : ℚ := if num < 0 then -1 else 1

theorem signOf_mul_natAbs (num : Int) : signOf num * (num.natAbs : ℚ) = num := by
  rw [Nat.cast_natAbs, signOf]
  split
  · rw [abs_of_neg ‹_›]
    push_cast
    ring
  · rw [abs_of_nonneg (not_lt.mp ‹_›), one_mul]

theorem abs_signOf_mul (num : Int) (x : ℚ) : |signOf num * x| = |x| := by
  rw [abs_mul, signOf]
  split <;> norm_num

theorem signOf_mul_self (num : Int) : signOf num * signOf num = 1 := by
  rw [signOf]
  split <;> norm_num

/-- The distance of a signed magnitude from the quotient is that of the magnitudes. -/
theorem abs_signOf_mul_sub (num : Int) (den : Nat) (x : ℚ) :
    |signOf num * x - (num : ℚ) / den| = |x - (num.natAbs : ℚ) / den| := by
  rw [← abs_signOf_mul num (x - _), mul_sub, ← mul_div_assoc, signOf_mul_natAbs]

theorem natAbs_div_eq_abs (num : Int) (den : Nat) : (num.natAbs : ℚ) / den = |(num : ℚ) / den| := by
  rw [abs_div, Nat.abs_cast, Nat.cast_natAbs, Int.cast_abs]

/-! ## Nearest, ties to even (00_scope.md R10) -/

/-- The magnitude the rounding picks, as a value. -/
def roundValue (n d : Nat) : ℚ := (roundSig binary32 n d : ℚ) * 2 ^ (roundExp binary32 n d - 23)

theorem val32_rne32_eq_roundValue {num : Int} {den : Nat} (hnum : num ≠ 0) (hden : 0 < den)
    (hf : Finite32 (rne32 num den)) : val32 (rne32 num den) = signOf num * roundValue num.natAbs den :=
  val32_rne32 hnum hden hf

/-- The same with a sign on the competing value: one of the other sign is no nearer than zero. -/
theorem roundValue_nearest_signed {n d : Nat} (hn : 0 < n) (hd : 0 < d) {s : Nat} {t : Int} (hs : s < 2 ^ 24)
    (ht : -149 ≤ t) {y : ℚ} (hy : y = s * 2 ^ t ∨ y = -(s * 2 ^ t)) :
    |roundValue n d - (n : ℚ) / d| ≤ |y - (n : ℚ) / d| ∧
    (|roundValue n d - (n : ℚ) / d| = |y - (n : ℚ) / d| → y = roundValue n d ∨ roundSig binary32 n d % 2 = 0) := by
  obtain rfl | rfl := hy
  · exact roundSig_nearest hn hd s t hs ht
  · obtain ⟨hzero, htie⟩ := roundSig_nearest hn hd 0 0 (by norm_num) (by norm_num)
    simp only [Nat.cast_zero, zero_mul, zero_sub, abs_neg] at hzero htie
    have hx : 0 ≤ (n : ℚ) / d := by positivity
    have hw : 0 ≤ (s : ℚ) * 2 ^ t := by positivity
    have hfar : |-((s : ℚ) * 2 ^ t) - (n : ℚ) / d| = s * 2 ^ t + (n : ℚ) / d := by
      rw [← neg_add', abs_neg, abs_of_nonneg (add_nonneg hw hx)]
    rw [hfar]
    rw [abs_of_nonneg hx] at hzero htie
    refine ⟨hzero.trans (le_add_of_nonneg_left hw), fun heq => ?_⟩
    have hw0 : (s : ℚ) * 2 ^ t = 0 := le_antisymm (by linarith [heq ▸ hzero]) hw
    rw [hw0, zero_add] at heq
    rw [hw0, neg_zero]
    exact htie heq

/-- A finite value is a signed magnitude on the grid of binary32. -/
theorem val32_shape (b : F32) : ∃ (s : Nat) (t : Int), s < 2 ^ 24 ∧ -149 ≤ t ∧
    (val32 b = s * 2 ^ t ∨ val32 b = -(s * 2 ^ t)) := by
  obtain ⟨s, t, hmag, hs, ht⟩ := magVal_shape (b.toNat % 0x80000000)
  refine ⟨s, t, hs, ht, ?_⟩
  rw [val32_eq, hmag]
  split
  · exact .inr (neg_one_mul _)
  · exact .inl (one_mul _)

theorem rne32_finite_bits {num : Int} {den : Nat} (hnum : num ≠ 0) (hf : Finite32 (rne32 num den)) :
    (rne32 num den).toNat = (if num < 0 then 0x80000000 else 0) + roundBits binary32 num.natAbs den := by
  have hinf : binary32.inf = 0x7F800000 := rfl
  rw [Finite32, rne32_mag, roundMagnitude_eq _ (Int.natAbs_pos.mpr hnum)] at hf
  rw [rne32_toNat, roundMagnitude_eq _ (Int.natAbs_pos.mpr hnum)]
  omega

/-- The last bit of a rounded value is that of its significand. -/
theorem rne32_even {num : Int} {den : Nat} (hnum : num ≠ 0) (hf : Finite32 (rne32 num den))
    (heven : roundSig binary32 num.natAbs den % 2 = 0) : (rne32 num den).getLsbD 0 = false := by
  have hp : binary32.p - 1 = 23 := rfl
  have hbits := rne32_finite_bits hnum hf
  rw [roundBits, hp] at hbits
  rw [BitVec.getLsbD, Nat.testBit_zero, decide_eq_false_iff_not, hbits]
  split <;> omega

theorem rne32_nearest {num : Int} {den : Nat} (hden : 0 < den) (hf : Finite32 (rne32 num den)) (b : F32) :
    |val32 (rne32 num den) - (num : ℚ) / den| ≤ |val32 b - (num : ℚ) / den| ∧
    (|val32 (rne32 num den) - (num : ℚ) / den| = |val32 b - (num : ℚ) / den| →
      val32 b = val32 (rne32 num den) ∨ (rne32 num den).getLsbD 0 = false) := by
  by_cases hnum : num = 0
  · subst hnum
    rw [rne32_zero, val32_zero, Int.cast_zero, zero_div, sub_zero, sub_zero, abs_zero]
    exact ⟨abs_nonneg _, fun h => .inl (abs_eq_zero.mp h.symm)⟩
  obtain ⟨s, t, hs, ht, hb⟩ := val32_shape b
  have hsigned : signOf num * val32 b = s * 2 ^ t ∨ signOf num * val32 b = -(s * 2 ^ t) := by
    rw [signOf]
    split
    · obtain h | h := hb <;> simp [h]
    · rwa [one_mul]
  obtain ⟨hnear, htie⟩ := roundValue_nearest_signed (Int.natAbs_pos.mpr hnum) hden hs ht hsigned
  have hval : val32 b = signOf num * (signOf num * val32 b) := by rw [← mul_assoc, signOf_mul_self, one_mul]
  rw [hval, val32_rne32_eq_roundValue hnum hden hf, abs_signOf_mul_sub, abs_signOf_mul_sub]
  exact ⟨hnear, fun h => (htie h).imp (congrArg _) (rne32_even hnum hf)⟩

theorem val32_mul_val32 (a b : F32) :
    val32 a * val32 b = ((num32 a * num32 b : Int) : ℚ) / ((den32 a * den32 b : Nat) : ℚ) := by
  rw [val32, val32, div_mul_div_comm]
  push_cast
  rfl

/-- Integers of at most 25 bits, the greatest of them a power of two, are on the grid. -/
theorem natAbs_on_grid {n : Int} (hlo : -16777216 ≤ n) (hhi : n ≤ 16777216) :
    ∃ (s : Nat) (t : Int), s < 2 ^ 24 ∧ -149 ≤ t ∧ (n.natAbs : ℚ) = s * 2 ^ t := by
  by_cases hmax : n.natAbs = 16777216
  · exact ⟨2 ^ 23, 1, by norm_num, by norm_num, by rw [hmax]; norm_num⟩
  · exact ⟨n.natAbs, 0, by omega, by norm_num, by simp⟩

theorem val32_rne32_int {n : Int} (hlo : -16777216 ≤ n) (hhi : n ≤ 16777216) : val32 (rne32 n 1) = n := by
  by_cases hn : n = 0
  · subst hn
    rw [rne32_zero, val32_zero, Int.cast_zero]
  have hf : Finite32 (rne32 n 1) := by
    refine rne32_finite_of_lt one_pos ?_
    have hle : (n.natAbs : ℚ) ≤ 16777216 := by exact_mod_cast (by omega : n.natAbs ≤ 16777216)
    rw [Nat.cast_one, div_one]
    exact hle.trans_lt (by norm_num)
  obtain ⟨s, t, hs, ht, hgrid⟩ := natAbs_on_grid hlo hhi
  have hnear := (roundValue_nearest_signed (Int.natAbs_pos.mpr hn) one_pos hs ht (.inl rfl)).1
  rw [← hgrid, Nat.cast_one, div_one, sub_self, abs_zero, abs_nonpos_iff, sub_eq_zero] at hnear
  rw [val32_rne32_eq_roundValue hn one_pos hf, hnear, signOf_mul_natAbs]

/-- Settles O39: nearest and even by magnitude, the product and the integers by their exact values. -/
theorem roundingIsNearestTiesToEven : Obligations.RoundingIsNearestTiesToEven :=
  ⟨fun _ _ hden hf => ⟨fun b _ => (rne32_nearest hden hf b).1, fun b _ => (rne32_nearest hden hf b).2⟩,
    fun a b _ _ => ⟨_, _, Nat.mul_pos (den32_pos a) (den32_pos b), val32_mul_val32 a b, rfl⟩,
    fun _ => val32_rne32_int⟩

/-! ## Relative errors -/

/-- `a` is off from `x` by at most the fraction `ε` of `x`. -/
def RelErr (ε a x : ℚ) : Prop := |a - x| ≤ ε * |x|

section
variable {ε δ a b x y : ℚ}

theorem relErr_refl (x : ℚ) : RelErr 0 x x := by
  rw [RelErr, sub_self, abs_zero, zero_mul]

theorem RelErr.mono (h : RelErr ε a x) (hle : ε ≤ δ) : RelErr δ a x :=
  h.trans (mul_le_mul_of_nonneg_right hle (abs_nonneg x))

theorem RelErr.abs_le (h : RelErr ε a x) : |a| ≤ (1 + ε) * |x| := by
  have := abs_sub_abs_le_abs_sub a x
  rw [RelErr] at h
  linarith

theorem RelErr.le_abs (h : RelErr ε a x) : (1 - ε) * |x| ≤ |a| := by
  have := abs_sub_abs_le_abs_sub x a
  rw [RelErr, abs_sub_comm] at h
  linarith

/-- An approximation of an approximation. -/
theorem RelErr.trans (hδ : 0 ≤ δ) (h' : RelErr δ b a) (h : RelErr ε a x) : RelErr (ε + δ + ε * δ) b x := by
  have hb : |b - a| ≤ δ * ((1 + ε) * |x|) := le_trans h' (mul_le_mul_of_nonneg_left h.abs_le hδ)
  have htri := abs_sub_le b a x
  rw [RelErr] at h ⊢
  linarith

theorem RelErr.mul (h : RelErr ε a x) (h' : RelErr δ b y) : RelErr (ε + δ + ε * δ) (a * b) (x * y) := by
  have h1 : |(a - x) * b| ≤ ε * |x| * ((1 + δ) * |y|) := by
    rw [abs_mul]
    exact mul_le_mul h h'.abs_le (abs_nonneg b) ((abs_nonneg _).trans h)
  have h2 : |x * (b - y)| ≤ |x| * (δ * |y|) := by
    rw [abs_mul]
    exact mul_le_mul_of_nonneg_left h' (abs_nonneg x)
  have htri := abs_add_le ((a - x) * b) (x * (b - y))
  rw [RelErr, abs_mul, show a * b - x * y = (a - x) * b + x * (b - y) by ring]
  linarith

theorem RelErr.div_const (h : RelErr ε a x) (k : ℚ) : RelErr ε (a / k) (x / k) := by
  rw [RelErr, ← sub_div, abs_div, abs_div, ← mul_div_assoc]
  exact div_le_div_of_nonneg_right h (abs_nonneg k)

end

/-- Far from the least normal number and from the largest finite one, in either format. -/
def Moderate (x : ℚ) : Prop := 1 / 2 ^ 40 ≤ |x| ∧ |x| ≤ 2 ^ 40

/-- An approximation of a number well inside the range is inside it. -/
theorem RelErr.moderate {ε a x : ℚ} (h : RelErr ε a x) (hε : ε ≤ 1 / 2) (hlo : 1 / 2 ^ 39 ≤ |x|) (hhi : |x| ≤ 2 ^ 39) :
    Moderate a := by
  have half : 1 / 2 * |x| ≤ |a| := (mul_le_mul_of_nonneg_right (by linarith) (abs_nonneg x)).trans h.le_abs
  have double : |a| ≤ 2 * |x| := h.abs_le.trans (mul_le_mul_of_nonneg_right (by linarith) (abs_nonneg x))
  constructor
  · calc (1 : ℚ) / 2 ^ 40 = 1 / 2 * (1 / 2 ^ 39) := by norm_num
      _ ≤ 1 / 2 * |x| := mul_le_mul_of_nonneg_left hlo (by norm_num)
      _ ≤ |a| := half
  · calc |a| ≤ 2 * |x| := double
      _ ≤ 2 * 2 ^ 39 := mul_le_mul_of_nonneg_left hhi (by norm_num)
      _ = 2 ^ 40 := by norm_num

section
variable {num : Int} {den : Nat}

theorem Moderate.num_ne_zero (h : Moderate ((num : ℚ) / den)) : num ≠ 0 := by
  rintro rfl
  obtain ⟨hlo, _⟩ := h
  norm_num at hlo

/-- One rounding of a moderate quotient, in a format whose normal range holds it. -/
theorem Moderate.round_error (h : Moderate ((num : ℚ) / den)) (hden : 0 < den) (f : BinaryFormat) (hf : f.emin ≤ -40) :
    RelErr (1 / 2 ^ f.p) (signOf num * ((roundSig f num.natAbs den : ℚ) *
      2 ^ (roundExp f num.natAbs den - ((f.p : Int) - 1)))) ((num : ℚ) / den) := by
  have hnormal : (2 : ℚ) ^ f.emin ≤ (num.natAbs : ℚ) / den := by
    calc (2 : ℚ) ^ f.emin ≤ 2 ^ (-40 : Int) := zpow_le_zpow_right₀ (by norm_num) hf
      _ = 1 / 2 ^ 40 := by norm_num
      _ ≤ |(num : ℚ) / den| := h.1
      _ = (num.natAbs : ℚ) / den := (natAbs_div_eq_abs num den).symm
  have herr := round_relative_error f (Int.natAbs_pos.mpr h.num_ne_zero) hden hnormal
  rw [RelErr, abs_signOf_mul_sub, ← natAbs_div_eq_abs, one_div_mul_eq_div]
  exact herr

theorem Moderate.natAbs_lt (h : Moderate ((num : ℚ) / den)) {e : Int} (he : 41 ≤ e) :
    (num.natAbs : ℚ) / den < 2 ^ e := by
  rw [natAbs_div_eq_abs]
  calc |(num : ℚ) / den| ≤ 2 ^ 40 := h.2
    _ < 2 ^ (41 : Int) := by norm_num
    _ ≤ 2 ^ e := zpow_le_zpow_right₀ (by norm_num) he

theorem rne32_relErr (hden : 0 < den) (h : Moderate ((num : ℚ) / den)) :
    RelErr (1 / 2 ^ 24) (val32 (rne32 num den)) ((num : ℚ) / den) := by
  rw [val32_rne32_eq_roundValue h.num_ne_zero hden (rne32_finite_of_lt hden (h.natAbs_lt (by norm_num)))]
  exact h.round_error hden binary32 (by decide)

/-- The exact value of finite binary64 bits. -/
def val64 (b : F64) : ℚ := (num64 b : ℚ) / den64 b

theorem rne64_relErr (hden : 0 < den) (h : Moderate ((num : ℚ) / den)) :
    RelErr (1 / 2 ^ 53) (val64 (rne64 num den)) ((num : ℚ) / den) := by
  rw [val64, num64_div_den64_rne64 h.num_ne_zero hden (h.natAbs_lt (by norm_num))]
  exact h.round_error hden binary64 (by decide)

end

theorem mul32_relErr {a b : F32} (h : Moderate (val32 a * val32 b)) :
    RelErr (1 / 2 ^ 24) (val32 (mul32 a b)) (val32 a * val32 b) := by
  rw [val32_mul_val32] at h ⊢
  exact rne32_relErr (Nat.mul_pos (den32_pos a) (den32_pos b)) h

theorem mul64_relErr {a b : F64} (h : Moderate (val64 a * val64 b)) :
    RelErr (1 / 2 ^ 53) (val64 (mul64 a b)) (val64 a * val64 b) := by
  have hval : val64 a * val64 b = ((num64 a * num64 b : Int) : ℚ) / ((den64 a * den64 b : Nat) : ℚ) := by
    rw [val64, val64, div_mul_div_comm]
    push_cast
    rfl
  rw [hval] at h ⊢
  exact rne64_relErr (Nat.mul_pos (den64_pos a) (den64_pos b)) h

theorem divNat64_relErr {a : F64} {k : Nat} (hk : 0 < k) (h : Moderate (val64 a / k)) :
    RelErr (1 / 2 ^ 53) (val64 (divNat64 a k)) (val64 a / k) := by
  have hval : val64 a / k = (num64 a : ℚ) / ((den64 a * k : Nat) : ℚ) := by
    rw [val64, div_div]
    push_cast
    rfl
  rw [hval] at h ⊢
  exact rne64_relErr (Nat.mul_pos (den64_pos a) hk) h

/-! ## The constants (43_scaling_engine.md R115, R116) -/

/-- Settles O40: six gains, each constant computed. -/
theorem scalingConstants : Obligations.ScalingConstants := by
  refine ⟨by decide, by decide, fun _ => rfl, fun gain => ?_⟩
  cases gain <;> decide

/-- The exact voltage of one LSB. -/
def lsbVolts (gain : GainRange) : ℚ := (gain.fsMv : ℚ) / 1000 / 32768

theorem fsMv_bounds (gain : GainRange) : 256 ≤ gain.fsMv ∧ gain.fsMv ≤ 6144 := by
  cases gain <;> decide

theorem fsMv_bounds_cast (gain : GainRange) : (256 : ℚ) ≤ gain.fsMv ∧ (gain.fsMv : ℚ) ≤ 6144 :=
  ⟨by exact_mod_cast (fsMv_bounds gain).1, by exact_mod_cast (fsMv_bounds gain).2⟩

theorem lsbVolts_bounds (gain : GainRange) : 1 / 2 ^ 17 ≤ lsbVolts gain ∧ lsbVolts gain ≤ 1 / 2 ^ 12 := by
  obtain ⟨hlo, hhi⟩ := fsMv_bounds_cast gain
  constructor <;> rw [lsbVolts] <;> linarith

theorem fsVolts_moderate (gain : GainRange) : Moderate (((gain.fsMv : Nat) : Int) / (1000 : Nat) : ℚ) := by
  obtain ⟨hlo, hhi⟩ := fsMv_bounds_cast gain
  rw [Moderate, abs_of_nonneg (by positivity)]
  push_cast
  constructor <;> linarith

theorem fs32_relErr (gain : GainRange) : RelErr (1 / 2 ^ 24) (val32 (fs32 gain)) ((gain.fsMv : ℚ) / 1000) := by
  have h := rne32_relErr (by norm_num) (fsVolts_moderate gain)
  push_cast at h
  exact h

/-- The division by 32768 is exact. -/
theorem val32_lsb32 (gain : GainRange) : val32 (lsb32 gain) = val32 (fs32 gain) / 32768 := by
  obtain ⟨_, _, _, hexact⟩ := scalingConstants
  have h := congrArg (Int.cast (R := ℚ)) (hexact gain)
  push_cast at h
  have hfs : (den32 (fs32 gain) : ℚ) ≠ 0 := by exact_mod_cast (den32_pos _).ne'
  have hlsb : (den32 (lsb32 gain) : ℚ) ≠ 0 := by exact_mod_cast (den32_pos _).ne'
  rw [val32, val32, div_div, div_eq_div_iff hlsb (by positivity)]
  exact h

theorem lsb32_relErr (gain : GainRange) : RelErr (1 / 2 ^ 24) (val32 (lsb32 gain)) (lsbVolts gain) := by
  rw [val32_lsb32, lsbVolts]
  exact (fs32_relErr gain).div_const 32768

theorem val32_lsb32_pos (gain : GainRange) : 0 < val32 (lsb32 gain) := by
  obtain ⟨hlsb, _⟩ := lsbVolts_bounds gain
  have hpos : 0 < lsbVolts gain := lt_of_lt_of_le (by norm_num) hlsb
  have hnear := (abs_le.mp (lsb32_relErr gain)).1
  rw [abs_of_pos hpos] at hnear
  linarith

/-! ## SCALE against the exact voltage (43_scaling_engine.md R120, R123) -/

theorem abs_raw_bounds {raw : Int} (hraw : InI16 raw) (hne : raw ≠ 0) : 1 ≤ |(raw : ℚ)| ∧ |(raw : ℚ)| ≤ 32768 := by
  obtain ⟨hlo, hhi⟩ := hraw
  have hle : |raw| ≤ 32768 := abs_le.mpr ⟨hlo, hhi.trans (by norm_num)⟩
  rw [← Int.cast_abs]
  exact ⟨by exact_mod_cast Int.one_le_abs hne, by exact_mod_cast hle⟩

/-- The voltage of a sample that is not zero, well inside the range of either format. -/
theorem abs_volts_bounds {raw : Int} (hraw : InI16 raw) (hne : raw ≠ 0) (gain : GainRange) :
    1 / 2 ^ 39 ≤ |(raw : ℚ) * lsbVolts gain| ∧ |(raw : ℚ) * lsbVolts gain| ≤ 2 ^ 39 := by
  obtain ⟨hr1, hr2⟩ := abs_raw_bounds hraw hne
  obtain ⟨hl1, hl2⟩ := lsbVolts_bounds gain
  have hl0 : 0 ≤ lsbVolts gain := by linarith
  rw [abs_mul, abs_of_nonneg hl0]
  constructor
  · calc (1 : ℚ) / 2 ^ 39 ≤ 1 * (1 / 2 ^ 17) := by norm_num
      _ ≤ |(raw : ℚ)| * lsbVolts gain := mul_le_mul hr1 hl1 (by norm_num) (abs_nonneg _)
  · calc |(raw : ℚ)| * lsbVolts gain ≤ 32768 * (1 / 2 ^ 12) := mul_le_mul hr2 hl2 hl0 (by norm_num)
      _ ≤ 2 ^ 39 := by norm_num

theorem scaleF32_zero (gain : GainRange) : scaleF32 0 gain = 0 := by
  cases gain <;> decide

/-- Under F32 the one multiply is off by half a unit of the significand. -/
theorem scaleF32_relErr_lsb {raw : Int} (hraw : InI16 raw) (gain : GainRange) :
    RelErr (1 / 2 ^ 24) (val32 (scaleF32 raw gain)) (raw * val32 (lsb32 gain)) := by
  by_cases hne : raw = 0
  · subst hne
    rw [scaleF32_zero, val32_zero, Int.cast_zero, zero_mul]
    exact (relErr_refl 0).mono (by norm_num)
  · obtain ⟨hlo, hhi⟩ := abs_volts_bounds hraw hne gain
    have hmod := ((relErr_refl (raw : ℚ)).mul (lsb32_relErr gain)).moderate (by norm_num) hlo hhi
    rw [← val32_raw hraw] at hmod ⊢
    exact mul32_relErr hmod

theorem scaleF32_relErr {raw : Int} (hraw : InI16 raw) (gain : GainRange) :
    RelErr (1 / 2 ^ 23 + 1 / 2 ^ 48) (val32 (scaleF32 raw gain)) (raw * lsbVolts gain) := by
  have hlsb := (relErr_refl (raw : ℚ)).mul (lsb32_relErr gain)
  exact (RelErr.trans (by norm_num) (scaleF32_relErr_lsb hraw gain) hlsb).mono (by norm_num)

/-- SCALE_FIXED counts in units of 2^-15 mV. -/
theorem scaleUnits_volts (raw : Int) (gain : GainRange) :
    (scaleUnits raw gain : ℚ) / 32768000 = raw * lsbVolts gain := by
  rw [scaleUnits, lsbVolts]
  push_cast
  ring

/-- Settles O46: two roundings of relative error 2^-24, the LSB weight's and the multiply's. -/
theorem scaleAgreesWithScaleFixed : Obligations.ScaleAgreesWithScaleFixed := by
  intro raw gain hraw exact
  refine ⟨?_, ?_⟩
  · rw [show exact = _ from scaleUnits_volts raw gain, lsbVolts]
    ring
  · rw [show exact = _ from scaleUnits_volts raw gain]
    exact scaleF32_relErr hraw gain

/-- Under F64_THEN_F32 four roundings in binary64 and one in binary32. -/
theorem scaleF64_relErr {raw : Int} (hraw : InI16 raw) (hne : raw ≠ 0) (gain : GainRange) :
    RelErr (1 / 2 ^ 22) (val32 (scaleF64 raw gain)) (raw * lsbVolts gain) := by
  obtain ⟨hr1, hr2⟩ := abs_raw_bounds hraw hne
  obtain ⟨hl1, hl2⟩ := lsbVolts_bounds gain
  obtain ⟨hv1, hv2⟩ := abs_volts_bounds hraw hne gain
  have hlabs : |lsbVolts gain| = lsbVolts gain := abs_of_nonneg (by linarith)
  have sample : RelErr (1 / 2 ^ 53) (val64 (rne64 raw 1)) raw := by
    have hmod : Moderate ((raw : ℚ) / (1 : Nat)) := by
      rw [Nat.cast_one, div_one]
      constructor <;> linarith
    simpa using rne64_relErr one_pos hmod
  have fullScale : RelErr (1 / 2 ^ 53) (val64 (rne64 gain.fsMv 1000)) ((gain.fsMv : ℚ) / 1000) := by
    have h := rne64_relErr (by norm_num) (fsVolts_moderate gain)
    push_cast at h
    exact h
  have quotient : RelErr (1 / 2 ^ 53) (val64 (rne64 gain.fsMv 1000) / (32768 : Nat)) (lsbVolts gain) :=
    fullScale.div_const 32768
  have weight := RelErr.trans (by norm_num)
    (divNat64_relErr (by norm_num) (quotient.moderate (by norm_num) (by linarith) (by linarith))) quotient
  have factors := sample.mul weight
  have product := RelErr.trans (by norm_num) (mul64_relErr (factors.moderate (by norm_num) hv1 hv2)) factors
  have final := rne32_relErr (den64_pos _) (product.moderate (by norm_num) hv1 hv2)
  exact (RelErr.trans (by norm_num) final product).mono (by norm_num)

theorem scaleVolts_relErr (p : Params) {raw : Int} (hraw : InI16 raw) (hne : raw ≠ 0) (gain : GainRange) :
    RelErr (1 / 2 ^ 22) (val32 (scaleVolts p raw gain)) (raw * lsbVolts gain) := by
  cases hnum : p.scaleNumerics with
  | f32 =>
    rw [scaleVolts_of_f32 raw gain hnum]
    exact (scaleF32_relErr hraw gain).mono (by norm_num)
  | f64ThenF32 =>
    rw [scaleVolts_of_f64ThenF32 raw gain hnum]
    exact scaleF64_relErr hraw hne gain

/-! ## The sign bit (43_scaling_engine.md R117) -/

/-- Flipping bit 31 of a pattern. -/
theorem toNat_xor_sign (x : F32) : (x ^^^ 0x80000000).toNat =
    if x.toNat < 0x80000000 then x.toNat + 0x80000000 else x.toNat - 0x80000000 := by
  have hx := x.isLt
  split
  · have h : (BitVec.ofNat 32 (x.toNat + 0x80000000)).toNat = x.toNat + 0x80000000 := by
      rw [BitVec.toNat_ofNat, Nat.mod_eq_of_lt (by omega)]
    rw [← eq_xor_sign h (by omega), h]
  · have h : (BitVec.ofNat 32 (x.toNat - 0x80000000)).toNat = x.toNat - 0x80000000 := by
      rw [BitVec.toNat_ofNat, Nat.mod_eq_of_lt (by omega)]
    have hflip := eq_xor_sign (x := x) (y := BitVec.ofNat 32 (x.toNat - 0x80000000)) (by omega) (by omega)
    have hback : x ^^^ 0x80000000 = BitVec.ofNat 32 (x.toNat - 0x80000000) := by
      conv_lhs => rw [hflip, BitVec.xor_assoc, BitVec.xor_self, BitVec.xor_zero]
    rw [hback, h]

theorem mag_xor_sign (x : F32) : (x ^^^ 0x80000000).toNat % 0x80000000 = x.toNat % 0x80000000 := by
  have hx := x.isLt
  rw [toNat_xor_sign]
  split <;> omega

theorem den32_xor_sign (x : F32) : den32 (x ^^^ 0x80000000) = den32 x := by
  rw [den32, den32, mag_xor_sign]

theorem num32_xor_sign (x : F32) : num32 (x ^^^ 0x80000000) = -num32 x := by
  have hx := x.isLt
  have hflip : 0x80000000 ≤ (x ^^^ 0x80000000).toNat ↔ ¬ 0x80000000 ≤ x.toNat := by
    rw [toNat_xor_sign]
    split <;> omega
  simp only [num32, mag_xor_sign, hflip]
  split <;> simp_all

theorem val32_xor_sign (x : F32) : val32 (x ^^^ 0x80000000) = -val32 x := by
  rw [val32, val32, num32_xor_sign, den32_xor_sign, Int.cast_neg, neg_div]

theorem num32_lsb32_ne_zero (gain : GainRange) : num32 (lsb32 gain) ≠ 0 := by
  cases gain <;> decide

theorem num32_raw_ne_zero {raw : Int} (hraw : InI16 raw) (hne : raw ≠ 0) : num32 (rne32 raw 1) ≠ 0 := by
  intro h
  have hval := val32_raw hraw
  rw [val32, h, Int.cast_zero, zero_div] at hval
  exact hne (by exact_mod_cast hval.symm)

/-- A sample's negative flips the sign bit: of the converted sample, so of the product, so of its rounding. -/
theorem scaleF32_neg {raw : Int} (hraw : InI16 raw) (hne : raw ≠ 0) (gain : GainRange) :
    scaleF32 (-raw) gain = scaleF32 raw gain ^^^ 0x80000000 := by
  have hproduct : num32 (rne32 raw 1) * num32 (lsb32 gain) ≠ 0 :=
    mul_ne_zero (num32_raw_ne_zero hraw hne) (num32_lsb32_ne_zero gain)
  rw [scaleF32, scaleF32, rne32_neg raw 1 hne, mul32, num32_xor_sign, den32_xor_sign, neg_mul,
    rne32_neg _ _ hproduct, mul32]

theorem scaleF32_least (gain : GainRange) : scaleF32 (-32768) gain = fs32 gain ^^^ 0x80000000 := by
  cases gain <;> decide

theorem val32_scaleF32_least (gain : GainRange) : val32 (scaleF32 (-32768) gain) = -val32 (fs32 gain) := by
  rw [scaleF32_least, val32_xor_sign]

/-- Settles O43: the sign bit is the only difference, and zero has none. -/
theorem scaleCornerCases : Obligations.ScaleCornerCases := by
  refine ⟨scaleF32_zero, fun gain => ⟨scaleF32_least gain, val32_scaleF32_least gain⟩, fun raw gain hraw _ => ?_,
    fun raw gain hraw _ hne => scaleF32_neg hraw hne gain⟩
  by_cases hne : raw = 0
  · rw [hne, neg_zero, scaleF32_zero, val32_zero, neg_zero]
  · rw [scaleF32_neg hraw hne, val32_xor_sign]

/-! ## Sign, order and range (43_scaling_engine.md R118) -/

/-- The roundings of two neighbours are each off by less than the half of their distance. -/
theorem scaleF32_strictMono {raw raw' : Int} (hraw : InI16 raw) (hraw' : InI16 raw') (hlt : raw < raw')
    (gain : GainRange) : val32 (scaleF32 raw gain) < val32 (scaleF32 raw' gain) := by
  have hlsb := val32_lsb32_pos gain
  have bound : ∀ r : Int, InI16 r → |val32 (scaleF32 r gain) - r * val32 (lsb32 gain)| ≤ val32 (lsb32 gain) / 512 := by
    intro r hr
    have hr' : |(r : ℚ)| ≤ 32768 := by
      have hle : |r| ≤ 32768 := abs_le.mpr ⟨hr.1, hr.2.trans (by norm_num)⟩
      rw [← Int.cast_abs]
      exact_mod_cast hle
    calc |val32 (scaleF32 r gain) - r * val32 (lsb32 gain)| ≤ 1 / 2 ^ 24 * |r * val32 (lsb32 gain)| :=
        scaleF32_relErr_lsb hr gain
      _ = 1 / 2 ^ 24 * (|(r : ℚ)| * val32 (lsb32 gain)) := by rw [abs_mul, abs_of_pos hlsb]
      _ ≤ 1 / 2 ^ 24 * (32768 * val32 (lsb32 gain)) := by gcongr
      _ = val32 (lsb32 gain) / 512 := by ring
  have apart : ((raw : ℚ) + 1) * val32 (lsb32 gain) ≤ raw' * val32 (lsb32 gain) := by
    refine mul_le_mul_of_nonneg_right ?_ hlsb.le
    exact_mod_cast hlt
  have h := (abs_le.mp (bound raw hraw)).2
  have h' := (abs_le.mp (bound raw' hraw')).1
  linarith

theorem scaleF32_mono {raw raw' : Int} (hraw : InI16 raw) (hraw' : InI16 raw') (hle : raw ≤ raw') (gain : GainRange) :
    val32 (scaleF32 raw gain) ≤ val32 (scaleF32 raw' gain) := by
  obtain rfl | hlt := eq_or_lt_of_le hle
  · exact le_rfl
  · exact (scaleF32_strictMono hraw hraw' hlt gain).le

theorem scaleF32_lt_iff {raw raw' : Int} (hraw : InI16 raw) (hraw' : InI16 raw') (gain : GainRange) :
    val32 (scaleF32 raw gain) < val32 (scaleF32 raw' gain) ↔ raw < raw' :=
  ⟨fun h => not_le.mp fun hle => absurd (scaleF32_mono hraw' hraw hle gain) (not_le.mpr h),
    fun h => scaleF32_strictMono hraw hraw' h gain⟩

theorem scaleF32_greatest (gain : GainRange) :
    scaleF32 32767 gain = rne32 (32767 * num32 (lsb32 gain)) (den32 (lsb32 gain)) := by
  cases gain <;> decide

/-- Settles O44: the order is strict, so the signs are those of the order against 0 and the ends those of the range. -/
theorem scaleKeepsSignAndRange : Obligations.ScaleKeepsSignAndRange := by
  have hzero : InI16 0 := by decide
  refine ⟨fun raw gain hraw => ?_, fun raw raw' gain hraw hraw' hlt => scaleF32_strictMono hraw hraw' hlt gain,
    fun gain => ⟨val32_scaleF32_least gain, scaleF32_greatest gain⟩⟩
  have neg := scaleF32_lt_iff hraw hzero gain
  have pos := scaleF32_lt_iff hzero hraw gain
  rw [scaleF32_zero, val32_zero] at neg pos
  refine ⟨neg, pos, ?_, scaleF32_mono hraw (by decide) hraw.2 gain⟩
  rw [← val32_scaleF32_least]
  exact scaleF32_mono (by decide) hraw hraw.1 gain

/-! ## Zero or normal (43_scaling_engine.md R119) -/

/-- A value of the normal range has an exponent field of neither end. -/
theorem exponent_of_normal {v : F32} (hlo : (2 : ℚ) ^ (-126 : Int) ≤ |val32 v|) (hhi : |val32 v| < 2 ^ (128 : Int)) :
    1 ≤ (v.extractLsb' 23 8).toNat ∧ (v.extractLsb' 23 8).toNat ≤ 254 := by
  have hv := v.isLt
  have hfield : (v.extractLsb' 23 8).toNat = v.toNat % 0x80000000 / 2 ^ 23 := by
    rw [BitVec.extractLsb'_toNat, Nat.shiftRight_eq_div_pow]
    omega
  have habs : |val32 v| = magVal binary32 (v.toNat % 0x80000000) := by
    have hnonneg : 0 ≤ magVal binary32 (v.toNat % 0x80000000) := by
      rw [magVal]
      positivity
    rw [val32_eq, abs_mul, abs_of_nonneg hnonneg]
    split <;> norm_num
  have hp : binary32.p - 1 = 23 := rfl
  have hulp : binary32.emin - ((binary32.p : Int) - 1) = -149 := rfl
  rw [habs, magVal, significand, ulpExponent, hp, hulp] at hlo hhi
  rw [hfield]
  set mag := v.toNat % 0x80000000
  refine ⟨Nat.one_le_iff_ne_zero.mpr fun hz => ?_, not_lt.mp fun hbig => ?_⟩
  · rw [if_pos hz, if_pos hz] at hlo
    have hsmall : (mag : ℚ) < 2 ^ 23 := by exact_mod_cast (by omega : mag < 2 ^ 23)
    have : (mag : ℚ) * 2 ^ (-149 + 0 : Int) < 2 ^ 23 * 2 ^ (-149 + 0 : Int) :=
      mul_lt_mul_of_pos_right hsmall (by positivity)
    norm_num at hlo this
    linarith
  · have hz : mag / 2 ^ 23 = 255 := by omega
    rw [hz, if_neg (by norm_num), if_neg (by norm_num)] at hhi
    push_cast at hhi
    have : (2 : ℚ) ^ 23 * 2 ^ (-149 + (255 - 1) : Int) ≤
        (2 ^ 23 + ((mag % 2 ^ 23 : Nat) : ℚ)) * 2 ^ (-149 + (255 - 1) : Int) :=
      mul_le_mul_of_nonneg_right (le_add_of_nonneg_right (Nat.cast_nonneg _)) (by positivity)
    norm_num at hhi this
    linarith

/-- Two values compared across their denominators. -/
theorem val32_le_of_cross {a b : F32} (h : num32 a * den32 b ≤ num32 b * den32 a) : val32 a ≤ val32 b := by
  have ha : (0 : ℚ) < den32 a := by exact_mod_cast den32_pos a
  have hb : (0 : ℚ) < den32 b := by exact_mod_cast den32_pos b
  rw [val32, val32, div_le_div_iff₀ ha hb]
  exact_mod_cast h

theorem lsb32_bounds (gain : GainRange) :
    val32 (lsb32 .pga0256) ≤ val32 (lsb32 gain) ∧ val32 (lsb32 gain) ≤ val32 (fs32 gain) ∧
      val32 (fs32 gain) ≤ val32 (fs32 .pga6144) := by
  refine ⟨val32_le_of_cross ?_, val32_le_of_cross ?_, val32_le_of_cross ?_⟩ <;> cases gain <;> decide

/-- At one LSB and at minus full scale the voltage is the constant itself, under both numerics. -/
theorem scaleVolts_at_ends (p : Params) (gain : GainRange) :
    scaleVolts p 1 gain = lsb32 gain ∧ scaleVolts p (-1) gain = lsb32 gain ^^^ 0x80000000 ∧
      scaleVolts p (-32768) gain = fs32 gain ^^^ 0x80000000 := by
  cases hnum : p.scaleNumerics with
  | f32 =>
    simp only [scaleVolts_of_f32 _ gain hnum]
    cases gain <;> decide
  | f64ThenF32 =>
    simp only [scaleVolts_of_f64ThenF32 _ gain hnum]
    cases gain <;> decide

/-- Between the ends the relative error is less than one LSB on either side. -/
theorem scaleVolts_between (p : Params) {raw : Int} (hlo : 2 ≤ |raw|) (hhi : |raw| ≤ 32767) (gain : GainRange) :
    val32 (lsb32 gain) ≤ |val32 (scaleVolts p raw gain)| ∧ |val32 (scaleVolts p raw gain)| ≤ val32 (fs32 gain) := by
  have hraw : InI16 raw := ⟨by linarith [(abs_le.mp hhi).1], (abs_le.mp hhi).2⟩
  have hne : raw ≠ 0 := by
    rintro rfl
    norm_num at hlo
  obtain ⟨hl, _⟩ := lsbVolts_bounds gain
  have hl0 : 0 < lsbVolts gain := lt_of_lt_of_le (by norm_num) hl
  have herr := scaleVolts_relErr p hraw hne gain
  have hlsb := abs_le.mp (lsb32_relErr gain)
  have hfs : val32 (fs32 gain) = 32768 * val32 (lsb32 gain) := by
    rw [val32_lsb32]
    ring
  have hvolts : |(raw : ℚ) * lsbVolts gain| = |(raw : ℚ)| * lsbVolts gain := by rw [abs_mul, abs_of_pos hl0]
  have h1 : 2 * lsbVolts gain ≤ |(raw : ℚ)| * lsbVolts gain := by
    rw [← Int.cast_abs]
    exact mul_le_mul_of_nonneg_right (by exact_mod_cast hlo) hl0.le
  have h2 : |(raw : ℚ)| * lsbVolts gain ≤ 32767 * lsbVolts gain := by
    rw [← Int.cast_abs]
    exact mul_le_mul_of_nonneg_right (by exact_mod_cast hhi) hl0.le
  have hlow := herr.le_abs
  have hhigh := herr.abs_le
  rw [hvolts] at hlow hhigh
  rw [abs_of_pos hl0] at hlsb
  constructor <;> linarith

/-- From one LSB to full scale, for every sample that is not zero. -/
theorem scaleVolts_bounds (p : Params) {raw : Int} (hraw : InI16 raw) (hne : raw ≠ 0) (gain : GainRange) :
    val32 (lsb32 gain) ≤ |val32 (scaleVolts p raw gain)| ∧ |val32 (scaleVolts p raw gain)| ≤ val32 (fs32 gain) := by
  obtain ⟨hone, hminus, hleast⟩ := scaleVolts_at_ends p gain
  obtain ⟨_, hle, _⟩ := lsb32_bounds gain
  have hpos := val32_lsb32_pos gain
  obtain ⟨hlo, hhi⟩ := hraw
  by_cases h1 : raw = 1
  · rw [h1, hone, abs_of_pos hpos]
    exact ⟨le_rfl, hle⟩
  by_cases h2 : raw = -1
  · rw [h2, hminus, val32_xor_sign, abs_neg, abs_of_pos hpos]
    exact ⟨le_rfl, hle⟩
  by_cases h3 : raw = -32768
  · rw [h3, hleast, val32_xor_sign, abs_neg, abs_of_pos (hpos.trans_le hle)]
    exact ⟨hle, le_rfl⟩
  · exact scaleVolts_between p (le_abs'.mpr (by omega)) (abs_le.mpr (by omega)) gain

theorem scaleVolts_zero (p : Params) (gain : GainRange) : scaleVolts p 0 gain = 0x00000000 := by
  cases hnum : p.scaleNumerics with
  | f32 =>
    exact (scaleVolts_of_f32 _ gain hnum).trans (scaleF32_zero gain)
  | f64ThenF32 =>
    rw [scaleVolts_of_f64ThenF32 _ gain hnum]
    cases gain <;> decide

/-- Settles O45: the bounds of the magnitude are normal numbers, so the exponent field is one's. -/
theorem scaleResultIsZeroOrNormal : Obligations.ScaleResultIsZeroOrNormal := by
  intro p raw gain hraw v
  refine ⟨fun h => by rw [show v = scaleVolts p raw gain from rfl, h, scaleVolts_zero], fun hne => ?_⟩
  obtain ⟨hlo, hhi⟩ := scaleVolts_bounds p hraw hne gain
  obtain ⟨hleast, _, hgreatest⟩ := lsb32_bounds gain
  have hmin := hleast.trans hlo
  have hmax := hhi.trans hgreatest
  have hnormal : (2 : ℚ) ^ (-126 : Int) ≤ val32 (lsb32 .pga0256) := by
    have hlsb := (abs_le.mp (lsb32_relErr .pga0256)).1
    obtain ⟨hl, _⟩ := lsbVolts_bounds .pga0256
    rw [abs_of_pos (lt_of_lt_of_le (by norm_num) hl)] at hlsb
    calc (2 : ℚ) ^ (-126 : Int) ≤ 1 / 2 ^ 18 := by norm_num
      _ ≤ val32 (lsb32 .pga0256) := by linarith
  have hfinite : val32 (fs32 .pga6144) < (2 : ℚ) ^ (128 : Int) := by
    have hfs := (abs_le.mp (fs32_relErr .pga6144)).2
    norm_num [GainRange.fsMv] at hfs ⊢
    linarith
  obtain ⟨he1, he2⟩ := exponent_of_normal (hnormal.trans hmin) (hmax.trans_lt hfinite)
  exact ⟨he1, he2, hmin, hmax⟩

/-! ## SCALE_FIXED (43_scaling_engine.md R122) -/

theorem decode_of_op_scaleFixed {r : Request} (hop : r.op = 0x7) :
    decode r = .scaleFixed r.sel r.ops.raw.toInt r.ops.gain := by
  simp only [decode, hop]
  rfl

/-- Settles O47: the product is in the range of the largest full scale. -/
theorem scaleFixedRespondsExactly : Obligations.ScaleFixedRespondsExactly := by
  refine ⟨fun _ hop => decode_of_op_scaleFixed hop, fun _ _ _ _ => rfl, fun raw gain ⟨hlo, hhi⟩ => ?_, by decide⟩
  cases gain <;> simp only [GainRange.fsMv] <;> constructor <;> omega

end Sys2Proof.Machine
end
